-- ==== Sys2Proof/Word.lean ====
section
/-! DEFINITION. The widths of the block's values (00_scope.md R9, R10; field widths of 10_state.md R20). All of them are
unsigned (R9). -/

namespace Sys2Proof

/-- A byte, 0..255 (R10): one buffer byte, one byte of a wire frame, an 8-bit register field. -/
abbrev Byte := BitVec 8

/-- A 9-bit length field, 0..511: LEN, CAP, OLEN, RLEN and NEED (R20, R22). -/
abbrev Len := BitVec 9

/-- A 16-bit value: REGADDR, COUNT, VALUE, CRC, and a holding register's value (R20, R15). -/
abbrev Half := BitVec 16

/-- A 32-bit bus word: what a register access carries (R61, R80). -/
abbrev Word := BitVec 32

end Sys2Proof
end

