-- ==== Sys2Proof/Config.lean ====
section
/-! DEFINITION. The block's implementation parameters, fixed by the spec (00_scope.md R7), and the model's one free value. The
one OPEN parameter, BASE, is no constant here: it is the field baseSlot of State, so that every statement holds for every
placement (log 1). -/

namespace Sys2Proof.Config

/-- MAX_FRAME: the size of FRAME and the largest frame any command accepts or builds (R7, R26). -/
abbrev maxFrame : Nat := 256

/-- Minimum frame length: address, function and two CRC bytes (R7, R90). -/
abbrev minFrame : Nat := 4

/-- Size of each of the two buffers FRAME and DATA (R7, R26, R27). -/
abbrev bufferSize : Nat := 256

/-- How many 16-bit register values DATA holds in its register view: `D[2i], D[2i+1]` for `i` in 0..127 (R27). -/
abbrev dataRegisters : Nat := 128

/-- Station addresses are 1..247 (R7, R91). -/
abbrev maxStation : Nat := 247

/-- Read Holding Registers count is 1..125 (R7, R94). -/
abbrev maxReadCount : Nat := 125

/-- Write Multiple Registers count is 1..123 (R7, R98). -/
abbrev maxWriteCount : Nat := 123

/-- The reflected CRC polynomial (R7, R140). -/
abbrev crcPolynomial : Half := 0xA001#16

/-- The CRC's initial register value (R7, R140). -/
abbrev crcInitial : Half := 0xFFFF#16

/-- The exception flag bit of the function byte (R7, R92). -/
abbrev exceptionFlag : Byte := 0x80#8

/-- Function code of Read Holding Registers (R3, R101). -/
abbrev fnReadHolding : Byte := 0x03#8

/-- Function code of Write Single Register (R3, R101). -/
abbrev fnWriteSingle : Byte := 0x06#8

/-- Function code of Write Multiple Registers; decimal 10 is not (R3, R101, 90_conflicts.md C4). -/
abbrev fnWriteMultiple : Byte := 0x10#8

/-- The bus window's size; BASE is a multiple of it (R7, R20, D3). -/
abbrev windowSize : Nat := 0x400

/-- Offset of FRAME's first byte in the window (R20, R60). -/
abbrev frameOffset : Nat := 0x100

/-- Offset of DATA's first byte in the window (R20, R60). -/
abbrev dataOffset : Nat := 0x200

/-- Offset of the reserved window above the buffers (R20, R60). -/
abbrev reservedOffset : Nat := 0x300

/-- A FREE VALUE: the byte that a command finds at an index outside 0..255 of a buffer, where the spec has no byte and states no
value (R26, R27, R311; logs 7 and 9). It may be another one in every step, `performed` being the step's number (log 20), and
at every index. It has no body: nothing can be proved of it. -/
opaque freeByte (performed index : Nat) : Byte

end Sys2Proof.Config
end

