-- ==== Sys2Proof/Machine/Bytes.lean ====
section
/-! DEFINITION. The byte helpers of 00_scope.md R11 and the byte orders of 20_memory.md R63 and R64: big-endian fields inside
a frame, little-endian on the bus and in DATA's register view. -/

namespace Sys2Proof.Machine

/-- `lo8(v) = v mod 256` (R11). -/
def lo8 (v : Half) : Byte := v.extractLsb' 0 8

/-- `hi8(v) = (v div 256) mod 256` (R11). -/
def hi8 (v : Half) : Byte := v.extractLsb' 8 8

/-- `be16(h, l) = 256*h + l`: a big-endian field (R11, R103). -/
def be16 (h l : Byte) : Half := h ++ l

/-- `le16(l, h) = l + 256*h`: a CRC trailer, or a value of DATA's register view (R11, R27, R93). -/
def le16 (l h : Byte) : Half := h ++ l

/-- `BE(v) = [hi8(v), lo8(v)]`: a 16-bit field high byte first (R11). -/
def beBytes (v : Half) : List Byte := [hi8 v, lo8 v]

/-- A 16-bit value low byte first: the CRC trailer `[lo8(c), hi8(c)]` (R11, R93), or one value of DATA's register view
(R131, PutReg). -/
def leBytes (v : Half) : List Byte := [lo8 v, hi8 v]

/-- The big-endian image of register values, in order (R95, R98, R131 WireRegs). -/
def wireRegs (vs : List Half) : List Byte := vs.flatMap beBytes

/-- The register view's image of register values, in order: PutReg of each from register 0 on (R131). -/
def viewRegs (vs : List Half) : List Byte := vs.flatMap leBytes

/-- The values of big-endian byte pairs, in order; a last odd byte has no value (R103). -/
def beValues : List Byte → List Half
  | h :: l :: rest => be16 h l :: beValues rest
  | _ => []

/-- The values of little-endian byte pairs, in order: GetReg of each (R131). -/
def leValues : List Byte → List Half
  | l :: h :: rest => le16 l h :: leValues rest
  | _ => []

/-- The sum of `B[b+k] * 256^k` over the bytes of a bus read (R63). -/
def busValue : List Byte → Nat
  | [] => 0
  | b :: rest => b.toNat + 256 * busValue rest

/-- The `n` bytes of a bus write, byte `k` being `(v >> (8*k)) & 0xFF` (R63). -/
def busBytes (n : Nat) (v : Word) : List Byte :=
  (List.range n).map fun k => v.extractLsb' (8 * k) 8

end Sys2Proof.Machine
end

