-- ==== Sys2Proof/Syntax.lean ====
section
/-! DEFINITION. The instructions: one constructor for each row of spec/opcode_table.json. The 14 CMD rows are the block's
commands (30_encoding.md R81); the 9 FRAME_FC rows are the wire-frame forms (30_encoding.md R94 to R101). -/

namespace Sys2Proof

/-- A command carries the two free bits of its word: `dp` is CMD[8], data present, and `src` is CMD[9], the CRC16 input
select (R80, R82). A frame form carries every field of its bytes, the received CRC trailer among them, as the register value
whose low byte stands first on the wire (R93). -/
inductive Instr where
  /-- CRC16, OP 0x01 (R150). -/
  | crc16 (dp src : Bool)
  /-- BUILD, OP 0x02 (R160). -/
  | build (dp src : Bool)
  /-- BUILD_EXC, OP 0x03 (R165). -/
  | buildExc (dp src : Bool)
  /-- PARSE, OP 0x04 (R170). -/
  | parse (dp src : Bool)
  /-- REQ_RHR, OP 0x10 (R190). -/
  | reqRhr (dp src : Bool)
  /-- REQ_WSR, OP 0x11 (R195). -/
  | reqWsr (dp src : Bool)
  /-- REQ_WMR, OP 0x12 (R200). -/
  | reqWmr (dp src : Bool)
  /-- RSP_RHR, OP 0x13 (R205). -/
  | rspRhr (dp src : Bool)
  /-- RSP_WSR, OP 0x14 (R210). -/
  | rspWsr (dp src : Bool)
  /-- RSP_WMR, OP 0x15 (R215). -/
  | rspWmr (dp src : Bool)
  /-- S_INIT, OP 0x20 (R231). -/
  | sInit (dp src : Bool)
  /-- S_HDR, OP 0x21 (R233). -/
  | sHdr (dp src : Bool)
  /-- S_CNT, OP 0x22 (R236). -/
  | sCnt (dp src : Bool)
  /-- S_BODY, OP 0x23 (R240). -/
  | sBody (dp src : Bool)
  /-- FRAME_RHR_REQ, byte 1 = 0x03: Read Holding Registers request (R94). -/
  | frameRhrReq (station : Byte) (start count crc : Half)
  /-- FRAME_RHR_RSP, byte 1 = 0x03: Read Holding Registers response (R95). -/
  | frameRhrRsp (station byteCount : Byte) (data : List Half) (crc : Half)
  /-- FRAME_WSR_REQ, byte 1 = 0x06: Write Single Register request (R96). -/
  | frameWsrReq (station : Byte) (register value crc : Half)
  /-- FRAME_WSR_RSP, byte 1 = 0x06: Write Single Register response, the echo (R97). -/
  | frameWsrRsp (station : Byte) (register value crc : Half)
  /-- FRAME_WMR_REQ, byte 1 = 0x10: Write Multiple Registers request (R98). -/
  | frameWmrReq (station : Byte) (start count : Half) (byteCount : Byte) (data : List Half) (crc : Half)
  /-- FRAME_WMR_RSP, byte 1 = 0x10: Write Multiple Registers response (R99). -/
  | frameWmrRsp (station : Byte) (start count crc : Half)
  /-- FRAME_EXC_RHR, byte 1 = 0x83: exception response to 0x03 (R100). -/
  | frameExcRhr (station code : Byte) (crc : Half)
  /-- FRAME_EXC_WSR, byte 1 = 0x86: exception response to 0x06 (R100). -/
  | frameExcWsr (station code : Byte) (crc : Half)
  /-- FRAME_EXC_WMR, byte 1 = 0x90: exception response to 0x10 (R100). -/
  | frameExcWmr (station code : Byte) (crc : Half)
deriving DecidableEq, Repr

/-- Which side receives a frame. R101 reads one function byte as a request form on the slave side and as a response form on
the master side. -/
inductive Direction where
  | request
  | response
deriving DecidableEq, Repr

/-- What an instruction is encoded as: one 32-bit CMD word (R80), or the bytes of a wire frame (R90). -/
inductive Code where
  | command (w : Word)
  | frame (dir : Direction) (bytes : List Byte)
deriving DecidableEq, Repr

/-- The instruction is one of the 14 commands of R81 (not a wire-frame form). -/
def Instr.isCommand : Instr → Bool
  | .crc16 _ _ | .build _ _ | .buildExc _ _ | .parse _ _ => true
  | .reqRhr _ _ | .reqWsr _ _ | .reqWmr _ _ | .rspRhr _ _ | .rspWsr _ _ | .rspWmr _ _ => true
  | .sInit _ _ | .sHdr _ _ | .sCnt _ _ | .sBody _ _ => true
  | .frameRhrReq .. | .frameRhrRsp .. | .frameWsrReq .. | .frameWsrRsp .. => false
  | .frameWmrReq .. | .frameWmrRsp .. | .frameExcRhr .. | .frameExcWsr .. | .frameExcWmr .. => false

end Sys2Proof
end

