-- ==== Sys2Proof/WellFormed.lean ====
section
/-! DEFINITION. Which instruction terms are well formed: `shaped` says that the term's fields fit its encoding, `wellFormed`
adds the value rules of a valid frame (30_encoding.md R90 to R100). A frame that is shaped and not well formed can arrive on
the wire; the commands that examine it report the status their rules give (log 6). -/

namespace Sys2Proof

open Machine (beBytes wireRegs)

/-- Everything of a frame form but its CRC trailer: address, function and payload (R90, R94 to R100). A command has none. -/
def Instr.frameBody : Instr → List Byte
  | .frameRhrReq a s n _ => [a, Config.fnReadHolding] ++ beBytes s ++ beBytes n
  | .frameRhrRsp a bc d _ => [a, Config.fnReadHolding, bc] ++ wireRegs d
  | .frameWsrReq a r v _ => [a, Config.fnWriteSingle] ++ beBytes r ++ beBytes v
  | .frameWsrRsp a r v _ => [a, Config.fnWriteSingle] ++ beBytes r ++ beBytes v
  | .frameWmrReq a s n bc d _ => [a, Config.fnWriteMultiple] ++ beBytes s ++ beBytes n ++ [bc] ++ wireRegs d
  | .frameWmrRsp a s n _ => [a, Config.fnWriteMultiple] ++ beBytes s ++ beBytes n
  | .frameExcRhr a e _ => [a, Config.fnReadHolding ||| Config.exceptionFlag, e]
  | .frameExcWsr a e _ => [a, Config.fnWriteSingle ||| Config.exceptionFlag, e]
  | .frameExcWmr a e _ => [a, Config.fnWriteMultiple ||| Config.exceptionFlag, e]
  | .crc16 .. | .build .. | .buildExc .. | .parse .. => []
  | .reqRhr .. | .reqWsr .. | .reqWmr .. | .rspRhr .. | .rspWsr .. | .rspWmr .. => []
  | .sInit .. | .sHdr .. | .sCnt .. | .sBody .. => []

/-- The station address of a frame form (R90, byte 0); a command has none. -/
def Instr.station? : Instr → Option Byte
  | .frameRhrReq a _ _ _ | .frameRhrRsp a _ _ _ | .frameWsrReq a _ _ _ | .frameWsrRsp a _ _ _ => some a
  | .frameWmrReq a _ _ _ _ _ | .frameWmrRsp a _ _ _ => some a
  | .frameExcRhr a _ _ | .frameExcWsr a _ _ | .frameExcWmr a _ _ => some a
  | .crc16 .. | .build .. | .buildExc .. | .parse .. => none
  | .reqRhr .. | .reqWsr .. | .reqWmr .. | .rspRhr .. | .rspWsr .. | .rspWmr .. => none
  | .sInit .. | .sHdr .. | .sCnt .. | .sBody .. => none

/-- The received CRC trailer of a frame form (R93); a command has none. -/
def Instr.trailer? : Instr → Option Half
  | .frameRhrReq _ _ _ c | .frameRhrRsp _ _ _ c | .frameWsrReq _ _ _ c | .frameWsrRsp _ _ _ c => some c
  | .frameWmrReq _ _ _ _ _ c | .frameWmrRsp _ _ _ c => some c
  | .frameExcRhr _ _ c | .frameExcWsr _ _ c | .frameExcWmr _ _ c => some c
  | .crc16 .. | .build .. | .buildExc .. | .parse .. => none
  | .reqRhr .. | .reqWsr .. | .reqWmr .. | .rspRhr .. | .rspWsr .. | .rspWmr .. => none
  | .sInit .. | .sHdr .. | .sCnt .. | .sBody .. => none

/-- The fields fit the encoding. The two forms of variable length hold as many register values as a frame of at most
MAX_FRAME bytes can (R90, R95), and a request's count is the number of its values, since its length is `9 + 2N` (R98, R102). -/
def Instr.shaped : Instr → Bool
  | .frameRhrRsp _ _ d _ => decide (5 + 2 * d.length ≤ Config.maxFrame)
  | .frameWmrReq _ _ n _ d _ => decide (d.length = n.toNat) && decide (9 + 2 * d.length ≤ Config.maxFrame)
  | .frameRhrReq .. | .frameWsrReq .. | .frameWsrRsp .. | .frameWmrRsp .. => true
  | .frameExcRhr .. | .frameExcWsr .. | .frameExcWmr .. => true
  | .crc16 .. | .build .. | .buildExc .. | .parse .. => true
  | .reqRhr .. | .reqWsr .. | .reqWmr .. | .rspRhr .. | .rspWsr .. | .rspWmr .. => true
  | .sInit .. | .sHdr .. | .sCnt .. | .sBody .. => true

/-- The register-count and byte-count rules of a form: R94, R95, R98, R99. -/
def Instr.countsAgree : Instr → Bool
  | .frameRhrReq _ _ n _ => decide (1 ≤ n.toNat) && decide (n.toNat ≤ Config.maxReadCount)
  | .frameRhrRsp _ bc d _ => decide (1 ≤ d.length) && decide (d.length ≤ Config.maxReadCount) && decide (bc.toNat = 2 * d.length)
  | .frameWmrReq _ _ n bc _ _ =>
    decide (1 ≤ n.toNat) && decide (n.toNat ≤ Config.maxWriteCount) && decide (bc.toNat = 2 * n.toNat)
  | .frameWmrRsp _ _ n _ => decide (1 ≤ n.toNat) && decide (n.toNat ≤ Config.maxWriteCount)
  | .frameWsrReq .. | .frameWsrRsp .. | .frameExcRhr .. | .frameExcWsr .. | .frameExcWmr .. => true
  | .crc16 .. | .build .. | .buildExc .. | .parse .. => true
  | .reqRhr .. | .reqWsr .. | .reqWmr .. | .rspRhr .. | .rspWsr .. | .rspWmr .. => true
  | .sInit .. | .sHdr .. | .sCnt .. | .sBody .. => true

/-- The station address of a frame form is 1..247 (R91). -/
def Instr.stationValid (i : Instr) : Bool :=
  match i.station? with
  | some a => decide (1 ≤ a.toNat) && decide (a.toNat ≤ Config.maxStation)
  | none => true

/-- The trailer of a frame form is the CRC16 of every preceding byte (R90, R93). -/
def Instr.crcValid (i : Instr) : Bool :=
  match i.trailer? with
  | some c => decide (Machine.crc16 i.frameBody = c)
  | none => true

/-- A command is always well formed, DP and SRC being free bits (R82). A frame form is well formed when its fields fit,
its counts agree, its station address is valid and its CRC trailer is right. -/
def Instr.wellFormed (i : Instr) : Bool :=
  i.shaped && i.countsAgree && i.stationValid && i.crcValid

end Sys2Proof
end

