-- ==== Sys2Proof/Decode.lean ====
section
/-! DEFINITION. Decoding (total, rejecting by name) and, after it, encoding: CMD words by 30_encoding.md R80 to R83, wire
frames by their function byte and length (R90, R94 to R102). -/

namespace Sys2Proof

open Machine (be16 le16 leBytes)

/-- Why a code is no instruction. -/
inductive Reject where
  /-- A CMD word with bits [31:10] not all zero is not a command (R83). -/
  | reservedBits
  /-- A CMD word whose OP is not in the table of R81 is not a command (R83). -/
  | unassignedOp
  /-- A byte sequence shorter than the minimum frame (R90). -/
  | frameTooShort
  /-- A byte sequence longer than MAX_FRAME (R90). -/
  | frameTooLong
  /-- A function byte that R101 lists for no form in this direction. -/
  | unsupportedFunction
  /-- A length that the form of its function byte does not have (R94 to R100, R102). -/
  | wrongLength
deriving DecidableEq, Repr

/-! ## CMD words -/

/-- DP, bit 8 of a CMD word (R80). -/
def wordDp (w : Word) : Bool := w.getLsbD 8

/-- SRC, bit 9 of a CMD word (R80). -/
def wordSrc (w : Word) : Bool := w.getLsbD 9

/-- OP, bits [7:0] of a CMD word (R80). -/
def wordOp (w : Word) : Byte := w.extractLsb' 0 8

/-- The reserved bits [31:10] of a CMD word (R80, R83). -/
def wordReserved (w : Word) : BitVec 22 := w.extractLsb' 10 22

/-- The command an OP value selects: the opcode map of R81. -/
def opCommand (op : Byte) (dp src : Bool) : Option Instr :=
  match op.toNat with
  | 0x01 => some (.crc16 dp src)
  | 0x02 => some (.build dp src)
  | 0x03 => some (.buildExc dp src)
  | 0x04 => some (.parse dp src)
  | 0x10 => some (.reqRhr dp src)
  | 0x11 => some (.reqWsr dp src)
  | 0x12 => some (.reqWmr dp src)
  | 0x13 => some (.rspRhr dp src)
  | 0x14 => some (.rspWsr dp src)
  | 0x15 => some (.rspWmr dp src)
  | 0x20 => some (.sInit dp src)
  | 0x21 => some (.sHdr dp src)
  | 0x22 => some (.sCnt dp src)
  | 0x23 => some (.sBody dp src)
  | _ => none

/-- Decoding a CMD word: by `w[7:0]` alone when `w[31:10] = 0`, with DP and SRC free bits (R82); anything else is not a
command (R83). -/
def decodeCommand (w : Word) : Except Reject Instr :=
  if wordReserved w ≠ 0 then .error .reservedBits
  else match opCommand (wordOp w) (wordDp w) (wordSrc w) with
    | some i => .ok i
    | none => .error .unassignedOp

/-! ## Wire frames -/

/-- The register values and the trailer that end a frame of variable length: big-endian pairs, then the two CRC bytes, low
byte first (R95, R98). None where the byte count is odd or zero. -/
def splitTail : List Byte → Option (List Half × Half)
  | [c0, c1] => some ([], le16 c0 c1)
  | h :: l :: rest => (splitTail rest).map fun (vs, c) => (be16 h l :: vs, c)
  | _ => none

/-- The two 16-bit fields and the trailer of an 8-byte form, after address and function (R94, R96, R97, R99). -/
def splitPair : List Byte → Option (Half × Half × Half)
  | [x1, x0, y1, y0, c0, c1] => some (be16 x1 x0, be16 y1 y0, le16 c0 c1)
  | _ => none

/-- The code byte and the trailer of a 5-byte exception response, after address and function (R100). -/
def splitExc : List Byte → Option (Byte × Half)
  | [e, c0, c1] => some (e, le16 c0 c1)
  | _ => none

/-- A form whose fields were found, or the rejection of its length. -/
def asForm (o : Option Instr) : Except Reject Instr :=
  match o with
  | some i => .ok i
  | none => .error .wrongLength

/-- The request forms of R101, by function byte. The Write Multiple Registers request is `9 + 2N` bytes, N its count field
(R98, R102). -/
def decodeRequest (a f : Byte) (rest : List Byte) : Except Reject Instr :=
  if f = Config.fnReadHolding then
    asForm ((splitPair rest).map fun (s, n, c) => .frameRhrReq a s n c)
  else if f = Config.fnWriteSingle then
    asForm ((splitPair rest).map fun (r, v, c) => .frameWsrReq a r v c)
  else if f = Config.fnWriteMultiple then
    match rest with
    | s1 :: s0 :: n1 :: n0 :: bc :: tail =>
      match splitTail tail with
      | some (vs, c) =>
        if vs.length = (be16 n1 n0).toNat then .ok (.frameWmrReq a (be16 s1 s0) (be16 n1 n0) bc vs c)
        else .error .wrongLength
      | none => .error .wrongLength
    | _ => .error .wrongLength
  else .error .unsupportedFunction

/-- The response forms of R101, by function byte. -/
def decodeResponse (a f : Byte) (rest : List Byte) : Except Reject Instr :=
  if f = Config.fnReadHolding then
    match rest with
    | bc :: tail => asForm ((splitTail tail).map fun (vs, c) => .frameRhrRsp a bc vs c)
    | [] => .error .wrongLength
  else if f = Config.fnWriteSingle then
    asForm ((splitPair rest).map fun (r, v, c) => .frameWsrRsp a r v c)
  else if f = Config.fnWriteMultiple then
    asForm ((splitPair rest).map fun (s, n, c) => .frameWmrRsp a s n c)
  else if f = Config.fnReadHolding ||| Config.exceptionFlag then
    asForm ((splitExc rest).map fun (e, c) => .frameExcRhr a e c)
  else if f = Config.fnWriteSingle ||| Config.exceptionFlag then
    asForm ((splitExc rest).map fun (e, c) => .frameExcWsr a e c)
  else if f = Config.fnWriteMultiple ||| Config.exceptionFlag then
    asForm ((splitExc rest).map fun (e, c) => .frameExcWmr a e c)
  else .error .unsupportedFunction

/-- Decoding the bytes of a wire frame, `4 ≤ L ≤ 256` (R90). Only lengths and the function byte are looked at: what a field
may hold, and whether the CRC is right, is for the commands to check (log 6). -/
def decodeFrame (dir : Direction) (bytes : List Byte) : Except Reject Instr :=
  if Config.maxFrame < bytes.length then .error .frameTooLong
  else if bytes.length < Config.minFrame then .error .frameTooShort
  else match bytes with
    | a :: f :: rest =>
      match dir with
      | .request => decodeRequest a f rest
      | .response => decodeResponse a f rest
    | _ => .error .frameTooShort

/-- The instruction a code stands for. -/
def decode : Code → Except Reject Instr
  | .command w => decodeCommand w
  | .frame dir bytes => decodeFrame dir bytes

/-! ## Encoding -/

/-- The OP value of a command (R81); a frame form has none. -/
def Instr.opcode? : Instr → Option Byte
  | .crc16 _ _ => some 0x01#8
  | .build _ _ => some 0x02#8
  | .buildExc _ _ => some 0x03#8
  | .parse _ _ => some 0x04#8
  | .reqRhr _ _ => some 0x10#8
  | .reqWsr _ _ => some 0x11#8
  | .reqWmr _ _ => some 0x12#8
  | .rspRhr _ _ => some 0x13#8
  | .rspWsr _ _ => some 0x14#8
  | .rspWmr _ _ => some 0x15#8
  | .sInit _ _ => some 0x20#8
  | .sHdr _ _ => some 0x21#8
  | .sCnt _ _ => some 0x22#8
  | .sBody _ _ => some 0x23#8
  | .frameRhrReq .. | .frameRhrRsp .. | .frameWsrReq .. | .frameWsrRsp .. => none
  | .frameWmrReq .. | .frameWmrRsp .. | .frameExcRhr .. | .frameExcWsr .. | .frameExcWmr .. => none

/-- A CMD word from its fields: `OP | (0x100 if DP) | (0x200 if SRC)` (R80, R111). -/
def commandWord (op : Byte) (dp src : Bool) : Word :=
  0#22 ++ (BitVec.ofBool src ++ (BitVec.ofBool dp ++ op))

/-- All the bytes of a frame form, in wire order: its body, then its trailer, low byte first (R90, R93). -/
def Instr.frameBytes (i : Instr) : List Byte :=
  match i.trailer? with
  | some c => i.frameBody ++ leBytes c
  | none => []

/-- The words of an instruction. -/
def encode : Instr → Code
  | .crc16 dp src => .command (commandWord 0x01#8 dp src)
  | .build dp src => .command (commandWord 0x02#8 dp src)
  | .buildExc dp src => .command (commandWord 0x03#8 dp src)
  | .parse dp src => .command (commandWord 0x04#8 dp src)
  | .reqRhr dp src => .command (commandWord 0x10#8 dp src)
  | .reqWsr dp src => .command (commandWord 0x11#8 dp src)
  | .reqWmr dp src => .command (commandWord 0x12#8 dp src)
  | .rspRhr dp src => .command (commandWord 0x13#8 dp src)
  | .rspWsr dp src => .command (commandWord 0x14#8 dp src)
  | .rspWmr dp src => .command (commandWord 0x15#8 dp src)
  | .sInit dp src => .command (commandWord 0x20#8 dp src)
  | .sHdr dp src => .command (commandWord 0x21#8 dp src)
  | .sCnt dp src => .command (commandWord 0x22#8 dp src)
  | .sBody dp src => .command (commandWord 0x23#8 dp src)
  | .frameRhrReq a s n c => .frame .request (Instr.frameRhrReq a s n c).frameBytes
  | .frameRhrRsp a bc d c => .frame .response (Instr.frameRhrRsp a bc d c).frameBytes
  | .frameWsrReq a r v c => .frame .request (Instr.frameWsrReq a r v c).frameBytes
  | .frameWsrRsp a r v c => .frame .response (Instr.frameWsrRsp a r v c).frameBytes
  | .frameWmrReq a s n bc d c => .frame .request (Instr.frameWmrReq a s n bc d c).frameBytes
  | .frameWmrRsp a s n c => .frame .response (Instr.frameWmrRsp a s n c).frameBytes
  | .frameExcRhr a e c => .frame .response (Instr.frameExcRhr a e c).frameBytes
  | .frameExcWsr a e c => .frame .response (Instr.frameExcWsr a e c).frameBytes
  | .frameExcWmr a e c => .frame .response (Instr.frameExcWmr a e c).frameBytes

/-! ## The opcode table's words -/

/-- The length of the shortest frame of a function byte's form, its other bytes zero: 8 for a read or single-write request,
`9 + 2N` with N = 0 for a multiple write, 5 for an exception response (R94, R96, R98, R100). -/
def tableFrameLength (f : Byte) : Nat :=
  if f = Config.fnReadHolding ∨ f = Config.fnWriteSingle then 8
  else if f = Config.fnWriteMultiple then 9
  else 5

/-- A function byte without the exception flag names a request form, one with it an exception response (R92, R101). -/
def tableDirection (f : Byte) : Direction :=
  if f.getLsbD 7 then .response else .request

/-- The code whose opcode-table bits are `w`. A CMD row has 32 bits, the whole word. A FRAME_FC row has 8 bits, the function
byte, byte 1 of the frame (R101); every other byte is zero. A response row of 0x03, 0x06 or 0x10 has the same word as its
request row, and the request is taken (log 5). -/
def tableCode (nbits w : Nat) : Code :=
  if nbits ≤ 8 then
    let f : Byte := BitVec.ofNat 8 w
    .frame (tableDirection f) (0#8 :: f :: List.replicate (tableFrameLength f - 2) 0#8)
  else .command (BitVec.ofNat 32 w)

/-- What the decoder reads from an opcode-table word. -/
def decodeTableWord (nbits w : Nat) : Option Instr :=
  match decode (tableCode nbits w) with
  | .ok i => some i
  | .error _ => none

end Sys2Proof
end

