-- ==== Sys2Proof/Machine/State.lean ====
section
/-! DEFINITION. The state of the block (10_state.md R20 to R33), the host's side of the bus, and the reasons a step stops. -/

namespace Sys2Proof.Machine

/-- The status codes of 30_encoding.md R86. `invalidInstance` and `timeout` are the host software's and the block never
produces them (R86, D37); 12..255 are never written and have no constructor (log 15). -/
inductive Status where
  | success
  | notImplemented
  | nullPointer
  | invalidParam
  | invalidInstance
  | notInitialized
  | timeout
  | crcError
  | invalidResponse
  | invalidAddress
  | invalidFunctionCode
  | exception
deriving DecidableEq, Repr

/-- STATUS.SPHASE, the slave cycle's phase (R23, R30); the value 3 is never produced and has no constructor (log 15). -/
inductive Phase where
  | idle
  | awaitCount
  | awaitBody
deriving DecidableEq, Repr

/-- The fields of STATUS (R23). -/
structure StatusReg where
  /-- CODE, the status of the last command. -/
  code : Status
  /-- ISEXC: the last command decoded an exception response. -/
  isExc : Bool
  /-- EXCP: that response carried a code byte. -/
  excp : Bool
  /-- INIT: slave mode is configured. -/
  init : Bool
  /-- SPHASE: the slave cycle's phase. -/
  sphase : Phase
deriving DecidableEq, Repr

/-- The width `n` of a bus access, in {1, 2, 4} bytes (R60). -/
inductive Width where
  | byte
  | half
  | word
deriving DecidableEq, Repr

/-- What the world outside does to the block, one item a step (R8, R60, R110, R300; log 2). -/
inductive HostAction where
  /-- `MemRead(addr, n)` at a bus address (R60). -/
  | read (addr : Nat) (n : Width)
  /-- `MemWrite(addr, n, v)` at a bus address (R60). -/
  | write (addr : Nat) (n : Width) (v : Word)
  /-- A wire frame arrives and the host places its bytes in FRAME from F[0]: `FILL FRAME+0, bytes` (R110, R220, R246; log 4). -/
  | frame (dir : Direction) (bytes : List Byte)
  /-- The platform resets the block (R300; log 14). -/
  | reset
deriving DecidableEq, Repr

/-- The whole state: STATUS and the registers of R20 (CMD stores nothing, R21), the written buffer bytes (R26 to R28), and
the model's own fields for the host's side (logs 1 to 3) and for its free value (log 20). -/
structure State where
  /-- STATUS, offset 0x004 (R23). -/
  status : StatusReg
  /-- ADDR, offset 0x008: station address operand. -/
  addr : Byte
  /-- FUNC, offset 0x00C: function code operand. -/
  func : Byte
  /-- LEN, offset 0x010: input length in bytes. -/
  len : Len
  /-- CAP, offset 0x014: capacity in bytes. -/
  cap : Len
  /-- OLEN, offset 0x018: output length in bytes. -/
  olen : Len
  /-- CRC, offset 0x01C: CRC result. -/
  crc : Half
  /-- EXC, offset 0x020: exception code. -/
  exc : Byte
  /-- REGADDR, offset 0x024: register (start) address. -/
  regAddr : Half
  /-- COUNT, offset 0x028: register count. -/
  count : Half
  /-- VALUE, offset 0x02C: single register value. -/
  value : Half
  /-- RLEN, offset 0x030: expected response length of the last REQ_*. -/
  rlen : Len
  /-- LOCAL, offset 0x034: bound local address of slave mode. -/
  localAddr : Byte
  /-- NEED, offset 0x038: total frame length the slave cycle now needs in FRAME. -/
  need : Len
  /-- SFUNC, offset 0x03C: function byte seen by the last S_HDR with a matching address. -/
  sfunc : Byte
  /-- BCOUNT, offset 0x040: byte-count field of the last decoded Write Multiple Registers request. -/
  bcount : Byte
  /-- The written buffer bytes, by window offset: F[i] at 0x100 + i, D[i] at 0x200 + i (R26, R27, R60). Offsets rise
  strictly; an offset that is not listed is an unwritten byte, which has no value (R28; log 11). -/
  mem : List Host.Cell
  /-- BASE divided by 0x400: where the platform maps the block (R7, D3; log 1). No step changes it. -/
  baseSlot : Nat
  /-- The host actions still to come, oldest first (log 2). -/
  pending : List HostAction
  /-- The values the host has read, oldest first (log 3). -/
  replies : List Word
  /-- How many host actions have been performed: the counter by which free values are drawn, which every step that performs an
  action advances (log 20). -/
  performed : Nat
deriving DecidableEq, Repr

/-- What stops the machine with a fault: nothing. Every failure is a status and there are no traps (40_command_model.md R124,
60_exceptions.md R270 to R275), so this type has no constructor; what R276 lists is refused. -/
inductive Fault where
deriving DecidableEq, Repr

/-- What the model refuses: the three host actions of R276, and an instruction with no meaning yet. -/
inductive Refusal where
  /-- Raised by an arm of exec whose instruction has no meaning yet. Safe. -/
  | notModelled (mnemonic : String)
  /-- Raised by a register access that is not 32 bits wide at a 4-byte-aligned offset (R61, R276 item 1). Safe. -/
  | registerAccess
  /-- Raised by a misaligned access to a buffer or the reserved window above (R62, R276 item 2). Safe. -/
  | misalignedAccess
  /-- Raised by a host read, or a command on its path, of a buffer byte that nothing has written (R28, R123, R276 item 3).
  Safe. -/
  | unwrittenByte
deriving DecidableEq, Repr

/-- What every function of the machine answers. -/
abbrev Result (α : Type) := Host.Outcome α Fault Refusal

/-- STATUS after reset: 0, that is CODE = 0, ISEXC = 0, EXCP = 0, INIT = 0 and SPHASE = IDLE (R32). CODE = 0 here reports no
command (D41). -/
def StatusReg.reset : StatusReg :=
  { code := .success, isExc := false, excp := false, init := false, sphase := .idle }

/-- The machine right after reset (R32, R300): every register 0, every buffer byte unwritten. The model's own fields: slot 0
(DESIGN CHOICE, log 1), nothing pending and nothing read (DESIGN CHOICE, logs 2 and 3), and no action performed (DESIGN
CHOICE, log 20). -/
def State.reset : State :=
  { status := StatusReg.reset, addr := 0, func := 0, len := 0, cap := 0, olen := 0, crc := 0, exc := 0, regAddr := 0,
    count := 0, value := 0, rlen := 0, localAddr := 0, need := 0, sfunc := 0, bcount := 0, mem := [], baseSlot := 0,
    pending := [], replies := [], performed := 0 }

end Sys2Proof.Machine
end

