-- ==== Sys2Proof/Machine/Flags.lean ====
section
/-! DEFINITION. STATUS: its word as the host reads it (10_state.md R23, 30_encoding.md R86), and the flag computations the
commands share, the prologue's (40_command_model.md R121) and the exception path's (R129). -/

namespace Sys2Proof.Machine

/-- The number of a status code (R86). -/
def Status.number : Status → Byte
  | .success => 0
  | .notImplemented => 1
  | .nullPointer => 2
  | .invalidParam => 3
  | .invalidInstance => 4
  | .notInitialized => 5
  | .timeout => 6
  | .crcError => 7
  | .invalidResponse => 8
  | .invalidAddress => 9
  | .invalidFunctionCode => 10
  | .exception => 11

/-- The number of a phase: 0 IDLE, 1 AWAIT_COUNT, 2 AWAIT_BODY (R23). -/
def Phase.number : Phase → BitVec 2
  | .idle => 0
  | .awaitCount => 1
  | .awaitBody => 2

/-- STATUS as a word: CODE [7:0], ISEXC [8], EXCP [9], INIT [10], SPHASE [13:12]; bits [11] and [31:14] read 0 (R23, U10). -/
def StatusReg.word (r : StatusReg) : Word :=
  0#18 ++ (r.sphase.number ++ (0#1 ++ (BitVec.ofBool r.init ++ (BitVec.ofBool r.excp ++
    (BitVec.ofBool r.isExc ++ r.code.number)))))

/-- The prologue's flags: ISEXC and EXCP cleared, CODE, INIT and SPHASE untouched (R121). -/
def StatusReg.cleared (r : StatusReg) : StatusReg :=
  { r with isExc := false, excp := false }

/-- The flags of the exception path: ISEXC set, and EXCP set when a code byte is present (R129). -/
def StatusReg.reporting (r : StatusReg) (ec : Option Byte) : StatusReg :=
  { r with isExc := true, excp := r.excp || ec.isSome }

end Sys2Proof.Machine
end

