-- ==== Sys2Proof/Machine/Ops.lean ====
section
/-! DEFINITION. The named operations every meaning is built from: memory as a list of cells, reading and writing the two
buffers (10_state.md R26 to R28), the prologue and the end of a command (40_command_model.md R121, R124), which is how this
block takes its exceptions (60_exceptions.md R270, R273), and the shared frame functions (R126 to R130). The block has no
return from an exception (R274): a status stays in STATUS.CODE until the next command overwrites it, and the prologue
clears the exception flags. -/

namespace Sys2Proof.Machine

/-! ## Memory -/

/-- The canonical form: offsets strictly rising. An unlisted offset has no value, so no cell can repeat one. -/
def Memory.wf : List Host.Cell → Bool
  | [] => true
  | [_] => true
  | (a, _) :: (b, w) :: rest => decide (a < b) && Memory.wf ((b, w) :: rest)

/-- The byte at a window offset; an unlisted offset is an unwritten byte (R28). -/
def Memory.read : List Host.Cell → Nat → Option Byte
  | [], _ => none
  | (a, v) :: rest, x => if x = a then some v else Memory.read rest x

/-- Write one byte, keeping the offsets strictly rising (R28, R63). -/
def Memory.write : List Host.Cell → Nat → Byte → List Host.Cell
  | [], x, v => [(x, v)]
  | (a, w) :: rest, x, v =>
    if x < a then (x, v) :: (a, w) :: rest
    else if x = a then (x, v) :: rest
    else (a, w) :: Memory.write rest x v

/-- Write bytes at consecutive offsets, in order. -/
def Memory.writeAll : List Host.Cell → Nat → List Byte → List Host.Cell
  | m, _, [] => m
  | m, x, b :: rest => Memory.writeAll (Memory.write m x b) (x + 1) rest

/-- The two buffers (R26, R27). -/
inductive Buffer where
  | frame
  | data
deriving DecidableEq, Repr

/-- The window offset of a buffer's byte 0 (R20, R60). -/
def Buffer.base : Buffer → Nat
  | .frame => Config.frameOffset
  | .data => Config.dataOffset

/-- Byte `i` of a buffer, `F[i]` or `D[i]`, if it has been written (R28); an index outside 0..255 names no byte (R26, R27). -/
def State.byteAt (s : State) (b : Buffer) (i : Nat) : Option Byte :=
  if i < Config.bufferSize then Memory.read s.mem (b.base + i) else none

/-- What a command finds at index `i` of a buffer: the byte held there, or nothing where it is unwritten (R28); at an index
outside 0..255, which names no byte, a free value (logs 7 and 9). -/
def State.foundAt (s : State) (b : Buffer) (i : Nat) : Option Byte :=
  if i < Config.bufferSize then s.byteAt b i else some (Config.freeByte s.performed i)

/-- Store bytes into a buffer from index `i` on: each becomes written (R28, R13). -/
def State.storeBytes (s : State) (b : Buffer) (i : Nat) (bytes : List Byte) : State :=
  { s with mem := Memory.writeAll s.mem (b.base + i) bytes }

/-! ## Reading on a command's path -/

/-- Go on with what was read, or stop as the read stopped. -/
def andThen {α β : Type} (r : Result α) (k : α → Result β) : Result β :=
  match r with
  | .next a => k a
  | .fault f => .fault f
  | .refused q => .refused q

/-- Read `F[i]` or `D[i]`: refused when unwritten (R28, R123). -/
def readByte (s : State) (b : Buffer) (i : Nat) : Result Byte :=
  match s.foundAt b i with
  | some v => .next v
  | none => .refused .unwrittenByte

/-- Read `n` bytes from index `i` on, in order: `F[i..i+n)` or `D[i..i+n)` (R10, R123). -/
def readBytes (s : State) (b : Buffer) (i : Nat) : Nat → Result (List Byte)
  | 0 => .next []
  | n + 1 => andThen (readByte s b i) fun v => andThen (readBytes s b (i + 1) n) fun vs => .next (v :: vs)

/-! ## Beginning and ending a command -/

/-- The prologue of every CMD write: ISEXC, EXCP and OLEN cleared (R121). -/
def State.prologue (s : State) : State :=
  { s with status := s.status.cleared, olen := 0 }

/-- The first write of the PARSE family, after the prologue: EXC cleared (R170, R205, R210, R215, R270). -/
def State.parseStart (s : State) : State := { s.prologue with exc := 0 }

/-- The first write of the REQ_* commands, after the prologue: RLEN cleared (R190, R195, R200). -/
def State.requestStart (s : State) : State := { s.prologue with rlen := 0 }

/-- `finish(code)`, which is also `raise <Status>` (R13): write STATUS.CODE and end; every write done before stays (R124,
R273). Taking one of the block's exceptions is exactly this; it saves no address, masks nothing and branches nowhere (R273). -/
def finish (code : Status) (s : State) : Result State :=
  .next { s with status := { s.status with code := code } }

/-- `ReportExc(ec)`, the exception path of the PARSE family: ISEXC, EXCP, EXC, and the status Exception (R129). -/
def reportExc (ec : Option Byte) (s : State) : Result State :=
  finish .exception { s with status := s.status.reporting ec, exc := ec.getD 0 }

/-- The whole effect of a CMD word that is not a command: the prologue, then NotImplemented (R83, R120). -/
def notACommand (s : State) : Result State :=
  finish .notImplemented s.prologue

/-! ## Frames -/

/-- `ValidAddr(a)`: `1 ≤ a ≤ 247` (R91, R126). -/
def validAddr (a : Byte) : Bool :=
  decide (1 ≤ a.toNat) && decide (a.toNat ≤ Config.maxStation)

/-- `Frame(a, f, p)`: address, function, payload, then the CRC16 of all of it, low byte first (R126, R90). -/
def wireFrame (a f : Byte) (p : List Byte) : List Byte :=
  let body := a :: f :: p
  body ++ leBytes (crc16 body)

/-- `StoreFrame(fr)`: the frame from F[0] on, OLEN its length, CRC its last two bytes (R130). -/
def storeFrame (fr : List Byte) (s : State) : State :=
  { s.storeBytes .frame 0 fr with
    olen := BitVec.ofNat 9 fr.length
    crc := le16 (fr.getD (fr.length - 2) 0) (fr.getD (fr.length - 1) 0) }

/-- The three outcomes of `Deframe` (R127). -/
inductive Deframed where
  | err (code : Status)
  | exc (ec : Option Byte)
  | ok (payload : List Byte)
deriving DecidableEq, Repr

/-- `Deframe`'s checks after the address check, on the frame's bytes: the CRC first, then the exception form, then the
function byte (R127). -/
def examineFrame (ef : Byte) (fr : List Byte) : Deframed :=
  let n := fr.length
  let rx := le16 (fr.getD (n - 2) 0) (fr.getD (n - 1) 0)
  let f1 := fr.getD 1 0
  if crc16 (fr.take (n - 2)) ≠ rx then .err .crcError
  else if f1 = ef ||| Config.exceptionFlag then
    if 4 < n then .exc (some (fr.getD 2 0)) else .exc none
  else if f1 ≠ ef then .err .invalidFunctionCode
  else .ok ((fr.take (n - 2)).drop 2)

/-- `Deframe(n, ea, ef)` on the received frame `F[0..n)`: the two length checks, the address byte, and only then the rest of
the frame (R127, R128). -/
def deframe (n : Nat) (ea ef : Byte) (s : State) : Result Deframed :=
  if Config.maxFrame < n then .next (.err .invalidParam)
  else if n < Config.minFrame then .next (.err .invalidResponse)
  else andThen (readByte s .frame 0) fun f0 =>
    if f0 ≠ ea then .next (.err .invalidResponse)
    else andThen (readBytes s .frame 0 n) fun fr => .next (examineFrame ef fr)

/-- What the PARSE family does with a deframed response: an error ends the command, an exception is reported, and a payload
goes on (R170, R205, R210, R215). -/
def onPayload (d : Deframed) (s : State) (k : List Byte → Result State) : Result State :=
  match d with
  | .err code => finish code s
  | .exc ec => reportExc ec s
  | .ok p => k p

/-- The bytes of a wire frame placed in FRAME from F[0] on by the host, one byte write each (`FILL FRAME+0`, R110, R63).
Byte 256 and on would go to DATA and then to reserved offsets, which ignore writes (R110, R62; log 16). -/
def fillFrame (bytes : List Byte) (s : State) : State :=
  { s with mem := Memory.writeAll s.mem Config.frameOffset (bytes.take (Config.reservedOffset - Config.frameOffset)) }

end Sys2Proof.Machine
end

