-- ==== Sys2Proof/Machine/Operands.lean ====
section
/-! DEFINITION. The operand forms of the commands: the effective capacity (40_command_model.md R125), the CRC16 input
(41_crc.md R150), the two views of DATA (10_state.md R27, 40_command_model.md R131), and the 16-bit fields of a received
request in FRAME (30_encoding.md R103). -/

namespace Sys2Proof.Machine

/-- `EffCap() = min(CAP, MAX_FRAME)` (R125). -/
def State.effCap (s : State) : Nat := min s.cap.toNat Config.maxFrame

/-- The CRC16 command's input buffer: FRAME when SRC = 1, DATA when SRC = 0 (R150, D13). -/
def crcSource (src : Bool) : Buffer := if src then .frame else .data

/-- The payload view: `D[0..n)`, raw bytes in wire order (R27). -/
def readPayload (n : Nat) (s : State) : Result (List Byte) := readBytes s .data 0 n

/-- Register values 0..n-1 of the register view, `GetReg` of each, reading `D[0..2n)` (R27, R131). -/
def readRegs (n : Nat) (s : State) : Result (List Half) :=
  andThen (readBytes s .data 0 (2 * n)) fun bs => .next (leValues bs)

/-- Store register values from register 0 on, `PutReg` of each (R131). -/
def storeRegs (vs : List Half) (s : State) : State := s.storeBytes .data 0 (viewRegs vs)

/-- The big-endian field `be16(F[i], F[i+1])` (R103). -/
def readField (i : Nat) (s : State) : Result Half :=
  andThen (readByte s .frame i) fun h => andThen (readByte s .frame (i + 1)) fun l => .next (be16 h l)

/-- `n` big-endian values from F[i] on (R103, R240). -/
def readFields (i n : Nat) (s : State) : Result (List Half) :=
  andThen (readBytes s .frame i (2 * n)) fun bs => .next (beValues bs)

end Sys2Proof.Machine
end

