-- ==== Sys2Proof/Machine/CrcCommand.lean ====
section
/-! DEFINITION. The CRC16 command (41_crc.md R150). A meaning of a command is the whole of its CMD write: the prologue, then
its pseudocode (40_command_model.md R120; log 19). -/

namespace Sys2Proof.Machine

/-- CRC16 (R150): the sentinel for absent or empty input, then the 256 bound, then the CRC of the selected buffer's prefix. -/
def execCrc16 (dp src : Bool) (s : State) : Result State :=
  let s := s.prologue
  let n := s.len.toNat
  if (src = false ∧ dp = false) ∨ n = 0 then finish .success { s with crc := 0 }
  else if Config.maxFrame < n then finish .invalidParam { s with crc := 0 }
  else andThen (readBytes s (crcSource src) 0 n) fun bs => finish .success { s with crc := crc16 bs }

end Sys2Proof.Machine
end

