-- ==== Sys2Proof/Machine/Forms.lean ====
section
/-! DEFINITION. The wire-frame forms, the FRAME_FC rows of the opcode table (30_encoding.md R94 to R101). A form is a byte
sequence that is carried in FRAME (R90). Running one is its arrival there: the host places its bytes in F[0..L) (R220 step 4,
R246 steps 1 to 3), which is all that happens until the host issues a command that examines them (log 4). -/

namespace Sys2Proof.Machine

/-- Read Holding Registers request (R94). -/
def execFrameRhrReq (station : Byte) (start count crc : Half) (s : State) : Result State :=
  .next (fillFrame (Instr.frameRhrReq station start count crc).frameBytes s)

/-- Read Holding Registers response (R95). -/
def execFrameRhrRsp (station byteCount : Byte) (data : List Half) (crc : Half) (s : State) : Result State :=
  .next (fillFrame (Instr.frameRhrRsp station byteCount data crc).frameBytes s)

/-- Write Single Register request (R96). -/
def execFrameWsrReq (station : Byte) (register value crc : Half) (s : State) : Result State :=
  .next (fillFrame (Instr.frameWsrReq station register value crc).frameBytes s)

/-- Write Single Register response, the echo (R97). -/
def execFrameWsrRsp (station : Byte) (register value crc : Half) (s : State) : Result State :=
  .next (fillFrame (Instr.frameWsrRsp station register value crc).frameBytes s)

/-- Write Multiple Registers request (R98). -/
def execFrameWmrReq (station : Byte) (start count : Half) (byteCount : Byte) (data : List Half) (crc : Half) (s : State) :
    Result State :=
  .next (fillFrame (Instr.frameWmrReq station start count byteCount data crc).frameBytes s)

/-- Write Multiple Registers response (R99). -/
def execFrameWmrRsp (station : Byte) (start count crc : Half) (s : State) : Result State :=
  .next (fillFrame (Instr.frameWmrRsp station start count crc).frameBytes s)

/-- Exception response to Read Holding Registers (R100). -/
def execFrameExcRhr (station code : Byte) (crc : Half) (s : State) : Result State :=
  .next (fillFrame (Instr.frameExcRhr station code crc).frameBytes s)

/-- Exception response to Write Single Register (R100). -/
def execFrameExcWsr (station code : Byte) (crc : Half) (s : State) : Result State :=
  .next (fillFrame (Instr.frameExcWsr station code crc).frameBytes s)

/-- Exception response to Write Multiple Registers (R100). -/
def execFrameExcWmr (station code : Byte) (crc : Half) (s : State) : Result State :=
  .next (fillFrame (Instr.frameExcWmr station code crc).frameBytes s)

end Sys2Proof.Machine
end

