-- ==== Sys2Proof/Machine/Framer.lean ====
section
/-! DEFINITION. The frame codec: BUILD, BUILD_EXC and PARSE (42_framer.md). -/

namespace Sys2Proof.Machine

/-- BUILD (R160): address, null data, capacity, then the frame of the payload `D[0..LEN)`. -/
def execBuild (dp : Bool) (s : State) : Result State :=
  let s := s.prologue
  let n := s.len.toNat
  if validAddr s.addr = false then finish .invalidAddress s
  else if 0 < n ∧ dp = false then finish .nullPointer s
  else if s.effCap < n + 4 then finish .invalidParam s
  else andThen (readPayload n s) fun p => finish .success (storeFrame (wireFrame s.addr s.func p) s)

/-- BUILD_EXC (R165): the exception response with code EXC; capacity is MAX_FRAME (D36). -/
def execBuildExc (s : State) : Result State :=
  let s := s.prologue
  if validAddr s.addr = false then finish .invalidAddress s
  else finish .success (storeFrame (wireFrame s.addr (s.func ||| Config.exceptionFlag) [s.exc]) s)

/-- PARSE (R170): deframe `F[0..LEN)`, then the payload into DATA if it fits. -/
def execParse (s : State) : Result State :=
  let s := s.parseStart
  andThen (deframe s.len.toNat s.addr s.func s) fun d =>
    onPayload d s fun p =>
      if s.effCap < p.length then finish .invalidParam s
      else finish .success { s.storeBytes .data 0 p with olen := BitVec.ofNat 9 p.length }

end Sys2Proof.Machine
end

