-- ==== Sys2Proof/Machine/Master.lean ====
section
/-! DEFINITION. The master side's payload codecs: the requests REQ_* and the response checks RSP_* (43_master_payload.md). -/

namespace Sys2Proof.Machine

/-- The count is in 1..limit (R190, R200, R205, R215). -/
def countWithin (limit : Nat) (s : State) : Bool :=
  decide (1 ≤ s.count.toNat) && decide (s.count.toNat ≤ limit)

/-- REQ_RHR (R190). -/
def execReqRhr (s : State) : Result State :=
  let s := s.requestStart
  if validAddr s.addr = false then finish .invalidAddress s
  else if countWithin Config.maxReadCount s = false then finish .invalidParam s
  else finish .success
    { storeFrame (wireFrame s.addr Config.fnReadHolding (beBytes s.regAddr ++ beBytes s.count)) s with
      rlen := BitVec.ofNat 9 (5 + 2 * s.count.toNat) }

/-- REQ_WSR (R195). -/
def execReqWsr (s : State) : Result State :=
  let s := s.requestStart
  if validAddr s.addr = false then finish .invalidAddress s
  else finish .success
    { storeFrame (wireFrame s.addr Config.fnWriteSingle (beBytes s.regAddr ++ beBytes s.value)) s with rlen := 8 }

/-- The payload of a Write Multiple Registers request (R200, R98). -/
def writeMultiplePayload (start count : Half) (vs : List Half) : List Byte :=
  beBytes start ++ beBytes count ++ [BitVec.ofNat 8 (2 * count.toNat)] ++ wireRegs vs

/-- REQ_WMR (R200): address, null data, count, then the frame of DATA's register values. -/
def execReqWmr (dp : Bool) (s : State) : Result State :=
  let s := s.requestStart
  if validAddr s.addr = false then finish .invalidAddress s
  else if dp = false then finish .nullPointer s
  else if countWithin Config.maxWriteCount s = false then finish .invalidParam s
  else andThen (readRegs s.count.toNat s) fun vs =>
    finish .success
      { storeFrame (wireFrame s.addr Config.fnWriteMultiple (writeMultiplePayload s.regAddr s.count vs)) s with
        rlen := 8 }

/-- RSP_RHR (R205): count, deframe, length, byte-count, then the values into DATA's register view. -/
def execRspRhr (s : State) : Result State :=
  let s := s.parseStart
  let n := s.count.toNat
  if countWithin Config.maxReadCount s = false then finish .invalidParam s
  else andThen (deframe s.len.toNat s.addr Config.fnReadHolding s) fun d =>
    onPayload d s fun p =>
      if p.length ≠ 1 + 2 * n then finish .invalidResponse s
      else if (p.getD 0 0).toNat ≠ 2 * n then finish .invalidResponse s
      else finish .success { storeRegs (beValues (p.drop 1)) s with olen := BitVec.ofNat 9 (2 * n) }

/-- RSP_WSR (R210): the payload must be the sent address and value. -/
def execRspWsr (s : State) : Result State :=
  let s := s.parseStart
  andThen (deframe s.len.toNat s.addr Config.fnWriteSingle s) fun d =>
    onPayload d s fun p =>
      if p ≠ beBytes s.regAddr ++ beBytes s.value then finish .invalidResponse s
      else finish .success s

/-- RSP_WMR (R215): count, deframe, then the payload must be the sent start address and count. -/
def execRspWmr (s : State) : Result State :=
  let s := s.parseStart
  if countWithin Config.maxWriteCount s = false then finish .invalidParam s
  else andThen (deframe s.len.toNat s.addr Config.fnWriteMultiple s) fun d =>
    onPayload d s fun p =>
      if p ≠ beBytes s.regAddr ++ beBytes s.count then finish .invalidResponse s
      else finish .success s

end Sys2Proof.Machine
end

