-- ==== Sys2Proof/Machine/Slave.lean ====
section
/-! DEFINITION. The slave request deframer: S_INIT, S_HDR, S_CNT and S_BODY (44_slave.md). -/

namespace Sys2Proof.Machine

/-- Write STATUS.SPHASE (R233, R236, R240). -/
def State.setPhase (p : Phase) (s : State) : State :=
  { s with status := { s.status with sphase := p } }

/-- S_INIT (R231): bind the local address, and abandon any cycle (D42). -/
def execSInit (s : State) : Result State :=
  let s := s.prologue
  if validAddr s.addr = false then finish .invalidAddress s
  else finish .success
    { s with
      localAddr := s.addr
      status := { s.status with init := true, sphase := .idle }
      need := 0 }

/-- S_HDR (R233): a new cycle starts; the two header bytes determine the frame length. -/
def execSHdr (s : State) : Result State :=
  let s := s.prologue
  if s.status.init = false then finish .notInitialized s
  else
    let s := { s.setPhase .idle with need := 0 }
    andThen (readByte s .frame 0) fun f0 =>
      if f0 ≠ s.localAddr then finish .invalidAddress s
      else andThen (readByte s .frame 1) fun f1 =>
        let s := { s with sfunc := f1 }
        if f1 = Config.fnReadHolding ∨ f1 = Config.fnWriteSingle then
          finish .success { s.setPhase .awaitBody with need := 8 }
        else if f1 = Config.fnWriteMultiple then
          finish .success { s.setPhase .awaitCount with need := 6 }
        else finish .invalidFunctionCode s

/-- S_CNT (R236): the register count fixes the total length. -/
def execSCnt (s : State) : Result State :=
  let s := s.prologue
  if s.status.init = false then finish .notInitialized s
  else if s.status.sphase ≠ .awaitCount then finish .invalidParam s
  else andThen (readField 4 s) fun n =>
    if Config.maxWriteCount < n.toNat then finish .invalidParam { s.setPhase .idle with need := 0 }
    else finish .success { s.setPhase .awaitBody with need := BitVec.ofNat 9 (9 + 2 * n.toNat) }

/-- The decoding of a request whose CRC is right, by the function byte latched in SFUNC (R240, D43). The count of a Write
Multiple Registers request is read again from F[4..6) as it is now (R311; log 8), and its values are read from F[7] on; where that
count reaches past F[255], they end in free values (log 7). Registers above 127 have no bytes in DATA, so no value is read for them
(log 21). OLEN takes the low 9 bits of 2N (R12, R20). -/
def decodeRequestBody (s : State) : Result State :=
  andThen (readField 2 s) fun a =>
    let s := { s with regAddr := a }
    if s.sfunc = Config.fnReadHolding then
      andThen (readField 4 s) fun n => finish .success { s with count := n, value := 0, bcount := 0 }
    else if s.sfunc = Config.fnWriteSingle then
      andThen (readField 4 s) fun v => finish .success { s with value := v, count := 0, bcount := 0 }
    else if s.sfunc = Config.fnWriteMultiple then
      andThen (readField 4 s) fun n =>
        andThen (readByte s .frame 6) fun bc =>
          andThen (readFields 7 (min n.toNat Config.dataRegisters) s) fun vs =>
            finish .success
              { storeRegs vs s with
                count := n, value := 0, bcount := bc, olen := BitVec.ofNat 9 (2 * n.toNat) }
    else finish .success s

/-- S_BODY (R240): the cycle ends, the CRC of `F[0..NEED)` is checked, and the request is decoded. The trailer's indices NEED - 2 and
NEED - 1 are counted in NEED's nine bits, so that those of a NEED below 2, which no run reaches, name no byte and find free
values (log 9). -/
def execSBody (s : State) : Result State :=
  let s := s.prologue
  if s.status.init = false then finish .notInitialized s
  else if s.status.sphase ≠ .awaitBody then finish .invalidParam s
  else
    let s := s.setPhase .idle
    andThen (readBytes s .frame 0 (s.need.toNat - 2)) fun body =>
      andThen (readByte s .frame (s.need - 2).toNat) fun lo =>
        andThen (readByte s .frame (s.need - 1).toNat) fun hi =>
          if crc16 body ≠ le16 lo hi then finish .crcError s
          else decodeRequestBody s

end Sys2Proof.Machine
end

