-- ==== Sys2Proof/Machine/Dispatch.lean ====
section
/-! DEFINITION. One arm for each instruction. DP and SRC go only to the commands that read them (10_state.md R21). -/

namespace Sys2Proof.Machine

def exec (i : Instr) (s : State) : Host.Outcome State Fault Refusal :=
  match i with
  | .crc16 dp src => Sys2Proof.Machine.execCrc16 dp src s
  | .build dp _ => Sys2Proof.Machine.execBuild dp s
  | .buildExc _ _ => Sys2Proof.Machine.execBuildExc s
  | .parse _ _ => Sys2Proof.Machine.execParse s
  | .reqRhr _ _ => Sys2Proof.Machine.execReqRhr s
  | .reqWsr _ _ => Sys2Proof.Machine.execReqWsr s
  | .reqWmr dp _ => Sys2Proof.Machine.execReqWmr dp s
  | .rspRhr _ _ => Sys2Proof.Machine.execRspRhr s
  | .rspWsr _ _ => Sys2Proof.Machine.execRspWsr s
  | .rspWmr _ _ => Sys2Proof.Machine.execRspWmr s
  | .sInit _ _ => Sys2Proof.Machine.execSInit s
  | .sHdr _ _ => Sys2Proof.Machine.execSHdr s
  | .sCnt _ _ => Sys2Proof.Machine.execSCnt s
  | .sBody _ _ => Sys2Proof.Machine.execSBody s
  | .frameRhrReq station start count crc => Sys2Proof.Machine.execFrameRhrReq station start count crc s
  | .frameRhrRsp station byteCount data crc => Sys2Proof.Machine.execFrameRhrRsp station byteCount data crc s
  | .frameWsrReq station register value crc => Sys2Proof.Machine.execFrameWsrReq station register value crc s
  | .frameWsrRsp station register value crc => Sys2Proof.Machine.execFrameWsrRsp station register value crc s
  | .frameWmrReq station start count byteCount data crc => Sys2Proof.Machine.execFrameWmrReq station start count byteCount data crc s
  | .frameWmrRsp station start count crc => Sys2Proof.Machine.execFrameWmrRsp station start count crc s
  | .frameExcRhr station code crc => Sys2Proof.Machine.execFrameExcRhr station code crc s
  | .frameExcWsr station code crc => Sys2Proof.Machine.execFrameExcWsr station code crc s
  | .frameExcWmr station code crc => Sys2Proof.Machine.execFrameExcWmr station code crc s

end Sys2Proof.Machine
end

