-- ==== Sys2Proof/Machine/Bus.lean ====
section
/-! DEFINITION. The host's side of the bus (20_memory.md): the register map, host reads and writes of the window, the CMD
write that runs a command (40_command_model.md R120), and one host action as one step of the block (00_scope.md R8). -/

namespace Sys2Proof.Machine

/-- The number of bytes of an access (R60). -/
def Width.bytes : Width → Nat
  | .byte => 1
  | .half => 2
  | .word => 4

/-- The 17 registers of R20. -/
inductive Reg where
  | cmd | status | addr | func | len | cap | olen | crc | exc | regAddr | count | value | rlen | localAddr | need | sfunc
  | bcount
deriving DecidableEq, Repr

/-- A register's offset in the window (R20). -/
def Reg.offset : Reg → Nat
  | .cmd => 0x000
  | .status => 0x004
  | .addr => 0x008
  | .func => 0x00C
  | .len => 0x010
  | .cap => 0x014
  | .olen => 0x018
  | .crc => 0x01C
  | .exc => 0x020
  | .regAddr => 0x024
  | .count => 0x028
  | .value => 0x02C
  | .rlen => 0x030
  | .localAddr => 0x034
  | .need => 0x038
  | .sfunc => 0x03C
  | .bcount => 0x040

/-- Every register, by rising offset (R20). -/
def Reg.all : List Reg :=
  [.cmd, .status, .addr, .func, .len, .cap, .olen, .crc, .exc, .regAddr, .count, .value, .rlen, .localAddr, .need, .sfunc,
    .bcount]

/-- The register at an offset; 0x044..0x0FF are reserved and name none (R20). -/
def regAt (off : Nat) : Option Reg := Reg.all.find? fun r => r.offset == off

/-- What a register reads as: its field, the bits above it 0 (R20, R22, R61); CMD reads 0 (R21, D44). -/
def State.readReg (s : State) : Reg → Word
  | .cmd => 0
  | .status => s.status.word
  | .addr => s.addr.zeroExtend 32
  | .func => s.func.zeroExtend 32
  | .len => s.len.zeroExtend 32
  | .cap => s.cap.zeroExtend 32
  | .olen => s.olen.zeroExtend 32
  | .crc => s.crc.zeroExtend 32
  | .exc => s.exc.zeroExtend 32
  | .regAddr => s.regAddr.zeroExtend 32
  | .count => s.count.zeroExtend 32
  | .value => s.value.zeroExtend 32
  | .rlen => s.rlen.zeroExtend 32
  | .localAddr => s.localAddr.zeroExtend 32
  | .need => s.need.zeroExtend 32
  | .sfunc => s.sfunc.zeroExtend 32
  | .bcount => s.bcount.zeroExtend 32

/-- A CMD write: the command the word decodes to, or, where it is not a command, NotImplemented (R83, R120). -/
def runCommand (w : Word) (s : State) : Result State :=
  match decode (.command w) with
  | .ok i => exec i s
  | .error _ => notACommand s

/-- A host write of a register: an RW field keeps the low bits of the value (R22, D35), a read-only register ignores the
write (R61, D35), and a CMD write runs a command (R61, R120). -/
def writeReg (r : Reg) (v : Word) (s : State) : Result State :=
  match r with
  | .cmd => runCommand v s
  | .addr => .next { s with addr := v.truncate 8 }
  | .func => .next { s with func := v.truncate 8 }
  | .len => .next { s with len := v.truncate 9 }
  | .cap => .next { s with cap := v.truncate 9 }
  | .exc => .next { s with exc := v.truncate 8 }
  | .regAddr => .next { s with regAddr := v.truncate 16 }
  | .count => .next { s with count := v.truncate 16 }
  | .value => .next { s with value := v.truncate 16 }
  | .status | .olen | .crc | .rlen | .localAddr | .need | .sfunc | .bcount => .next s

/-- What an offset of the window is (R60). -/
inductive Place where
  /-- Register space, 0x000..0x0FF. -/
  | register
  /-- Byte `i` of a buffer, 0x100..0x2FF. -/
  | buffer (b : Buffer) (i : Nat)
  /-- The reserved window, 0x300..0x3FF. -/
  | reserved
deriving DecidableEq, Repr

/-- The decoding of a window offset (R60). -/
def placeOf (off : Nat) : Place :=
  if off < Config.frameOffset then .register
  else if off < Config.dataOffset then .buffer .frame (off - Config.frameOffset)
  else if off < Config.reservedOffset then .buffer .data (off - Config.dataOffset)
  else .reserved

/-- The window offset of a bus address, `addr - BASE` with BASE = 0x400 * baseSlot; an address outside the window does not
reach the block (R60, D3; logs 1 and 10). -/
def State.windowOffset (s : State) (addr : Nat) : Option Nat :=
  if addr / Config.windowSize = s.baseSlot then some (addr % Config.windowSize) else none

/-- A host read of `n` bytes at a window offset (R61, R62, R63). Register space takes an aligned 32-bit access, and a reserved
offset reads 0 (D34); a buffer takes a naturally aligned access and gives the little-endian sum of its bytes. -/
def busRead (off : Nat) (n : Width) (s : State) : Result Word :=
  match placeOf off with
  | .register =>
    if n = .word ∧ off % 4 = 0 then
      match regAt off with
      | some r => .next (s.readReg r)
      | none => .next 0
    else .refused .registerAccess
  | .buffer b i =>
    if off % n.bytes = 0 then
      andThen (readBytes s b i n.bytes) fun bs => .next (BitVec.ofNat 32 (busValue bs))
    else .refused .misalignedAccess
  | .reserved => if off % n.bytes = 0 then .next 0 else .refused .misalignedAccess

/-- A host write of `n` bytes at a window offset (R61, R62, R63). A write to a reserved offset is ignored (D34); a buffer
write stores the value's low `n` bytes, byte 0 the least significant. -/
def busWrite (off : Nat) (n : Width) (v : Word) (s : State) : Result State :=
  match placeOf off with
  | .register =>
    if n = .word ∧ off % 4 = 0 then
      match regAt off with
      | some r => writeReg r v s
      | none => .next s
    else .refused .registerAccess
  | .buffer b i =>
    if off % n.bytes = 0 then .next (s.storeBytes b i (busBytes n.bytes v)) else .refused .misalignedAccess
  | .reserved => if off % n.bytes = 0 then .next s else .refused .misalignedAccess

/-- A wire frame arrives: a form of R101 runs as its instruction, and any other byte sequence is placed in FRAME all the
same, since the host may write any bytes there (R60, R63; log 4). -/
def receiveFrame (dir : Direction) (bytes : List Byte) (s : State) : Result State :=
  match decode (.frame dir bytes) with
  | .ok i => exec i s
  | .error _ => .next (fillFrame bytes s)

/-- After a platform reset the block's own state is that of R32 (R300); where it is mapped, what the host still has to do
and what it has read are not the block's (log 14). -/
def platformReset (s : State) : State :=
  { State.reset with baseSlot := s.baseSlot, pending := s.pending, replies := s.replies, performed := s.performed }

/-- One host action, performed whole (R66, R67). A read changes nothing in the block and gives the host a value (R66, log 3).
An access outside the window does not reach the block (R60, log 10). -/
def perform (a : HostAction) (s : State) : Result State :=
  match a with
  | .read addr n =>
    match s.windowOffset addr with
    | some off => andThen (busRead off n s) fun v => .next { s with replies := s.replies ++ [v] }
    | none => .next s
  | .write addr n v =>
    match s.windowOffset addr with
    | some off => busWrite off n v s
    | none => .next s
  | .frame dir bytes => receiveFrame dir bytes s
  | .reset => .next (platformReset s)

/-- The block performs the oldest pending action (R67). With none it does nothing: it never steps on its own (R8, R33). -/
def performNext (s : State) : Result State :=
  match s.pending with
  | [] => .next s
  | a :: rest => perform a { s with pending := rest, performed := s.performed + 1 }

/-- The host action that carries an instruction's code to the block: a 32-bit write of CMD at BASE + 0x000 (R61, R111), or
the arrival of a frame. -/
def State.actionOf (s : State) : Code → HostAction
  | .command w => .write (Config.windowSize * s.baseSlot + Reg.offset .cmd) .word w
  | .frame dir bytes => .frame dir bytes

end Sys2Proof.Machine
end

