-- ==== Sys2Proof/Machine/Step.lean ====
section
/-! DEFINITION. The step of the machine: the block performs one host access or one whole command (00_scope.md R8,
20_memory.md R66, R67). -/

namespace Sys2Proof.Machine

/-- One step: the oldest pending host action, or nothing when there is none (R8, R67; log 2). -/
def step : State → Host.Outcome State Fault Refusal := performNext

/-- The state whose very next step runs the instruction of an opcode-table word: its host action stands first among the
pending ones (log 2). -/
def State.withFetchWord (s : State) (nbits w : Nat) : State :=
  { s with pending := s.actionOf (tableCode nbits w) :: s.pending }

end Sys2Proof.Machine
end

