-- ==== Sys2Proof/Safety.lean ====
section
/-! DEFINITION. The terms the statements about the machine are written in: what the buffers hold, what a store leaves, how a
command ends, and the invariant of every run (44_slave.md R245; 10_state.md R23, R28; 30_encoding.md R86). They are written
on the fields of State, not on the operations the meanings are built from. -/

namespace Sys2Proof.Machine

/-! ## What the buffers hold -/

/-- Bytes `i..` of the buffer are written and hold exactly these bytes (R10, R28). -/
def State.Holds (s : State) (b : Buffer) (i : Nat) (bytes : List Byte) : Prop :=
  ∀ k, k < bytes.length → s.byteAt b (i + k) = bytes[k]?

/-- A command that reads on from index `i` finds exactly these bytes: those held, and free values at indices past the buffer's end
(R28; log 7). -/
def State.Finds (s : State) (b : Buffer) (i : Nat) (bytes : List Byte) : Prop :=
  ∀ k, k < bytes.length → s.foundAt b (i + k) = bytes[k]?

/-- One of the `n` bytes from index `i` on is unwritten (R28, R123). -/
def State.SomeUnwritten (s : State) (b : Buffer) (i n : Nat) : Prop :=
  ∃ k, k < n ∧ s.byteAt b (i + k) = none

/-- Memory `m'` is memory `m` with these bytes stored from offset `a` on: each of them reads back, and every other offset
reads as before. -/
def Stored (m m' : List Host.Cell) (a : Nat) (bytes : List Byte) : Prop :=
  (∀ k, k < bytes.length → Memory.read m' (a + k) = bytes[k]?) ∧
    ∀ x, (x < a ∨ a + bytes.length ≤ x) → Memory.read m' x = Memory.read m x

/-- Every offset reads the same in both memories. -/
def SameMemory (m m' : List Host.Cell) : Prop := ∀ x, Memory.read m' x = Memory.read m x

/-! ## How a command begins and ends -/

/-- The CMD words with this OP and these DP and SRC bits, reserved bits zero, are the instruction's (R80, R82). -/
def CommandWordIs (op : Nat) (dp src : Bool) (i : Instr) : Prop :=
  ∀ w : Word, w.toNat = op + 0x100 * dp.toNat + 0x200 * src.toNat → decode (.command w) = .ok i

/-- What a command leaves that ends with `c` and writes nothing but what every command writes: ISEXC = 0, EXCP = 0, OLEN = 0
(the prologue, R121) and STATUS.CODE = `c` (R13). -/
def State.ended (s : State) (c : Status) : State :=
  { s with status := { s.status with code := c, isExc := false, excp := false }, olen := 0 }

/-- The same with STATUS.SPHASE written too. -/
def State.endedIn (s : State) (c : Status) (p : Phase) : State :=
  { s with status := { s.status with code := c, isExc := false, excp := false, sphase := p }, olen := 0 }

/-- A station address is valid: 1..247 (R91). -/
def StationValid (a : Byte) : Prop := 1 ≤ a.toNat ∧ a.toNat ≤ 247

/-- The builders' success (R130): the frame is in FRAME from F[0] on and nothing else of memory changed; OLEN is its length,
CRC the CRC16 of all but its trailer, RLEN is `rlen`. -/
def BuildsFrame (r : Result State) (s : State) (a f : Byte) (p : List Byte) (rlen : Len) : Prop :=
  ∃ m, r = .next { s.ended .success with
      olen := BitVec.ofNat 9 (p.length + 4), crc := crc16 (a :: f :: p), rlen := rlen, mem := m } ∧
    Stored s.mem m 0x100 (a :: f :: p ++ leBytes (crc16 (a :: f :: p)))

/-- The frame `F[0..LEN)` has the expected station address, a right CRC, the function byte `f` and the payload `p` (R127). -/
def State.Received (s : State) (f : Byte) (p : List Byte) : Prop :=
  p.length + 4 = s.len.toNat ∧ s.len.toNat ≤ 256 ∧
    s.Holds .frame 0 (s.addr :: f :: p ++ leBytes (crc16 (s.addr :: f :: p)))

/-- What a command of the PARSE family leaves that ends with `c` before any payload is used: EXC = 0 too (R170, R270). -/
def State.endedParse (s : State) (c : Status) : State := { s.ended c with exc := 0 }

/-- Every end of the PARSE family that `Deframe` decides, in its order, `ef` being the expected function (R127, R129):
length above 256, length below 4, wrong address byte, a byte that is unwritten, wrong CRC, exception response (with a code
byte or without), wrong function byte. -/
def DeframeEnds (r : Result State) (s : State) (ef : Byte) : Prop :=
  (256 < s.len.toNat → r = .next (s.endedParse .invalidParam)) ∧
  (s.len.toNat < 4 → r = .next (s.endedParse .invalidResponse)) ∧
  (4 ≤ s.len.toNat → s.len.toNat ≤ 256 →
    (∀ f0, s.byteAt .frame 0 = some f0 → f0 ≠ s.addr → r = .next (s.endedParse .invalidResponse)) ∧
    (s.byteAt .frame 0 = none → r = .refused .unwrittenByte) ∧
    (s.byteAt .frame 0 = some s.addr → s.SomeUnwritten .frame 0 s.len.toNat → r = .refused .unwrittenByte) ∧
    (∀ body c, body.length + 2 = s.len.toNat → body.head? = some s.addr → s.Holds .frame 0 (body ++ leBytes c) →
      crc16 body ≠ c → r = .next (s.endedParse .crcError))) ∧
  (∀ p, s.Received (ef ||| 0x80#8) p → r = .next { s.endedParse .exception with
    status := { s.status with code := .exception, isExc := true, excp := !p.isEmpty }
    exc := p.headD 0 }) ∧
  (∀ f p, f ≠ ef ||| 0x80#8 → f ≠ ef → s.Received f p → r = .next (s.endedParse .invalidFunctionCode))

/-! ## What a command may write -/

/-- The fields of the block's registers (R20, R23), as names for the write sets of R122. -/
inductive Field where
  | code | isExc | excp | init | sphase
  | addr | func | len | cap | olen | crc | exc | regAddr | count | value | rlen | localAddr | need | sfunc | bcount
deriving DecidableEq, Repr

/-- The field holds the same value in both states. -/
def Field.Same (f : Field) (s t : State) : Prop :=
  match f with
  | .code => t.status.code = s.status.code
  | .isExc => t.status.isExc = s.status.isExc
  | .excp => t.status.excp = s.status.excp
  | .init => t.status.init = s.status.init
  | .sphase => t.status.sphase = s.status.sphase
  | .addr => t.addr = s.addr
  | .func => t.func = s.func
  | .len => t.len = s.len
  | .cap => t.cap = s.cap
  | .olen => t.olen = s.olen
  | .crc => t.crc = s.crc
  | .exc => t.exc = s.exc
  | .regAddr => t.regAddr = s.regAddr
  | .count => t.count = s.count
  | .value => t.value = s.value
  | .rlen => t.rlen = s.rlen
  | .localAddr => t.localAddr = s.localAddr
  | .need => t.need = s.need
  | .sfunc => t.sfunc = s.sfunc
  | .bcount => t.bcount = s.bcount

/-- The registers a command may write besides the prologue's and STATUS.CODE, row by row as R122 lists them; a wire frame that
arrives writes none. -/
def registersWritten : Instr → List Field
  | .crc16 _ _ => [.crc]
  | .build _ _ | .buildExc _ _ => [.crc, .olen]
  | .parse _ _ => [.exc, .isExc, .excp, .olen]
  | .reqRhr _ _ | .reqWsr _ _ | .reqWmr _ _ => [.rlen, .crc, .olen]
  | .rspRhr _ _ => [.exc, .isExc, .excp, .olen]
  | .rspWsr _ _ | .rspWmr _ _ => [.exc, .isExc, .excp]
  | .sInit _ _ => [.localAddr, .init, .sphase, .need]
  | .sHdr _ _ => [.sfunc, .sphase, .need]
  | .sCnt _ _ => [.sphase, .need]
  | .sBody _ _ => [.sphase, .regAddr, .count, .value, .bcount, .olen]
  | .frameRhrReq .. | .frameRhrRsp .. | .frameWsrReq .. | .frameWsrRsp .. => []
  | .frameWmrReq .. | .frameWmrRsp .. | .frameExcRhr .. | .frameExcWsr .. | .frameExcWmr .. => []

/-- The first offset and the number of the buffer bytes a command writes on Success, from the state it starts in, row by row
as R122 lists them: F[0..n) is at offset 0x100, D[0..n) at 0x200. S_BODY writes D[0..2N) for function 0x10 only, N being the
count field F[4..6) as it is when S_BODY runs (log 8), and never a byte past D[255] (log 21). -/
def bytesWritten (i : Instr) (s : State) : Nat × Nat :=
  match i with
  | .build _ _ => (0x100, s.len.toNat + 4)
  | .buildExc _ _ => (0x100, 5)
  | .reqRhr _ _ | .reqWsr _ _ => (0x100, 8)
  | .reqWmr _ _ => (0x100, 9 + 2 * s.count.toNat)
  | .parse _ _ => (0x200, s.len.toNat - 4)
  | .rspRhr _ _ => (0x200, 2 * s.count.toNat)
  | .sBody _ _ =>
    match s.byteAt .frame 4, s.byteAt .frame 5 with
    | some h, some l => (0x200, if s.sfunc = 0x10#8 then min 256 (2 * (256 * h.toNat + l.toNat)) else 0)
    | _, _ => (0x200, 0)
  | .crc16 _ _ | .rspWsr _ _ | .rspWmr _ _ | .sInit _ _ | .sHdr _ _ | .sCnt _ _ => (0x100, 0)
  | .frameRhrReq .. | .frameRhrRsp .. | .frameWsrReq .. | .frameWsrRsp .. => (0x100, i.frameBytes.length)
  | .frameWmrReq .. | .frameWmrRsp .. | .frameExcRhr .. | .frameExcWsr .. | .frameExcWmr .. => (0x100, i.frameBytes.length)

/-- The frame of an instruction that answers a next state: every register is the same but those the prologue and `finish`
write (ISEXC, EXCP, OLEN, CODE) and the instruction's own; memory is the same but for the bytes it writes on Success; the
model's own fields are the same. -/
structure FrameHolds (i : Instr) (s t : State) : Prop where
  registers : ∀ f : Field, f ∉ [.code, .isExc, .excp, .olen] → f ∉ registersWritten i → f.Same s t
  onFailure : t.status.code ≠ .success → SameMemory s.mem t.mem
  otherBytes : ∀ x, (x < (bytesWritten i s).1 ∨ (bytesWritten i s).1 + (bytesWritten i s).2 ≤ x) →
    Memory.read t.mem x = Memory.read s.mem x
  hostSide : t.baseSlot = s.baseSlot ∧ t.pending = s.pending ∧ t.replies = s.replies ∧ t.performed = s.performed

/-! ## What a command reads -/

/-- The bytes `Deframe` reads, from its first check on: none for a LEN outside 4..256; F[0]; and the rest of `F[0..LEN)` only
when F[0] is the expected address (R127, R123). -/
def State.deframeReads (s : State) (b : Buffer) (k : Nat) : Prop :=
  b = .frame ∧ 4 ≤ s.len.toNat ∧ s.len.toNat ≤ 256 ∧ k < s.len.toNat ∧ (0 < k → s.byteAt .frame 0 = some s.addr)

/-- The CRC that S_BODY checks is right: that of `F[0..NEED-2)` is in `F[NEED-2], F[NEED-1]` (R240), indices that name no byte
finding free values (log 9). -/
def State.BodyCrcRight (s : State) : Prop :=
  ∃ (body : List Byte) (lo hi : Byte), body.length = s.need.toNat - 2 ∧ s.Finds .frame 0 body ∧
    s.foundAt .frame (s.need - 2).toNat = some lo ∧ s.foundAt .frame (s.need - 1).toNat = some hi ∧ crc16 body = hi ++ lo

/-- The bytes S_BODY reads once in phase AWAIT_BODY: `F[0..NEED)`, and, when the CRC of those is right, the fields of the request
by the latched function byte; the values of a Write Multiple Registers request are those of the count F[4..6) as it then is
(R240; log 8). -/
def State.bodyReads (s : State) (b : Buffer) (k : Nat) : Prop :=
  b = .frame ∧
    (k < s.need.toNat ∨
      s.BodyCrcRight ∧
        (k = 2 ∨ k = 3 ∨ (s.sfunc ∈ [0x03#8, 0x06#8, 0x10#8] ∧ (k = 4 ∨ k = 5)) ∨
          (s.sfunc = 0x10#8 ∧ (k = 6 ∨ ∃ n : Half, s.Holds .frame 4 (beBytes n) ∧ 7 ≤ k ∧ k < 7 + 2 * n.toNat))))

/-- The buffer bytes a command reads on the path it takes from `s`: those its pseudocode reads after the checks that stand before
them have passed (R123). A command reads its bytes in order, so a byte counts as read here though one before it is
unwritten. -/
def readsOnPath (i : Instr) (s : State) (b : Buffer) (k : Nat) : Prop :=
  match i with
  | .crc16 dp src =>
    b = (if src then .frame else .data) ∧ (src = true ∨ dp = true) ∧ s.len.toNat ≤ 256 ∧ k < s.len.toNat
  | .build dp _ =>
    b = .data ∧ StationValid s.addr ∧ dp = true ∧ s.len.toNat + 4 ≤ min s.cap.toNat 256 ∧ k < s.len.toNat
  | .reqWmr dp _ =>
    b = .data ∧ StationValid s.addr ∧ dp = true ∧ 1 ≤ s.count.toNat ∧ s.count.toNat ≤ 123 ∧ k < 2 * s.count.toNat
  | .parse _ _ | .rspWsr _ _ => s.deframeReads b k
  | .rspRhr _ _ => 1 ≤ s.count.toNat ∧ s.count.toNat ≤ 125 ∧ s.deframeReads b k
  | .rspWmr _ _ => 1 ≤ s.count.toNat ∧ s.count.toNat ≤ 123 ∧ s.deframeReads b k
  | .sHdr _ _ => b = .frame ∧ s.status.init = true ∧ (k = 0 ∨ (k = 1 ∧ s.byteAt .frame 0 = some s.localAddr))
  | .sCnt _ _ => b = .frame ∧ s.status.init = true ∧ s.status.sphase = .awaitCount ∧ (k = 4 ∨ k = 5)
  | .sBody _ _ => s.status.init = true ∧ s.status.sphase = .awaitBody ∧ s.bodyReads b k
  | .buildExc _ _ | .reqRhr _ _ | .reqWsr _ _ | .sInit _ _ => False
  | .frameRhrReq .. | .frameRhrRsp .. | .frameWsrReq .. | .frameWsrRsp .. => False
  | .frameWmrReq .. | .frameWmrRsp .. | .frameExcRhr .. | .frameExcWsr .. | .frameExcWmr .. => False

/-- The statuses a command can end with: the Statuses line of its rule. -/
def statusesOf : Instr → List Status
  | .crc16 _ _ => [.success, .invalidParam]
  | .build _ _ => [.invalidAddress, .nullPointer, .invalidParam, .success]
  | .buildExc _ _ => [.invalidAddress, .success]
  | .parse _ _ => [.invalidParam, .invalidResponse, .crcError, .exception, .invalidFunctionCode, .success]
  | .reqRhr _ _ => [.invalidAddress, .invalidParam, .success]
  | .reqWsr _ _ => [.invalidAddress, .success]
  | .reqWmr _ _ => [.invalidAddress, .nullPointer, .invalidParam, .success]
  | .rspRhr _ _ | .rspWmr _ _ => [.invalidParam, .invalidResponse, .crcError, .exception, .invalidFunctionCode, .success]
  | .rspWsr _ _ => [.invalidParam, .invalidResponse, .crcError, .exception, .invalidFunctionCode, .success]
  | .sInit _ _ => [.invalidAddress, .success]
  | .sHdr _ _ => [.notInitialized, .invalidAddress, .success, .invalidFunctionCode]
  | .sCnt _ _ => [.notInitialized, .invalidParam, .success]
  | .sBody _ _ => [.notInitialized, .invalidParam, .crcError, .success]
  | .frameRhrReq .. | .frameRhrRsp .. | .frameWsrReq .. | .frameWsrRsp .. => []
  | .frameWmrReq .. | .frameWmrRsp .. | .frameExcRhr .. | .frameExcWsr .. | .frameExcWmr .. => []

/-! ## The invariant of every run -/

/-- Every listed offset is a buffer byte's, 0x100..0x2FF (R26, R27). -/
def Memory.inBuffers (m : List Host.Cell) : Prop := ∀ c ∈ m, 0x100 ≤ c.1 ∧ c.1 < 0x300

/-- The slave cycle invariant (R245), and that INIT comes with a valid bound address (R29, R231). The count that R245
mentions is not kept by the block, so it appears here as some N ≤ 123. -/
structure CycleInv (s : State) : Prop where
  awaitCount : s.status.sphase = .awaitCount → s.sfunc = 0x10#8 ∧ s.need.toNat = 6
  awaitBody : s.status.sphase = .awaitBody →
    ((s.sfunc = 0x03#8 ∨ s.sfunc = 0x06#8) ∧ s.need.toNat = 8) ∨
      (s.sfunc = 0x10#8 ∧ ∃ n, n ≤ 123 ∧ s.need.toNat = 9 + 2 * n)
  configured : s.status.sphase ≠ .idle → s.status.init = true
  boundValid : s.status.init = true → StationValid s.localAddr

/-- The flags agree with the code (R23, R129), and the codes that only the host software uses never stand (R86). -/
structure StatusInv (s : State) : Prop where
  excFlag : s.status.isExc = true ↔ s.status.code = .exception
  codePresent : s.status.excp = true → s.status.isExc = true
  neverInstance : s.status.code ≠ .invalidInstance
  neverTimeout : s.status.code ≠ .timeout

/-- The invariant of every run: memory in canonical form and inside the buffers, the slave cycle, the status, and RLEN within a
frame (R26, R245, R23, R102). OLEN has its own statement, OutputLengthFitsAFrame: a count rewritten after S_CNT gives an OLEN above 256
(R240, R311). -/
structure Inv (s : State) : Prop where
  memWf : Memory.wf s.mem = true
  memInBuffers : Memory.inBuffers s.mem
  cycle : CycleInv s
  status : StatusInv s
  rlenBound : s.rlen.toNat ≤ 255

/-- The bytes that have been written stay written (R28): a step may change a byte's value, never take it away. -/
def KeepsWritten (s t : State) : Prop :=
  ∀ x, Memory.read s.mem x ≠ none → Memory.read t.mem x ≠ none

end Sys2Proof.Machine
end

