-- ==== Sys2Proof/Certificates/Slice0/Obligations.lean ====
section
/-! DEFINITION. The statements for the provers. They are written over the fields of State and the terms of Safety.lean; each
docstring names the rule of spec/ it formalises, or the log entry it rests on. -/

open Sys2Proof Sys2Proof.Machine

/-! ## Encoding -/

/-- Words written out from the encodings of R80, R81, R111 and R94 to R100 decode to what they stand for. -/
def Obligations.ListedWordsDecode : Prop :=
  decode (.command 0x00000101#32) = .ok (.crc16 true false) ∧
  decode (.command 0x00000201#32) = .ok (.crc16 false true) ∧
  decode (.command 0x00000102#32) = .ok (.build true false) ∧
  decode (.command 0x00000303#32) = .ok (.buildExc true true) ∧
  decode (.command 0x00000004#32) = .ok (.parse false false) ∧
  decode (.command 0x00000112#32) = .ok (.reqWmr true false) ∧
  decode (.command 0x00000015#32) = .ok (.rspWmr false false) ∧
  decode (.command 0x00000023#32) = .ok (.sBody false false) ∧
  decode (.command 0x00000401#32) = .error .reservedBits ∧
  decode (.command 0x00000005#32) = .error .unassignedOp ∧
  decode (.frame .request [0x01, 0x03, 0x00, 0x00, 0x00, 0x0A, 0xC5, 0xCD]) = .ok (.frameRhrReq 0x01 0x0000 0x000A 0xCDC5) ∧
  decode (.frame .response [0x01, 0x83, 0x02, 0xC0, 0xF1]) = .ok (.frameExcRhr 0x01 0x02 0xF1C0) ∧
  decode (.frame .request [0x05, 0x0A, 0x00, 0x00, 0x00, 0x0A, 0x00, 0x00]) = .error .unsupportedFunction

/-- Decoding a CMD word and encoding a command are inverse, both ways: a word decodes to `i` exactly when `i` is a command and
the word is its encoding. So no two commands share a word, and DP and SRC are always read back (R82). -/
def Obligations.CommandWordsDecodeExactly : Prop :=
  ∀ (w : Word) (i : Instr), decode (.command w) = .ok i ↔ i.isCommand = true ∧ encode i = .command w

/-- R83: a CMD word with a reserved bit set, or with an OP outside the table of R81, is not a command, and writing it does the
prologue and NotImplemented and nothing else. Every other word is a command. -/
def Obligations.OtherWordsAreNotCommands : Prop :=
  ∀ (w : Word) (s : State),
    let listed := [0x01, 0x02, 0x03, 0x04, 0x10, 0x11, 0x12, 0x13, 0x14, 0x15, 0x20, 0x21, 0x22, 0x23]
    ((1024 ≤ w.toNat ∨ w.toNat % 256 ∉ listed) → busWrite 0x000 .word w s = .next (s.ended .notImplemented)) ∧
    (w.toNat < 1024 → w.toNat % 256 ∈ listed → ∃ i, decode (.command w) = .ok i ∧ i.isCommand = true)

/-- Decode and encode agree on every instruction whose fields fit its encoding, with every operand at every value it admits;
in particular on every well-formed one. -/
def Obligations.DecodeEncodeAgree : Prop :=
  ∀ i : Instr, i.shaped = true → decode (encode i) = .ok i

/-- Each wire frame that decodes is the encoding of what it decodes to, and that instruction's fields fit: no byte of a frame
is dropped or read twice (R94 to R102). -/
def Obligations.FrameBytesDecodeExactly : Prop :=
  ∀ (d : Direction) (bytes : List Byte) (i : Instr),
    decode (.frame d bytes) = .ok i → encode i = .frame d bytes ∧ i.shaped = true

/-- The DP and SRC bits are ignored by every command that R21 does not list as reading them (R21, R82). -/
def Obligations.FreeBitsAreIgnored : Prop :=
  ∀ (dp src dp' src' : Bool) (s : State),
    exec (.build dp src) s = exec (.build dp src') s ∧
    exec (.reqWmr dp src) s = exec (.reqWmr dp src') s ∧
    exec (.crc16 dp true) s = exec (.crc16 dp' true) s ∧
    exec (.buildExc dp src) s = exec (.buildExc dp' src') s ∧
    exec (.parse dp src) s = exec (.parse dp' src') s ∧
    exec (.reqRhr dp src) s = exec (.reqRhr dp' src') s ∧
    exec (.reqWsr dp src) s = exec (.reqWsr dp' src') s ∧
    exec (.rspRhr dp src) s = exec (.rspRhr dp' src') s ∧
    exec (.rspWsr dp src) s = exec (.rspWsr dp' src') s ∧
    exec (.rspWmr dp src) s = exec (.rspWmr dp' src') s ∧
    exec (.sInit dp src) s = exec (.sInit dp' src') s ∧
    exec (.sHdr dp src) s = exec (.sHdr dp' src') s ∧
    exec (.sCnt dp src) s = exec (.sCnt dp' src') s ∧
    exec (.sBody dp src) s = exec (.sBody dp' src') s

/-! ## Reset -/

/-- R32: after reset every register reads 0, STATUS's fields are those of 0, and every buffer byte is unwritten. -/
def Obligations.ResetLeavesZero : Prop :=
  (∀ r : Reg, State.reset.readReg r = 0) ∧
  State.reset.status = { code := .success, isExc := false, excp := false, init := false, sphase := .idle } ∧
  ∀ (b : Buffer) (i : Nat), State.reset.byteAt b i = none

/-- A platform reset brings the block to the state of R32 from every state, wherever the block is mapped and whatever the host
still does; and without a host action the block does nothing (R300, R33, R8). The host's side of a reset is the model's
choice (log 14), and so are the idle step (log 2) and the counter of performed actions (log 20). -/
def Obligations.PlatformResetAndIdle : Prop :=
  (∀ (s : State) (rest : List HostAction), s.pending = .reset :: rest →
    step s = .next { State.reset with
      baseSlot := s.baseSlot, pending := rest, replies := s.replies, performed := s.performed + 1 }) ∧
  ∀ s : State, s.pending = [] → step s = .next s

/-! ## Host accesses -/

/-- R22: a host write of an RW register keeps the field's low bits of the value, the bits above read 0, and no other register
and no memory changes. -/
def Obligations.OperandWriteKeepsFieldWidth : Prop :=
  ∀ (r : Reg) (k : Nat) (v : Word) (s : State),
    (r, k) ∈ [(Reg.addr, 8), (.func, 8), (.len, 9), (.cap, 9), (.exc, 8), (.regAddr, 16), (.count, 16), (.value, 16)] →
    ∃ t, busWrite r.offset .word v s = .next t ∧ (t.readReg r).toNat = v.toNat % 2 ^ k ∧
      (∀ q : Reg, q ≠ r → t.readReg q = s.readReg q) ∧ t.mem = s.mem ∧
      t.baseSlot = s.baseSlot ∧ t.pending = s.pending ∧ t.replies = s.replies ∧ t.performed = s.performed

/-- The register map of R20: what a 32-bit read of each offset of register space gives. -/
def Obligations.RegisterMapReads : Prop :=
  ∀ s : State,
    busRead 0x000 .word s = .next 0 ∧
    busRead 0x008 .word s = .next (s.addr.zeroExtend 32) ∧
    busRead 0x00C .word s = .next (s.func.zeroExtend 32) ∧
    busRead 0x010 .word s = .next (s.len.zeroExtend 32) ∧
    busRead 0x014 .word s = .next (s.cap.zeroExtend 32) ∧
    busRead 0x018 .word s = .next (s.olen.zeroExtend 32) ∧
    busRead 0x01C .word s = .next (s.crc.zeroExtend 32) ∧
    busRead 0x020 .word s = .next (s.exc.zeroExtend 32) ∧
    busRead 0x024 .word s = .next (s.regAddr.zeroExtend 32) ∧
    busRead 0x028 .word s = .next (s.count.zeroExtend 32) ∧
    busRead 0x02C .word s = .next (s.value.zeroExtend 32) ∧
    busRead 0x030 .word s = .next (s.rlen.zeroExtend 32) ∧
    busRead 0x034 .word s = .next (s.localAddr.zeroExtend 32) ∧
    busRead 0x038 .word s = .next (s.need.zeroExtend 32) ∧
    busRead 0x03C .word s = .next (s.sfunc.zeroExtend 32) ∧
    busRead 0x040 .word s = .next (s.bcount.zeroExtend 32) ∧
    ∀ off, 0x044 ≤ off → off < 0x100 → off % 4 = 0 → busRead off .word s = .next 0

/-- The layout of STATUS (R23) with the code numbers of R86 and the phase numbers of R23: a read of offset 0x004 gives CODE in
[7:0], ISEXC in [8], EXCP in [9], INIT in [10], SPHASE in [13:12], and every other bit 0. -/
def Obligations.StatusWordLayout : Prop :=
  ∀ s : State, ∃ w : Word, busRead 0x004 .word s = .next w ∧ ∃ code phase : Nat,
    (s.status.code, code) ∈ [(Status.success, 0), (.notImplemented, 1), (.nullPointer, 2), (.invalidParam, 3),
      (.invalidInstance, 4), (.notInitialized, 5), (.timeout, 6), (.crcError, 7), (.invalidResponse, 8),
      (.invalidAddress, 9), (.invalidFunctionCode, 10), (.exception, 11)] ∧
    (s.status.sphase, phase) ∈ [(Phase.idle, 0), (.awaitCount, 1), (.awaitBody, 2)] ∧
    w.toNat = code + 0x100 * s.status.isExc.toNat + 0x200 * s.status.excp.toNat + 0x400 * s.status.init.toNat + 0x1000 * phase

/-- R61: register space takes aligned 32-bit accesses only and refuses any other; a read gives the register, reserved offsets
read 0; a write to a read-only register or a reserved offset is ignored, and a write to CMD runs a command. (What a write
to an RW register stores is OperandWriteKeepsFieldWidth.) -/
def Obligations.RegisterSpaceAccess : Prop :=
  ∀ (off : Nat) (n : Width) (v : Word) (s : State), off < 0x100 →
    (¬ (n = .word ∧ off % 4 = 0) →
      busRead off n s = .refused .registerAccess ∧ busWrite off n v s = .refused .registerAccess) ∧
    (n = .word → off % 4 = 0 →
      (∀ r : Reg, r.offset = off → busRead off n s = .next (s.readReg r)) ∧
      (off ∈ [0x004, 0x018, 0x01C, 0x030, 0x034, 0x038, 0x03C, 0x040] → busWrite off n v s = .next s) ∧
      (0x044 ≤ off → busRead off n s = .next 0 ∧ busWrite off n v s = .next s) ∧
      (off = 0x000 → ∀ i, decode (.command v) = .ok i → busWrite off n v s = exec i s))

/-- R62 and R63: the buffers take naturally aligned accesses of 1, 2 or 4 bytes and refuse any other; a write stores the value's
bytes, the least significant first, and a read gives their little-endian sum, or is refused for an unwritten byte; the
window 0x300..0x3FF reads 0 and ignores writes, with the same alignment. -/
def Obligations.BufferAccessIsLittleEndian : Prop :=
  ∀ (b : Buffer) (i : Nat) (n : Width) (k : Nat) (v : Word) (s : State),
    (n, k) ∈ [(Width.byte, 1), (.half, 2), (.word, 4)] → i < 256 →
    let off := (match b with | .frame => 0x100 | .data => 0x200) + i
    (i % k ≠ 0 → busRead off n s = .refused .misalignedAccess ∧ busWrite off n v s = .refused .misalignedAccess) ∧
    (i % k = 0 →
      (∃ m, busWrite off n v s = .next { s with mem := m } ∧
        Stored s.mem m off ((List.range k).map fun j => BitVec.ofNat 8 (v.toNat / 256 ^ j))) ∧
      (∀ bytes : List Byte, bytes.length = k → s.Holds b i bytes →
        busRead off n s = .next (BitVec.ofNat 32 (bytes.zipIdx.map fun p => p.1.toNat * 256 ^ p.2).sum)) ∧
      (s.SomeUnwritten b i k → busRead off n s = .refused .unwrittenByte)) ∧
    (i % k ≠ 0 →
      busRead (0x300 + i) n s = .refused .misalignedAccess ∧ busWrite (0x300 + i) n v s = .refused .misalignedAccess) ∧
    (i % k = 0 → busRead (0x300 + i) n s = .next 0 ∧ busWrite (0x300 + i) n v s = .next s)

/-- Mixed widths (R65): four byte writes read back as one 32-bit word, little-endian, and one 32-bit write reads back as its
four bytes. -/
def Obligations.MixedWidthsAgree : Prop :=
  ∀ (b : Buffer) (i : Nat) (b0 b1 b2 b3 : Byte) (s : State), i < 256 → i % 4 = 0 →
    let off := b.base + i
    let w : Word := b3 ++ (b2 ++ (b1 ++ b0))
    (∃ t, andThen (busWrite off .byte (b0.zeroExtend 32) s) (fun s =>
        andThen (busWrite (off + 1) .byte (b1.zeroExtend 32) s) fun s =>
        andThen (busWrite (off + 2) .byte (b2.zeroExtend 32) s) fun s =>
        busWrite (off + 3) .byte (b3.zeroExtend 32) s) = .next t ∧
      busRead off .word t = .next w) ∧
    ∃ t, busWrite off .word w s = .next t ∧
      busRead off .byte t = .next (b0.zeroExtend 32) ∧ busRead (off + 1) .byte t = .next (b1.zeroExtend 32) ∧
      busRead (off + 2) .byte t = .next (b2.zeroExtend 32) ∧ busRead (off + 3) .byte t = .next (b3.zeroExtend 32)

/-- Reads have no side effects, and no write but one of CMD touches STATUS, a result register or the slave configuration (R66,
R25): a host read leaves the whole block as it was, and a write elsewhere leaves those registers. (The kept replies, BASE as
0x400 times the slot and the counter of performed actions are the model's representation, logs 3, 1 and 20.) -/
def Obligations.OnlyCmdWritesRunCommands : Prop :=
  ∀ (s t : State) (addr : Nat) (n : Width) (rest : List HostAction),
    (s.pending = .read addr n :: rest → step s = .next t →
      ∃ rs, t = { s with pending := rest, replies := rs, performed := s.performed + 1 }) ∧
    (∀ v, s.pending = .write addr n v :: rest → addr ≠ 0x400 * s.baseSlot → step s = .next t →
      t.status = s.status ∧ t.olen = s.olen ∧ t.crc = s.crc ∧ t.rlen = s.rlen ∧ t.localAddr = s.localAddr ∧
      t.need = s.need ∧ t.sfunc = s.sfunc ∧ t.bcount = s.bcount ∧ t.replies = s.replies)

/-- R60: an access at BASE + off reaches offset off, and an access outside the window does not reach the block. Four things are
the model's: that BASE is written as 0x400 times the field baseSlot (log 1), that a read's value is appended to the replies
(log 3), that an access outside the window leaves the host no value (log 10), and the counter of performed actions (log 20). -/
def Obligations.WindowIsAtBase : Prop :=
  ∀ (s : State) (addr : Nat) (n : Width) (v : Word) (rest : List HostAction),
    let s' := { s with pending := rest, performed := s.performed + 1 }
    (∀ off, off < 0x400 → addr = 0x400 * s.baseSlot + off →
      (s.pending = .write addr n v :: rest → step s = busWrite off n v s') ∧
      (s.pending = .read addr n :: rest →
        (∀ x, busRead off n s = .next x → step s = .next { s' with replies := s.replies ++ [x] }) ∧
        ∀ q, busRead off n s = .refused q → step s = .refused q)) ∧
    ((addr < 0x400 * s.baseSlot ∨ 0x400 * s.baseSlot + 0x400 ≤ addr) →
      (s.pending = .write addr n v :: rest → step s = .next s') ∧ (s.pending = .read addr n :: rest → step s = .next s'))

/-! ## The step -/

/-- A step runs the decoded instruction: when the oldest host action is a 32-bit write to BASE + 0 of a word that decodes to
`i`, the step is `exec i` with that action gone (R120); so is the arrival of a wire frame that decodes to `i` (log 4). BASE is
0x400 times the slot, the model's representation (log 1), and so is the counter of performed actions (log 20). -/
def Obligations.StepRunsDecodedInstruction : Prop :=
  ∀ (s : State) (i : Instr) (rest : List HostAction),
    (∀ w, s.pending = .write (0x400 * s.baseSlot) .word w :: rest → decode (.command w) = .ok i →
      step s = exec i { s with pending := rest, performed := s.performed + 1 }) ∧
    ∀ d bytes, s.pending = .frame d bytes :: rest → decode (.frame d bytes) = .ok i →
      step s = exec i { s with pending := rest, performed := s.performed + 1 }

/-- A byte sequence of at most 256 bytes that is no form of R101 is placed in FRAME all the same, and nothing else changes: the
host may write any bytes there (R60, R63; log 4, and log 20 for the counter of performed actions). -/
def Obligations.AnyBytesMayArrive : Prop :=
  ∀ (s : State) (d : Direction) (bytes : List Byte) (e : Reject) (rest : List HostAction),
    s.pending = .frame d bytes :: rest → decode (.frame d bytes) = .error e → bytes.length ≤ 256 →
    ∃ m, step s = .next { s with pending := rest, mem := m, performed := s.performed + 1 } ∧ Stored s.mem m 0x100 bytes

/-- The host's actions are performed one at a time in the order they are issued (R67): a step consumes exactly the oldest, no
command adds or drops one, and neither the block's place nor what the host has read before changes. The queue, the replies and
the slot are the model's (logs 1 to 3). -/
def Obligations.ActionsRunInOrder : Prop :=
  ∀ (s t : State) (a : HostAction) (rest : List HostAction), s.pending = a :: rest → step s = .next t →
    t.pending = rest ∧ t.baseSlot = s.baseSlot ∧ s.replies <+: t.replies ∧ t.performed = s.performed + 1

/-! ## CRC16 -/

/-- R140, on natural numbers: the CRC of a non-empty sequence is the bit-serial procedure from 0xFFFF, XORing each byte into the
register and then 8 times halving it, with an XOR of 0xA001 when the bit shifted out is 1; the empty sequence gives 0. The
spec takes the bit order from general knowledge (log 12). -/
def Obligations.CrcIsTheBitSerialProcedure : Prop :=
  crc16 [] = 0x0000#16 ∧
  ∀ bytes : List Byte, bytes ≠ [] →
    (crc16 bytes).toNat =
      bytes.foldl (fun c b => (fun x => if x % 2 = 1 then (x / 2) ^^^ 0xA001 else x / 2)^[8] (c ^^^ b.toNat)) 0xFFFF

/-- R141 with R142: the table's entry `i` is 8 bit updates of `i`, one lookup makes the update of one byte, and the table-driven
form gives CRC16 for every sequence. -/
def Obligations.TableFormEqualsBitSerial : Prop :=
  crcTable.length = 256 ∧
  (∀ i, i < 256 → crcTable[i]? = some (crcBits 8 (BitVec.ofNat 16 i))) ∧
  (∀ (c : Half) (b : Byte),
    crcByte c b = (c >>> 8) ^^^ crcTable.getD ((c ^^^ b.zeroExtend 16) &&& 0x00FF#16).toNat 0x0000#16) ∧
  ∀ bytes : List Byte, crc16Table bytes = crc16 bytes

/-- The check values of R146 and the sentinel of R144. -/
def Obligations.CrcCheckValues : Prop :=
  crc16 [0x01, 0x03, 0x00, 0x00, 0x00, 0x0A] = 0xCDC5#16 ∧
  crc16 [0x31, 0x32, 0x33, 0x34, 0x35, 0x36, 0x37, 0x38, 0x39] = 0x4B37#16 ∧
  crc16 [] = 0x0000#16

/-- R145 property 2: the CRC of a non-empty message followed by its own CRC, low byte first, is 0. -/
def Obligations.CrcResidueIsZero : Prop :=
  ∀ m : List Byte, m ≠ [] → crc16 (m ++ [lo8 (crc16 m), hi8 (crc16 m)]) = 0x0000#16

/-- R145 property 1, first part: for sequences of equal length, the XOR of the two CRCs depends only on the bytewise XOR of the
sequences. -/
def Obligations.CrcDifferenceDependsOnXorOnly : Prop :=
  ∀ s t s' t' : List Byte, s.length = t.length → s'.length = t'.length →
    List.zipWith (· ^^^ ·) s t = List.zipWith (· ^^^ ·) s' t' →
    crc16 s ^^^ crc16 t = crc16 s' ^^^ crc16 t'

/-- R128 with R145: flip any one bit of a valid frame of at most 256 bytes and PARSE reports InvalidResponse when the bit is in
the address byte and CrcError everywhere else, the exception flag and the trailer included. -/
def Obligations.SingleBitFlipIsDetected : Prop :=
  ∀ (dp src : Bool) (s : State) (f : Byte) (p : List Byte) (k j : Nat),
    p.length + 4 = s.len.toNat → s.len.toNat ≤ 256 → k < p.length + 4 → j < 8 →
    let fr := s.addr :: f :: p ++ leBytes (crc16 (s.addr :: f :: p))
    s.Holds .frame 0 (fr.set k (fr.getD k 0 ^^^ BitVec.twoPow 8 j)) →
    exec (.parse dp src) s = .next (s.endedParse (if k = 0 then .invalidResponse else .crcError))

/-- R150, the CRC16 command: the sentinel for absent or empty input, then the 256 bound, then the CRC of the selected buffer's
first LEN bytes; an unwritten byte among them is refused. -/
def Obligations.Crc16CommandRule : Prop :=
  ∀ (dp src : Bool) (s : State),
    let b : Buffer := if src then .frame else .data
    let absent := src = false ∧ dp = false
    CommandWordIs 0x01 dp src (.crc16 dp src) ∧
    ((absent ∨ s.len.toNat = 0) → exec (.crc16 dp src) s = .next { s.ended .success with crc := 0 }) ∧
    (¬ absent → 256 < s.len.toNat → exec (.crc16 dp src) s = .next { s.ended .invalidParam with crc := 0 }) ∧
    (¬ absent → 0 < s.len.toNat → s.len.toNat ≤ 256 →
      (∀ bytes, bytes.length = s.len.toNat → s.Holds b 0 bytes →
        exec (.crc16 dp src) s = .next { s.ended .success with crc := crc16 bytes }) ∧
      (s.SomeUnwritten b 0 s.len.toNat → exec (.crc16 dp src) s = .refused .unwrittenByte))

/-! ## Frame codec -/

/-- R160, BUILD: the checks of address, null data and capacity in this order, each leaving only the prologue's writes and the
status; then the frame of the payload `D[0..LEN)`. -/
def Obligations.BuildRule : Prop :=
  ∀ (dp src : Bool) (s : State),
    CommandWordIs 0x02 dp src (.build dp src) ∧
    (¬ StationValid s.addr → exec (.build dp src) s = .next (s.ended .invalidAddress)) ∧
    (StationValid s.addr → 0 < s.len.toNat → dp = false → exec (.build dp src) s = .next (s.ended .nullPointer)) ∧
    (StationValid s.addr → (s.len.toNat = 0 ∨ dp = true) → min s.cap.toNat 256 < s.len.toNat + 4 →
      exec (.build dp src) s = .next (s.ended .invalidParam)) ∧
    (StationValid s.addr → (s.len.toNat = 0 ∨ dp = true) → s.len.toNat + 4 ≤ min s.cap.toNat 256 →
      (∀ p, p.length = s.len.toNat → s.Holds .data 0 p → BuildsFrame (exec (.build dp src) s) s s.addr s.func p s.rlen) ∧
      (s.SomeUnwritten .data 0 s.len.toNat → exec (.build dp src) s = .refused .unwrittenByte))

/-- R165, BUILD_EXC: the address check, then the exception response with code EXC, the function byte's high bit set. -/
def Obligations.BuildExcRule : Prop :=
  ∀ (dp src : Bool) (s : State),
    CommandWordIs 0x03 dp src (.buildExc dp src) ∧
    (¬ StationValid s.addr → exec (.buildExc dp src) s = .next (s.ended .invalidAddress)) ∧
    (StationValid s.addr → BuildsFrame (exec (.buildExc dp src) s) s s.addr (s.func ||| 0x80#8) [s.exc] s.rlen)

/-- R170 with R127 and R129, PARSE: every end that Deframe decides, then the payload's capacity check, then the payload in DATA. -/
def Obligations.ParseRule : Prop :=
  ∀ (dp src : Bool) (s : State),
    CommandWordIs 0x04 dp src (.parse dp src) ∧
    DeframeEnds (exec (.parse dp src) s) s s.func ∧
    ∀ p, s.func.toNat < 0x80 → s.Received s.func p →
      (min s.cap.toNat 256 < p.length → exec (.parse dp src) s = .next (s.endedParse .invalidParam)) ∧
      (p.length ≤ min s.cap.toNat 256 → ∃ m,
        exec (.parse dp src) s = .next { s.endedParse .success with olen := BitVec.ofNat 9 p.length, mem := m } ∧
        Stored s.mem m 0x200 p)

/-- R171: PARSE after BUILD, with the same ADDR and FUNC, LEN = OLEN, CAP at least the payload's length and FRAME unchanged,
gives the payload back; with a function of 0x80 or above it gives Exception instead. -/
def Obligations.BuildThenParseGivesPayload : Prop :=
  ∀ (dp src dp' src' : Bool) (s t u : State) (p : List Byte),
    exec (.build dp src) s = .next t → t.status.code = .success → p.length = s.len.toNat → s.Holds .data 0 p →
    u.len = t.olen → u.addr = s.addr → u.func = s.func → p.length ≤ u.cap.toNat →
    (∀ i, u.byteAt .frame i = t.byteAt .frame i) →
    ∃ v, exec (.parse dp' src') u = .next v ∧
      (s.func.toNat < 0x80 → v.status.code = .success ∧ v.Holds .data 0 p ∧ v.olen.toNat = p.length) ∧
      (0x80 ≤ s.func.toNat → v.status.code = .exception)

/-! ## Master side -/

/-- R190, REQ_RHR. -/
def Obligations.ReqRhrRule : Prop :=
  ∀ (dp src : Bool) (s : State),
    CommandWordIs 0x10 dp src (.reqRhr dp src) ∧
    (¬ StationValid s.addr → exec (.reqRhr dp src) s = .next { s.ended .invalidAddress with rlen := 0 }) ∧
    (StationValid s.addr → (s.count.toNat < 1 ∨ 125 < s.count.toNat) →
      exec (.reqRhr dp src) s = .next { s.ended .invalidParam with rlen := 0 }) ∧
    (StationValid s.addr → 1 ≤ s.count.toNat → s.count.toNat ≤ 125 →
      BuildsFrame (exec (.reqRhr dp src) s) s s.addr 0x03#8 (beBytes s.regAddr ++ beBytes s.count)
        (BitVec.ofNat 9 (5 + 2 * s.count.toNat)))

/-- R195, REQ_WSR. -/
def Obligations.ReqWsrRule : Prop :=
  ∀ (dp src : Bool) (s : State),
    CommandWordIs 0x11 dp src (.reqWsr dp src) ∧
    (¬ StationValid s.addr → exec (.reqWsr dp src) s = .next { s.ended .invalidAddress with rlen := 0 }) ∧
    (StationValid s.addr →
      BuildsFrame (exec (.reqWsr dp src) s) s s.addr 0x06#8 (beBytes s.regAddr ++ beBytes s.value) 8#9)

/-- R200, REQ_WMR: address, null data, count, then the frame of the register values of DATA's register view. -/
def Obligations.ReqWmrRule : Prop :=
  ∀ (dp src : Bool) (s : State),
    CommandWordIs 0x12 dp src (.reqWmr dp src) ∧
    (¬ StationValid s.addr → exec (.reqWmr dp src) s = .next { s.ended .invalidAddress with rlen := 0 }) ∧
    (StationValid s.addr → dp = false → exec (.reqWmr dp src) s = .next { s.ended .nullPointer with rlen := 0 }) ∧
    (StationValid s.addr → dp = true → (s.count.toNat < 1 ∨ 123 < s.count.toNat) →
      exec (.reqWmr dp src) s = .next { s.ended .invalidParam with rlen := 0 }) ∧
    (StationValid s.addr → dp = true → 1 ≤ s.count.toNat → s.count.toNat ≤ 123 →
      (∀ vs, vs.length = s.count.toNat → s.Holds .data 0 (viewRegs vs) →
        BuildsFrame (exec (.reqWmr dp src) s) s s.addr 0x10#8
          (beBytes s.regAddr ++ beBytes s.count ++ [BitVec.ofNat 8 (2 * s.count.toNat)] ++ wireRegs vs) 8#9) ∧
      (s.SomeUnwritten .data 0 (2 * s.count.toNat) → exec (.reqWmr dp src) s = .refused .unwrittenByte))

/-- R205, RSP_RHR: the count, every end that Deframe decides, the length, the byte-count, then the values in DATA's register
view. -/
def Obligations.RspRhrRule : Prop :=
  ∀ (dp src : Bool) (s : State),
    CommandWordIs 0x13 dp src (.rspRhr dp src) ∧
    ((s.count.toNat < 1 ∨ 125 < s.count.toNat) → exec (.rspRhr dp src) s = .next (s.endedParse .invalidParam)) ∧
    (1 ≤ s.count.toNat → s.count.toNat ≤ 125 →
      DeframeEnds (exec (.rspRhr dp src) s) s 0x03#8 ∧
      ∀ p, s.Received 0x03#8 p →
        (p.length ≠ 1 + 2 * s.count.toNat → exec (.rspRhr dp src) s = .next (s.endedParse .invalidResponse)) ∧
        (∀ bc rest, p = bc :: rest → p.length = 1 + 2 * s.count.toNat → bc.toNat ≠ 2 * s.count.toNat →
          exec (.rspRhr dp src) s = .next (s.endedParse .invalidResponse)) ∧
        (∀ bc vs, p = bc :: wireRegs vs → vs.length = s.count.toNat → bc.toNat = 2 * s.count.toNat →
          ∃ m, exec (.rspRhr dp src) s =
              .next { s.endedParse .success with olen := BitVec.ofNat 9 (2 * s.count.toNat), mem := m } ∧
            Stored s.mem m 0x200 (viewRegs vs)))

/-- R210, RSP_WSR: every end that Deframe decides, then the echo of address and value. -/
def Obligations.RspWsrRule : Prop :=
  ∀ (dp src : Bool) (s : State),
    CommandWordIs 0x14 dp src (.rspWsr dp src) ∧
    DeframeEnds (exec (.rspWsr dp src) s) s 0x06#8 ∧
    ∀ p, s.Received 0x06#8 p →
      (p ≠ beBytes s.regAddr ++ beBytes s.value → exec (.rspWsr dp src) s = .next (s.endedParse .invalidResponse)) ∧
      (p = beBytes s.regAddr ++ beBytes s.value → exec (.rspWsr dp src) s = .next (s.endedParse .success))

/-- R215, RSP_WMR: the count, every end that Deframe decides, then the echo of start address and count. -/
def Obligations.RspWmrRule : Prop :=
  ∀ (dp src : Bool) (s : State),
    CommandWordIs 0x15 dp src (.rspWmr dp src) ∧
    ((s.count.toNat < 1 ∨ 123 < s.count.toNat) → exec (.rspWmr dp src) s = .next (s.endedParse .invalidParam)) ∧
    (1 ≤ s.count.toNat → s.count.toNat ≤ 123 →
      DeframeEnds (exec (.rspWmr dp src) s) s 0x10#8 ∧
      ∀ p, s.Received 0x10#8 p →
        (p ≠ beBytes s.regAddr ++ beBytes s.count → exec (.rspWmr dp src) s = .next (s.endedParse .invalidResponse)) ∧
        (p = beBytes s.regAddr ++ beBytes s.count → exec (.rspWmr dp src) s = .next (s.endedParse .success)))

/-- R97: the correct response to a Write Single Register request is the request frame itself, so RSP_WSR accepts the bytes that
REQ_WSR built when the operands are the same; a different VALUE is an echo mismatch. -/
def Obligations.EchoOfTheRequestIsAccepted : Prop :=
  ∀ (dp src dp' src' : Bool) (s t u : State),
    exec (.reqWsr dp src) s = .next t → t.status.code = .success →
    u.len = t.rlen → u.addr = s.addr → u.regAddr = s.regAddr → (∀ i, u.byteAt .frame i = t.byteAt .frame i) →
    exec (.rspWsr dp' src') u =
      .next (u.endedParse (if u.value = s.value then .success else .invalidResponse))

/-! ## Slave side -/

/-- R231, S_INIT. -/
def Obligations.SInitRule : Prop :=
  ∀ (dp src : Bool) (s : State),
    CommandWordIs 0x20 dp src (.sInit dp src) ∧
    (¬ StationValid s.addr → exec (.sInit dp src) s = .next (s.ended .invalidAddress)) ∧
    (StationValid s.addr → exec (.sInit dp src) s = .next { s.ended .success with
      status := { code := .success, isExc := false, excp := false, init := true, sphase := .idle }
      localAddr := s.addr, need := 0 })

/-- R233, S_HDR: INIT, the address byte, then the function byte; a byte that is not reached is not read. -/
def Obligations.SHdrRule : Prop :=
  ∀ (dp src : Bool) (s : State),
    CommandWordIs 0x21 dp src (.sHdr dp src) ∧
    (s.status.init = false → exec (.sHdr dp src) s = .next (s.ended .notInitialized)) ∧
    (s.status.init = true →
      (s.byteAt .frame 0 = none → exec (.sHdr dp src) s = .refused .unwrittenByte) ∧
      (∀ f0, s.byteAt .frame 0 = some f0 → f0 ≠ s.localAddr →
        exec (.sHdr dp src) s = .next { s.endedIn .invalidAddress .idle with need := 0 }) ∧
      (s.byteAt .frame 0 = some s.localAddr →
        (s.byteAt .frame 1 = none → exec (.sHdr dp src) s = .refused .unwrittenByte) ∧
        ∀ f1, s.byteAt .frame 1 = some f1 →
          ((f1 = 0x03#8 ∨ f1 = 0x06#8) →
            exec (.sHdr dp src) s = .next { s.endedIn .success .awaitBody with sfunc := f1, need := 8 }) ∧
          (f1 = 0x10#8 →
            exec (.sHdr dp src) s = .next { s.endedIn .success .awaitCount with sfunc := f1, need := 6 }) ∧
          (f1 ≠ 0x03#8 → f1 ≠ 0x06#8 → f1 ≠ 0x10#8 →
            exec (.sHdr dp src) s = .next { s.endedIn .invalidFunctionCode .idle with sfunc := f1, need := 0 })))

/-- R233, "the block examines only F[0..2)": S_HDR on two memories that agree on F[0] and F[1] does the same, leaving each
memory as it was. -/
def Obligations.SHdrExaminesTwoBytes : Prop :=
  ∀ (dp src : Bool) (s u : State), u = { s with mem := u.mem } →
    u.byteAt .frame 0 = s.byteAt .frame 0 → u.byteAt .frame 1 = s.byteAt .frame 1 →
    (∀ t, exec (.sHdr dp src) s = .next t → t.mem = s.mem ∧ exec (.sHdr dp src) u = .next { t with mem := u.mem }) ∧
    ∀ q, exec (.sHdr dp src) s = .refused q → exec (.sHdr dp src) u = .refused q

/-- R236, S_CNT: INIT, phase, then the count field F[4..6). -/
def Obligations.SCntRule : Prop :=
  ∀ (dp src : Bool) (s : State),
    CommandWordIs 0x22 dp src (.sCnt dp src) ∧
    (s.status.init = false → exec (.sCnt dp src) s = .next (s.ended .notInitialized)) ∧
    (s.status.init = true → s.status.sphase ≠ .awaitCount → exec (.sCnt dp src) s = .next (s.ended .invalidParam)) ∧
    (s.status.init = true → s.status.sphase = .awaitCount →
      (s.SomeUnwritten .frame 4 2 → exec (.sCnt dp src) s = .refused .unwrittenByte) ∧
      ∀ n : Half, s.Holds .frame 4 (beBytes n) →
        (123 < n.toNat → exec (.sCnt dp src) s = .next { s.endedIn .invalidParam .idle with need := 0 }) ∧
        (n.toNat ≤ 123 → exec (.sCnt dp src) s =
          .next { s.endedIn .success .awaitBody with need := BitVec.ofNat 9 (9 + 2 * n.toNat) }))

/-- R240, S_BODY: INIT, phase, the CRC of `F[0..NEED)`, then the request's parameters by the latched function byte. That the count
of a Write Multiple Registers request is F[4..6) as it is when S_BODY runs, also where it is no longer the count that NEED was
computed from, is the model's reading of R240 against R311 (log 8, DEDUCED); the 0x10 clauses rest on it. They hold for every count:
where its values reach past F[255] they end in the model's free values (log 7), and registers above 127 have no bytes in DATA
(log 21). -/
def Obligations.SBodyRule : Prop :=
  ∀ (dp src : Bool) (s : State),
    CommandWordIs 0x23 dp src (.sBody dp src) ∧
    (s.status.init = false → exec (.sBody dp src) s = .next (s.ended .notInitialized)) ∧
    (s.status.init = true → s.status.sphase ≠ .awaitBody → exec (.sBody dp src) s = .next (s.ended .invalidParam)) ∧
    (s.status.init = true → s.status.sphase = .awaitBody → 2 ≤ s.need.toNat → s.need.toNat ≤ 256 →
      (s.SomeUnwritten .frame 0 s.need.toNat → exec (.sBody dp src) s = .refused .unwrittenByte) ∧
      ∀ (body : List Byte) (c : Half), body.length + 2 = s.need.toNat → s.Holds .frame 0 (body ++ leBytes c) →
        (crc16 body ≠ c → exec (.sBody dp src) s = .next (s.endedIn .crcError .idle)) ∧
        (crc16 body = c →
          (∀ a x : Half, s.Holds .frame 2 (beBytes a ++ beBytes x) →
            (s.sfunc = 0x03#8 → exec (.sBody dp src) s = .next { s.endedIn .success .idle with
              regAddr := a, count := x, value := 0, bcount := 0 }) ∧
            (s.sfunc = 0x06#8 → exec (.sBody dp src) s = .next { s.endedIn .success .idle with
              regAddr := a, value := x, count := 0, bcount := 0 }) ∧
            (s.sfunc = 0x10#8 → s.SomeUnwritten .frame 6 (min (1 + 2 * x.toNat) 250) →
              exec (.sBody dp src) s = .refused .unwrittenByte)) ∧
          (s.sfunc = 0x10#8 → ∀ (a n : Half) (bc : Byte) (vs : List Half), vs.length = min n.toNat 128 →
            s.Holds .frame 2 (beBytes a ++ beBytes n ++ [bc]) → s.Finds .frame 7 (wireRegs vs) →
            ∃ m, exec (.sBody dp src) s = .next { s.endedIn .success .idle with
                regAddr := a, count := n, value := 0, bcount := bc, olen := BitVec.ofNat 9 (2 * n.toNat), mem := m } ∧
              Stored s.mem m 0x200 (viewRegs vs))))

/-- D43 and R311: a host that rewrites F[4..6) after S_CNT gets a result computed from the bytes present, and S_BODY stops nowhere
on a FRAME that is written whole, whatever NEED and the count are. For function 0x10 and a right CRC it ends with Success for
every count N now in F[4..6): register `i` of DATA is `be16(F[7+2i], F[8+2i])` wherever those two bytes exist; the part of a
register that would come from past F[255] is written with a value that is the model's free value (log 7); nothing past D[255] is
written (log 21). That N is F[4..6) as it is when S_BODY runs is the model's reading (log 8, DEDUCED). That S_BODY goes on for a NEED
below 2 or above 256 too, which no run reaches, finding free values at the indices that name no byte, is the model's choice (log 9,
DESIGN CHOICE), not R240's or R311's. -/
def Obligations.RewrittenCountStillDecodes : Prop :=
  ∀ (dp src : Bool) (s : State), (∀ i, i < 256 → s.byteAt .frame i ≠ none) →
    (∃ t : State, exec (.sBody dp src) s = .next t) ∧
    ∀ (body : List Byte) (c a n : Half) (bc : Byte),
      s.status.init = true → s.status.sphase = .awaitBody → s.sfunc = 0x10#8 →
      body.length + 2 = s.need.toNat → s.Holds .frame 0 (body ++ leBytes c) → crc16 body = c →
      s.Holds .frame 2 (beBytes a ++ beBytes n ++ [bc]) →
      ∃ t : State, exec (.sBody dp src) s = .next t ∧
        t = { s.endedIn .success .idle with
          regAddr := a, count := n, value := 0, bcount := bc, olen := BitVec.ofNat 9 (2 * n.toNat), mem := t.mem } ∧
        (∀ i, i < n.toNat → i < 128 →
          (7 + 2 * i < 256 → t.byteAt .data (2 * i + 1) = s.byteAt .frame (7 + 2 * i)) ∧
          (8 + 2 * i < 256 → t.byteAt .data (2 * i) = s.byteAt .frame (8 + 2 * i)) ∧
          t.byteAt .data (2 * i) ≠ none ∧ t.byteAt .data (2 * i + 1) ≠ none) ∧
        ∀ x, (x < 0x200 ∨ 0x200 + min 256 (2 * n.toNat) ≤ x) → Memory.read t.mem x = Memory.read s.mem x

/-! ## Rules of the whole machine -/

/-- The invariant holds after reset, wherever the block is mapped, whatever the host is going to do. -/
def Obligations.InvariantHoldsAtReset : Prop :=
  ∀ (slot k : Nat) (acts : List HostAction) (rs : List Word),
    Inv { State.reset with baseSlot := slot, pending := acts, replies := rs, performed := k }

/-- Every step keeps the invariant: memory in canonical form and inside the buffers, the slave cycle invariant of R245, the
flags of STATUS, and RLEN within a frame. (OLEN is OutputLengthFitsAFrame.) -/
def Obligations.EveryStepKeepsInvariant : Prop :=
  ∀ s t : State, Inv s → step s = .next t → Inv t

/-- OLEN stays within the 256 bytes of a buffer in every step but one: an S_BODY of function 0x10 that finds a count above 128 in
F[4..6), which S_CNT never admits (R236), so the host has rewritten it (R311). OLEN is then the low 9 bits of twice that count
(R240, R12). That S_BODY takes the count from F[4..6) is the model's reading (log 8); BASE is 0x400 times the slot (log 1). -/
def Obligations.OutputLengthFitsAFrame : Prop :=
  ∀ s t : State, s.olen.toNat ≤ 256 → step s = .next t →
    t.olen.toNat ≤ 256 ∨
    ∃ (rest : List HostAction) (w : Word) (dp src : Bool) (n : Half),
      s.pending = .write (0x400 * s.baseSlot) .word w :: rest ∧ decode (.command w) = .ok (.sBody dp src) ∧
      s.status.sphase = .awaitBody ∧ s.sfunc = 0x10#8 ∧ s.Holds .frame 4 (beBytes n) ∧ 128 < n.toNat ∧
      t.olen.toNat = 2 * n.toNat % 512

/-- R29 with R23: only a successful S_INIT changes LOCAL or INIT, and then INIT is 1 and LOCAL is ADDR; only a reset clears
INIT. -/
def Obligations.OnlySInitConfigures : Prop :=
  ∀ (s t : State) (a : HostAction) (rest : List HostAction), s.pending = a :: rest → a ≠ .reset → step s = .next t →
    (s.status.init = true → t.status.init = true) ∧
    ((t.localAddr ≠ s.localAddr ∨ t.status.init ≠ s.status.init) →
      (∃ w dp src, a = .write (0x400 * s.baseSlot) .word w ∧ decode (.command w) = .ok (.sInit dp src)) ∧
      StationValid s.addr ∧ t.status.init = true ∧ t.localAddr = s.addr)

/-- R122 for CRC16 and the builders: what they leave unchanged. -/
def Obligations.BuildersFrame : Prop :=
  ∀ (dp src : Bool) (s t : State), ∀ i ∈ [Instr.crc16 dp src, .build dp src, .buildExc dp src, .reqRhr dp src,
    .reqWsr dp src, .reqWmr dp src], exec i s = .next t → FrameHolds i s t

/-- R122 for the PARSE family: what it leaves unchanged. -/
def Obligations.ParseFamilyFrame : Prop :=
  ∀ (dp src : Bool) (s t : State), ∀ i ∈ [Instr.parse dp src, .rspRhr dp src, .rspWsr dp src, .rspWmr dp src],
    exec i s = .next t → FrameHolds i s t

/-- R122 for the slave commands: what they leave unchanged. The bytes S_BODY stores are counted by F[4..6) as it is when S_BODY
runs, the model's reading (log 8), and none past D[255] (log 21). -/
def Obligations.SlaveFrame : Prop :=
  ∀ (dp src : Bool) (s t : State), ∀ i ∈ [Instr.sInit dp src, .sHdr dp src, .sCnt dp src, .sBody dp src],
    exec i s = .next t → FrameHolds i s t

/-- The statuses of each command's rule, summed up in R270: no command ends with any other, and every command's ending writes
one. -/
def Obligations.StatusesOfCommands : Prop :=
  ∀ (i : Instr) (s t : State), i.isCommand = true → exec i s = .next t → t.status.code ∈ statusesOf i

/-- R276: a step refuses only a misshapen access to register space, a misaligned access to a buffer or the reserved window, a
host read that covers an unwritten buffer byte, or a CMD write of a command that reads an unwritten byte on its path. (BASE is
0x400 times the slot, the model's representation, log 1; the path of S_BODY follows log 8, and log 9 for a NEED outside 2..256, which no run
reaches; the state in which the command runs is s with the action gone and the model's counter advanced, log 20.) -/
def Obligations.RefusalsHaveTheirCauses : Prop :=
  ∀ (s : State) (a : HostAction) (rest : List HostAction) (q : Refusal), s.pending = a :: rest → step s = .refused q →
    (q = .registerAccess ∧ ∃ addr off n, (a = .read addr n ∨ ∃ v, a = .write addr n v) ∧ addr = 0x400 * s.baseSlot + off ∧
      off < 0x100 ∧ (n ≠ .word ∨ off % 4 ≠ 0)) ∨
    (q = .misalignedAccess ∧ ∃ addr off n, (a = .read addr n ∨ ∃ v, a = .write addr n v) ∧ addr = 0x400 * s.baseSlot + off ∧
      0x100 ≤ off ∧ off < 0x400 ∧ off % n.bytes ≠ 0) ∨
    (q = .unwrittenByte ∧ ∃ b k, k < 256 ∧ s.byteAt b k = none ∧
      ((∃ addr off n, a = .read addr n ∧ addr = 0x400 * s.baseSlot + off ∧ off % n.bytes = 0 ∧
          off ≤ b.base + k ∧ b.base + k < off + n.bytes) ∨
        ∃ w i, a = .write (0x400 * s.baseSlot) .word w ∧ decode (.command w) = .ok i ∧
          readsOnPath i { s with pending := rest, performed := s.performed + 1 } b k))

/-- R123: an instruction is refused exactly when one of the bytes it reads on its path is unwritten, and that is its only refusal.
(The path of S_BODY follows log 8, and log 9 for a NEED outside 2..256, which no run reaches.) -/
def Obligations.RefusedExactlyForUnwrittenOnPath : Prop :=
  ∀ (i : Instr) (s : State) (q : Refusal),
    exec i s = .refused q ↔ q = .unwrittenByte ∧ ∃ b k, k < 256 ∧ readsOnPath i s b k ∧ s.byteAt b k = none

/-- R28: a byte that has been written stays written, whatever the host and the block do, until a reset. -/
def Obligations.WrittenBytesStayWritten : Prop :=
  ∀ (s t : State), (∀ rest, s.pending ≠ .reset :: rest) → step s = .next t → KeepsWritten s t

/-! ## Wire frames -/

/-- The request forms, byte by byte (R94, R96, R98): running one places exactly these bytes in FRAME from F[0] and changes
nothing else. That a form runs as its arrival is the model's choice (log 4). -/
def Obligations.RequestFormsArrive : Prop :=
  ∀ (s : State) (a bc : Byte) (x y c : Half) (vs : List Half),
    (∃ m, exec (.frameRhrReq a x y c) s = .next { s with mem := m } ∧
      Stored s.mem m 0x100 [a, 0x03, hi8 x, lo8 x, hi8 y, lo8 y, lo8 c, hi8 c]) ∧
    (∃ m, exec (.frameWsrReq a x y c) s = .next { s with mem := m } ∧
      Stored s.mem m 0x100 [a, 0x06, hi8 x, lo8 x, hi8 y, lo8 y, lo8 c, hi8 c]) ∧
    ((Instr.frameWmrReq a x y bc vs c).shaped = true →
      ∃ m, exec (.frameWmrReq a x y bc vs c) s = .next { s with mem := m } ∧
        Stored s.mem m 0x100 ([a, 0x10, hi8 x, lo8 x, hi8 y, lo8 y, bc] ++ wireRegs vs ++ [lo8 c, hi8 c]))

/-- The response forms, byte by byte (R95, R97, R99, R100), likewise (log 4). -/
def Obligations.ResponseFormsArrive : Prop :=
  ∀ (s : State) (a bc e : Byte) (x y c : Half) (vs : List Half),
    ((Instr.frameRhrRsp a bc vs c).shaped = true →
      ∃ m, exec (.frameRhrRsp a bc vs c) s = .next { s with mem := m } ∧
        Stored s.mem m 0x100 ([a, 0x03, bc] ++ wireRegs vs ++ [lo8 c, hi8 c])) ∧
    (∃ m, exec (.frameWsrRsp a x y c) s = .next { s with mem := m } ∧
      Stored s.mem m 0x100 [a, 0x06, hi8 x, lo8 x, hi8 y, lo8 y, lo8 c, hi8 c]) ∧
    (∃ m, exec (.frameWmrRsp a x y c) s = .next { s with mem := m } ∧
      Stored s.mem m 0x100 [a, 0x10, hi8 x, lo8 x, hi8 y, lo8 y, lo8 c, hi8 c]) ∧
    (∃ m, exec (.frameExcRhr a e c) s = .next { s with mem := m } ∧ Stored s.mem m 0x100 [a, 0x83, e, lo8 c, hi8 c]) ∧
    (∃ m, exec (.frameExcWsr a e c) s = .next { s with mem := m } ∧ Stored s.mem m 0x100 [a, 0x86, e, lo8 c, hi8 c]) ∧
    (∃ m, exec (.frameExcWmr a e c) s = .next { s with mem := m } ∧ Stored s.mem m 0x100 [a, 0x90, e, lo8 c, hi8 c])

/-- R101's slave column with R246; that a frame form runs as its arrival is the model's choice (log 4, DESIGN CHOICE), and every
clause runs one so. A well-formed request frame that arrives at the configured station goes through the slave
cycle with Success, and its fields are what the cycle reports. -/
def Obligations.ArrivedRequestIsDecoded : Prop :=
  ∀ (s : State) (a bc : Byte) (x y c : Half) (vs : List Half) (dp src : Bool),
    s.status.init = true → s.localAddr = a →
    ((Instr.frameRhrReq a x y c).wellFormed = true →
      ∃ t, andThen (exec (.frameRhrReq a x y c) s) (fun s => andThen (exec (.sHdr dp src) s) (exec (.sBody dp src))) = .next t ∧
        t.status.code = .success ∧ t.status.sphase = .idle ∧ t.sfunc = 0x03#8 ∧ t.regAddr = x ∧ t.count = y ∧ t.value = 0 ∧
        t.bcount = 0) ∧
    ((Instr.frameWsrReq a x y c).wellFormed = true →
      ∃ t, andThen (exec (.frameWsrReq a x y c) s) (fun s => andThen (exec (.sHdr dp src) s) (exec (.sBody dp src))) = .next t ∧
        t.status.code = .success ∧ t.status.sphase = .idle ∧ t.sfunc = 0x06#8 ∧ t.regAddr = x ∧ t.value = y ∧ t.count = 0 ∧
        t.bcount = 0) ∧
    ((Instr.frameWmrReq a x y bc vs c).wellFormed = true →
      ∃ t, andThen (exec (.frameWmrReq a x y bc vs c) s) (fun s => andThen (exec (.sHdr dp src) s) (fun s =>
          andThen (exec (.sCnt dp src) s) (exec (.sBody dp src)))) = .next t ∧
        t.status.code = .success ∧ t.status.sphase = .idle ∧ t.sfunc = 0x10#8 ∧ t.regAddr = x ∧ t.count = y ∧ t.value = 0 ∧
        t.bcount = bc ∧ t.olen.toNat = 2 * y.toNat ∧ t.Holds .data 0 (viewRegs vs))

/-- R101's master column; that a frame form runs as its arrival is the model's choice (log 4, DESIGN CHOICE), and every clause runs
one so. A well-formed response frame that arrives from the expected station is accepted by its RSP_* command
when it answers the operands, and a well-formed exception response is reported as Exception with its code. -/
def Obligations.ArrivedResponseIsAccepted : Prop :=
  ∀ (s t : State) (a bc e : Byte) (x y c : Half) (vs : List Half) (dp src : Bool), s.addr = a →
    ((Instr.frameRhrRsp a bc vs c).wellFormed = true → s.count.toNat = vs.length → s.len.toNat = 5 + 2 * vs.length →
      exec (.frameRhrRsp a bc vs c) s = .next t →
      ∃ u, exec (.rspRhr dp src) t = .next u ∧ u.status.code = .success ∧ u.Holds .data 0 (viewRegs vs)) ∧
    ((Instr.frameWsrRsp a x y c).wellFormed = true → s.regAddr = x → s.value = y → s.len.toNat = 8 →
      exec (.frameWsrRsp a x y c) s = .next t →
      ∃ u, exec (.rspWsr dp src) t = .next u ∧ u.status.code = .success) ∧
    ((Instr.frameWmrRsp a x y c).wellFormed = true → s.regAddr = x → s.count = y → s.len.toNat = 8 →
      exec (.frameWmrRsp a x y c) s = .next t →
      ∃ u, exec (.rspWmr dp src) t = .next u ∧ u.status.code = .success) ∧
    ((Instr.frameExcRhr a e c).wellFormed = true → 1 ≤ s.count.toNat → s.count.toNat ≤ 125 → s.len.toNat = 5 →
      exec (.frameExcRhr a e c) s = .next t →
      ∃ u, exec (.rspRhr dp src) t = .next u ∧ u.status.code = .exception ∧ u.status.excp = true ∧ u.exc = e) ∧
    ((Instr.frameExcWsr a e c).wellFormed = true → s.len.toNat = 5 → exec (.frameExcWsr a e c) s = .next t →
      ∃ u, exec (.rspWsr dp src) t = .next u ∧ u.status.code = .exception ∧ u.status.excp = true ∧ u.exc = e) ∧
    ((Instr.frameExcWmr a e c).wellFormed = true → 1 ≤ s.count.toNat → s.count.toNat ≤ 123 → s.len.toNat = 5 →
      exec (.frameExcWmr a e c) s = .next t →
      ∃ u, exec (.rspWmr dp src) t = .next u ∧ u.status.code = .exception ∧ u.status.excp = true ∧ u.exc = e)

/-- The two sides of the block agree: the Write Multiple Registers request that REQ_WMR builds on one block, received unchanged
in FRAME by a block bound to that station, goes through S_HDR, S_CNT and S_BODY with Success and gives back the start
address, the count and every register value (R98, R200, R233, R236, R240). -/
def Obligations.BuiltWriteReachesTheSlave : Prop :=
  ∀ (dp src dp' src' : Bool) (s t u : State) (vs : List Half),
    exec (.reqWmr dp src) s = .next t → t.status.code = .success → vs.length = s.count.toNat →
    s.Holds .data 0 (viewRegs vs) →
    u.status.init = true → u.localAddr = s.addr → (∀ i, u.byteAt .frame i = t.byteAt .frame i) →
    ∃ v, andThen (exec (.sHdr dp' src') u) (fun u => andThen (exec (.sCnt dp' src') u) (exec (.sBody dp' src'))) = .next v ∧
      v.status.code = .success ∧ v.status.sphase = .idle ∧ v.regAddr = s.regAddr ∧ v.count = s.count ∧
      v.bcount.toNat = 2 * s.count.toNat ∧ v.olen.toNat = 2 * s.count.toNat ∧ v.Holds .data 0 (viewRegs vs)
end

