-- ==== Sys2Proof/Laws/State.lean ====
section
/-! SUPPORT. One lemma for each field of State and each named update: what the update leaves in that field. A proof cites these
and never unfolds the update. -/

namespace Sys2Proof.Machine

/-! `State.prologue` writes STATUS's flags and OLEN (R121). -/

@[simp] theorem prologue_status (s : State) : (s.prologue).status = s.status.cleared := rfl
@[simp] theorem prologue_addr (s : State) : (s.prologue).addr = s.addr := rfl
@[simp] theorem prologue_func (s : State) : (s.prologue).func = s.func := rfl
@[simp] theorem prologue_len (s : State) : (s.prologue).len = s.len := rfl
@[simp] theorem prologue_cap (s : State) : (s.prologue).cap = s.cap := rfl
@[simp] theorem prologue_olen (s : State) : (s.prologue).olen = 0 := rfl
@[simp] theorem prologue_crc (s : State) : (s.prologue).crc = s.crc := rfl
@[simp] theorem prologue_exc (s : State) : (s.prologue).exc = s.exc := rfl
@[simp] theorem prologue_regAddr (s : State) : (s.prologue).regAddr = s.regAddr := rfl
@[simp] theorem prologue_count (s : State) : (s.prologue).count = s.count := rfl
@[simp] theorem prologue_value (s : State) : (s.prologue).value = s.value := rfl
@[simp] theorem prologue_rlen (s : State) : (s.prologue).rlen = s.rlen := rfl
@[simp] theorem prologue_localAddr (s : State) : (s.prologue).localAddr = s.localAddr := rfl
@[simp] theorem prologue_need (s : State) : (s.prologue).need = s.need := rfl
@[simp] theorem prologue_sfunc (s : State) : (s.prologue).sfunc = s.sfunc := rfl
@[simp] theorem prologue_bcount (s : State) : (s.prologue).bcount = s.bcount := rfl
@[simp] theorem prologue_mem (s : State) : (s.prologue).mem = s.mem := rfl
@[simp] theorem prologue_baseSlot (s : State) : (s.prologue).baseSlot = s.baseSlot := rfl
@[simp] theorem prologue_pending (s : State) : (s.prologue).pending = s.pending := rfl
@[simp] theorem prologue_replies (s : State) : (s.prologue).replies = s.replies := rfl
@[simp] theorem prologue_performed (s : State) : (s.prologue).performed = s.performed := rfl

/-! `State.parseStart` writes what the prologue does, and EXC. -/

@[simp] theorem parseStart_status (s : State) : s.parseStart.status = s.status.cleared := rfl
@[simp] theorem parseStart_addr (s : State) : s.parseStart.addr = s.addr := rfl
@[simp] theorem parseStart_func (s : State) : s.parseStart.func = s.func := rfl
@[simp] theorem parseStart_len (s : State) : s.parseStart.len = s.len := rfl
@[simp] theorem parseStart_cap (s : State) : s.parseStart.cap = s.cap := rfl
@[simp] theorem parseStart_olen (s : State) : s.parseStart.olen = 0 := rfl
@[simp] theorem parseStart_crc (s : State) : s.parseStart.crc = s.crc := rfl
@[simp] theorem parseStart_exc (s : State) : s.parseStart.exc = 0 := rfl
@[simp] theorem parseStart_regAddr (s : State) : s.parseStart.regAddr = s.regAddr := rfl
@[simp] theorem parseStart_count (s : State) : s.parseStart.count = s.count := rfl
@[simp] theorem parseStart_value (s : State) : s.parseStart.value = s.value := rfl
@[simp] theorem parseStart_rlen (s : State) : s.parseStart.rlen = s.rlen := rfl
@[simp] theorem parseStart_localAddr (s : State) : s.parseStart.localAddr = s.localAddr := rfl
@[simp] theorem parseStart_need (s : State) : s.parseStart.need = s.need := rfl
@[simp] theorem parseStart_sfunc (s : State) : s.parseStart.sfunc = s.sfunc := rfl
@[simp] theorem parseStart_bcount (s : State) : s.parseStart.bcount = s.bcount := rfl
@[simp] theorem parseStart_mem (s : State) : s.parseStart.mem = s.mem := rfl
@[simp] theorem parseStart_baseSlot (s : State) : s.parseStart.baseSlot = s.baseSlot := rfl
@[simp] theorem parseStart_pending (s : State) : s.parseStart.pending = s.pending := rfl
@[simp] theorem parseStart_replies (s : State) : s.parseStart.replies = s.replies := rfl
@[simp] theorem parseStart_performed (s : State) : s.parseStart.performed = s.performed := rfl

/-! `State.requestStart` writes what the prologue does, and RLEN. -/

@[simp] theorem requestStart_status (s : State) : s.requestStart.status = s.status.cleared := rfl
@[simp] theorem requestStart_addr (s : State) : s.requestStart.addr = s.addr := rfl
@[simp] theorem requestStart_func (s : State) : s.requestStart.func = s.func := rfl
@[simp] theorem requestStart_len (s : State) : s.requestStart.len = s.len := rfl
@[simp] theorem requestStart_cap (s : State) : s.requestStart.cap = s.cap := rfl
@[simp] theorem requestStart_olen (s : State) : s.requestStart.olen = 0 := rfl
@[simp] theorem requestStart_crc (s : State) : s.requestStart.crc = s.crc := rfl
@[simp] theorem requestStart_exc (s : State) : s.requestStart.exc = s.exc := rfl
@[simp] theorem requestStart_regAddr (s : State) : s.requestStart.regAddr = s.regAddr := rfl
@[simp] theorem requestStart_count (s : State) : s.requestStart.count = s.count := rfl
@[simp] theorem requestStart_value (s : State) : s.requestStart.value = s.value := rfl
@[simp] theorem requestStart_rlen (s : State) : s.requestStart.rlen = 0 := rfl
@[simp] theorem requestStart_localAddr (s : State) : s.requestStart.localAddr = s.localAddr := rfl
@[simp] theorem requestStart_need (s : State) : s.requestStart.need = s.need := rfl
@[simp] theorem requestStart_sfunc (s : State) : s.requestStart.sfunc = s.sfunc := rfl
@[simp] theorem requestStart_bcount (s : State) : s.requestStart.bcount = s.bcount := rfl
@[simp] theorem requestStart_mem (s : State) : s.requestStart.mem = s.mem := rfl
@[simp] theorem requestStart_baseSlot (s : State) : s.requestStart.baseSlot = s.baseSlot := rfl
@[simp] theorem requestStart_pending (s : State) : s.requestStart.pending = s.pending := rfl
@[simp] theorem requestStart_replies (s : State) : s.requestStart.replies = s.replies := rfl
@[simp] theorem requestStart_performed (s : State) : s.requestStart.performed = s.performed := rfl

/-! `State.storeBytes` writes memory. -/

@[simp] theorem storeBytes_status (s : State) (b : Buffer) (i : Nat) (bs : List Byte) : (s.storeBytes b i bs).status = s.status := rfl
@[simp] theorem storeBytes_addr (s : State) (b : Buffer) (i : Nat) (bs : List Byte) : (s.storeBytes b i bs).addr = s.addr := rfl
@[simp] theorem storeBytes_func (s : State) (b : Buffer) (i : Nat) (bs : List Byte) : (s.storeBytes b i bs).func = s.func := rfl
@[simp] theorem storeBytes_len (s : State) (b : Buffer) (i : Nat) (bs : List Byte) : (s.storeBytes b i bs).len = s.len := rfl
@[simp] theorem storeBytes_cap (s : State) (b : Buffer) (i : Nat) (bs : List Byte) : (s.storeBytes b i bs).cap = s.cap := rfl
@[simp] theorem storeBytes_olen (s : State) (b : Buffer) (i : Nat) (bs : List Byte) : (s.storeBytes b i bs).olen = s.olen := rfl
@[simp] theorem storeBytes_crc (s : State) (b : Buffer) (i : Nat) (bs : List Byte) : (s.storeBytes b i bs).crc = s.crc := rfl
@[simp] theorem storeBytes_exc (s : State) (b : Buffer) (i : Nat) (bs : List Byte) : (s.storeBytes b i bs).exc = s.exc := rfl
@[simp] theorem storeBytes_regAddr (s : State) (b : Buffer) (i : Nat) (bs : List Byte) : (s.storeBytes b i bs).regAddr = s.regAddr := rfl
@[simp] theorem storeBytes_count (s : State) (b : Buffer) (i : Nat) (bs : List Byte) : (s.storeBytes b i bs).count = s.count := rfl
@[simp] theorem storeBytes_value (s : State) (b : Buffer) (i : Nat) (bs : List Byte) : (s.storeBytes b i bs).value = s.value := rfl
@[simp] theorem storeBytes_rlen (s : State) (b : Buffer) (i : Nat) (bs : List Byte) : (s.storeBytes b i bs).rlen = s.rlen := rfl
@[simp] theorem storeBytes_localAddr (s : State) (b : Buffer) (i : Nat) (bs : List Byte) : (s.storeBytes b i bs).localAddr = s.localAddr := rfl
@[simp] theorem storeBytes_need (s : State) (b : Buffer) (i : Nat) (bs : List Byte) : (s.storeBytes b i bs).need = s.need := rfl
@[simp] theorem storeBytes_sfunc (s : State) (b : Buffer) (i : Nat) (bs : List Byte) : (s.storeBytes b i bs).sfunc = s.sfunc := rfl
@[simp] theorem storeBytes_bcount (s : State) (b : Buffer) (i : Nat) (bs : List Byte) : (s.storeBytes b i bs).bcount = s.bcount := rfl
@[simp] theorem storeBytes_mem (s : State) (b : Buffer) (i : Nat) (bs : List Byte) : (s.storeBytes b i bs).mem = Memory.writeAll s.mem (b.base + i) bs := rfl
@[simp] theorem storeBytes_baseSlot (s : State) (b : Buffer) (i : Nat) (bs : List Byte) : (s.storeBytes b i bs).baseSlot = s.baseSlot := rfl
@[simp] theorem storeBytes_pending (s : State) (b : Buffer) (i : Nat) (bs : List Byte) : (s.storeBytes b i bs).pending = s.pending := rfl
@[simp] theorem storeBytes_replies (s : State) (b : Buffer) (i : Nat) (bs : List Byte) : (s.storeBytes b i bs).replies = s.replies := rfl
@[simp] theorem storeBytes_performed (s : State) (b : Buffer) (i : Nat) (bs : List Byte) : (s.storeBytes b i bs).performed = s.performed := rfl

/-! `storeFrame` writes memory, OLEN and CRC (R130). -/

@[simp] theorem storeFrame_status (fr : List Byte) (s : State) : (storeFrame fr s).status = s.status := rfl
@[simp] theorem storeFrame_addr (fr : List Byte) (s : State) : (storeFrame fr s).addr = s.addr := rfl
@[simp] theorem storeFrame_func (fr : List Byte) (s : State) : (storeFrame fr s).func = s.func := rfl
@[simp] theorem storeFrame_len (fr : List Byte) (s : State) : (storeFrame fr s).len = s.len := rfl
@[simp] theorem storeFrame_cap (fr : List Byte) (s : State) : (storeFrame fr s).cap = s.cap := rfl
@[simp] theorem storeFrame_olen (fr : List Byte) (s : State) : (storeFrame fr s).olen = BitVec.ofNat 9 fr.length := rfl
@[simp] theorem storeFrame_crc (fr : List Byte) (s : State) : (storeFrame fr s).crc = le16 (fr.getD (fr.length - 2) 0) (fr.getD (fr.length - 1) 0) := rfl
@[simp] theorem storeFrame_exc (fr : List Byte) (s : State) : (storeFrame fr s).exc = s.exc := rfl
@[simp] theorem storeFrame_regAddr (fr : List Byte) (s : State) : (storeFrame fr s).regAddr = s.regAddr := rfl
@[simp] theorem storeFrame_count (fr : List Byte) (s : State) : (storeFrame fr s).count = s.count := rfl
@[simp] theorem storeFrame_value (fr : List Byte) (s : State) : (storeFrame fr s).value = s.value := rfl
@[simp] theorem storeFrame_rlen (fr : List Byte) (s : State) : (storeFrame fr s).rlen = s.rlen := rfl
@[simp] theorem storeFrame_localAddr (fr : List Byte) (s : State) : (storeFrame fr s).localAddr = s.localAddr := rfl
@[simp] theorem storeFrame_need (fr : List Byte) (s : State) : (storeFrame fr s).need = s.need := rfl
@[simp] theorem storeFrame_sfunc (fr : List Byte) (s : State) : (storeFrame fr s).sfunc = s.sfunc := rfl
@[simp] theorem storeFrame_bcount (fr : List Byte) (s : State) : (storeFrame fr s).bcount = s.bcount := rfl
@[simp] theorem storeFrame_mem (fr : List Byte) (s : State) : (storeFrame fr s).mem = Memory.writeAll s.mem (Buffer.frame.base + 0) fr := rfl
@[simp] theorem storeFrame_baseSlot (fr : List Byte) (s : State) : (storeFrame fr s).baseSlot = s.baseSlot := rfl
@[simp] theorem storeFrame_pending (fr : List Byte) (s : State) : (storeFrame fr s).pending = s.pending := rfl
@[simp] theorem storeFrame_replies (fr : List Byte) (s : State) : (storeFrame fr s).replies = s.replies := rfl
@[simp] theorem storeFrame_performed (fr : List Byte) (s : State) : (storeFrame fr s).performed = s.performed := rfl

/-! `storeRegs` writes memory (R131). -/

@[simp] theorem storeRegs_status (vs : List Half) (s : State) : (storeRegs vs s).status = s.status := rfl
@[simp] theorem storeRegs_addr (vs : List Half) (s : State) : (storeRegs vs s).addr = s.addr := rfl
@[simp] theorem storeRegs_func (vs : List Half) (s : State) : (storeRegs vs s).func = s.func := rfl
@[simp] theorem storeRegs_len (vs : List Half) (s : State) : (storeRegs vs s).len = s.len := rfl
@[simp] theorem storeRegs_cap (vs : List Half) (s : State) : (storeRegs vs s).cap = s.cap := rfl
@[simp] theorem storeRegs_olen (vs : List Half) (s : State) : (storeRegs vs s).olen = s.olen := rfl
@[simp] theorem storeRegs_crc (vs : List Half) (s : State) : (storeRegs vs s).crc = s.crc := rfl
@[simp] theorem storeRegs_exc (vs : List Half) (s : State) : (storeRegs vs s).exc = s.exc := rfl
@[simp] theorem storeRegs_regAddr (vs : List Half) (s : State) : (storeRegs vs s).regAddr = s.regAddr := rfl
@[simp] theorem storeRegs_count (vs : List Half) (s : State) : (storeRegs vs s).count = s.count := rfl
@[simp] theorem storeRegs_value (vs : List Half) (s : State) : (storeRegs vs s).value = s.value := rfl
@[simp] theorem storeRegs_rlen (vs : List Half) (s : State) : (storeRegs vs s).rlen = s.rlen := rfl
@[simp] theorem storeRegs_localAddr (vs : List Half) (s : State) : (storeRegs vs s).localAddr = s.localAddr := rfl
@[simp] theorem storeRegs_need (vs : List Half) (s : State) : (storeRegs vs s).need = s.need := rfl
@[simp] theorem storeRegs_sfunc (vs : List Half) (s : State) : (storeRegs vs s).sfunc = s.sfunc := rfl
@[simp] theorem storeRegs_bcount (vs : List Half) (s : State) : (storeRegs vs s).bcount = s.bcount := rfl
@[simp] theorem storeRegs_mem (vs : List Half) (s : State) : (storeRegs vs s).mem = Memory.writeAll s.mem (Buffer.data.base + 0) (viewRegs vs) := rfl
@[simp] theorem storeRegs_baseSlot (vs : List Half) (s : State) : (storeRegs vs s).baseSlot = s.baseSlot := rfl
@[simp] theorem storeRegs_pending (vs : List Half) (s : State) : (storeRegs vs s).pending = s.pending := rfl
@[simp] theorem storeRegs_replies (vs : List Half) (s : State) : (storeRegs vs s).replies = s.replies := rfl
@[simp] theorem storeRegs_performed (vs : List Half) (s : State) : (storeRegs vs s).performed = s.performed := rfl

/-! `fillFrame` writes memory (R110). -/

@[simp] theorem fillFrame_status (bs : List Byte) (s : State) : (fillFrame bs s).status = s.status := rfl
@[simp] theorem fillFrame_addr (bs : List Byte) (s : State) : (fillFrame bs s).addr = s.addr := rfl
@[simp] theorem fillFrame_func (bs : List Byte) (s : State) : (fillFrame bs s).func = s.func := rfl
@[simp] theorem fillFrame_len (bs : List Byte) (s : State) : (fillFrame bs s).len = s.len := rfl
@[simp] theorem fillFrame_cap (bs : List Byte) (s : State) : (fillFrame bs s).cap = s.cap := rfl
@[simp] theorem fillFrame_olen (bs : List Byte) (s : State) : (fillFrame bs s).olen = s.olen := rfl
@[simp] theorem fillFrame_crc (bs : List Byte) (s : State) : (fillFrame bs s).crc = s.crc := rfl
@[simp] theorem fillFrame_exc (bs : List Byte) (s : State) : (fillFrame bs s).exc = s.exc := rfl
@[simp] theorem fillFrame_regAddr (bs : List Byte) (s : State) : (fillFrame bs s).regAddr = s.regAddr := rfl
@[simp] theorem fillFrame_count (bs : List Byte) (s : State) : (fillFrame bs s).count = s.count := rfl
@[simp] theorem fillFrame_value (bs : List Byte) (s : State) : (fillFrame bs s).value = s.value := rfl
@[simp] theorem fillFrame_rlen (bs : List Byte) (s : State) : (fillFrame bs s).rlen = s.rlen := rfl
@[simp] theorem fillFrame_localAddr (bs : List Byte) (s : State) : (fillFrame bs s).localAddr = s.localAddr := rfl
@[simp] theorem fillFrame_need (bs : List Byte) (s : State) : (fillFrame bs s).need = s.need := rfl
@[simp] theorem fillFrame_sfunc (bs : List Byte) (s : State) : (fillFrame bs s).sfunc = s.sfunc := rfl
@[simp] theorem fillFrame_bcount (bs : List Byte) (s : State) : (fillFrame bs s).bcount = s.bcount := rfl
@[simp] theorem fillFrame_mem (bs : List Byte) (s : State) : (fillFrame bs s).mem = Memory.writeAll s.mem Config.frameOffset (bs.take (Config.reservedOffset - Config.frameOffset)) := rfl
@[simp] theorem fillFrame_baseSlot (bs : List Byte) (s : State) : (fillFrame bs s).baseSlot = s.baseSlot := rfl
@[simp] theorem fillFrame_pending (bs : List Byte) (s : State) : (fillFrame bs s).pending = s.pending := rfl
@[simp] theorem fillFrame_replies (bs : List Byte) (s : State) : (fillFrame bs s).replies = s.replies := rfl
@[simp] theorem fillFrame_performed (bs : List Byte) (s : State) : (fillFrame bs s).performed = s.performed := rfl

/-! `State.setPhase` writes STATUS.SPHASE. -/

@[simp] theorem setPhase_status (p : Phase) (s : State) : (s.setPhase p).status = { s.status with sphase := p } := rfl
@[simp] theorem setPhase_addr (p : Phase) (s : State) : (s.setPhase p).addr = s.addr := rfl
@[simp] theorem setPhase_func (p : Phase) (s : State) : (s.setPhase p).func = s.func := rfl
@[simp] theorem setPhase_len (p : Phase) (s : State) : (s.setPhase p).len = s.len := rfl
@[simp] theorem setPhase_cap (p : Phase) (s : State) : (s.setPhase p).cap = s.cap := rfl
@[simp] theorem setPhase_olen (p : Phase) (s : State) : (s.setPhase p).olen = s.olen := rfl
@[simp] theorem setPhase_crc (p : Phase) (s : State) : (s.setPhase p).crc = s.crc := rfl
@[simp] theorem setPhase_exc (p : Phase) (s : State) : (s.setPhase p).exc = s.exc := rfl
@[simp] theorem setPhase_regAddr (p : Phase) (s : State) : (s.setPhase p).regAddr = s.regAddr := rfl
@[simp] theorem setPhase_count (p : Phase) (s : State) : (s.setPhase p).count = s.count := rfl
@[simp] theorem setPhase_value (p : Phase) (s : State) : (s.setPhase p).value = s.value := rfl
@[simp] theorem setPhase_rlen (p : Phase) (s : State) : (s.setPhase p).rlen = s.rlen := rfl
@[simp] theorem setPhase_localAddr (p : Phase) (s : State) : (s.setPhase p).localAddr = s.localAddr := rfl
@[simp] theorem setPhase_need (p : Phase) (s : State) : (s.setPhase p).need = s.need := rfl
@[simp] theorem setPhase_sfunc (p : Phase) (s : State) : (s.setPhase p).sfunc = s.sfunc := rfl
@[simp] theorem setPhase_bcount (p : Phase) (s : State) : (s.setPhase p).bcount = s.bcount := rfl
@[simp] theorem setPhase_mem (p : Phase) (s : State) : (s.setPhase p).mem = s.mem := rfl
@[simp] theorem setPhase_baseSlot (p : Phase) (s : State) : (s.setPhase p).baseSlot = s.baseSlot := rfl
@[simp] theorem setPhase_pending (p : Phase) (s : State) : (s.setPhase p).pending = s.pending := rfl
@[simp] theorem setPhase_replies (p : Phase) (s : State) : (s.setPhase p).replies = s.replies := rfl
@[simp] theorem setPhase_performed (p : Phase) (s : State) : (s.setPhase p).performed = s.performed := rfl

/-! `platformReset` writes every field of the block (R300). -/

@[simp] theorem platformReset_status (s : State) : (platformReset s).status = State.reset.status := rfl
@[simp] theorem platformReset_addr (s : State) : (platformReset s).addr = State.reset.addr := rfl
@[simp] theorem platformReset_func (s : State) : (platformReset s).func = State.reset.func := rfl
@[simp] theorem platformReset_len (s : State) : (platformReset s).len = State.reset.len := rfl
@[simp] theorem platformReset_cap (s : State) : (platformReset s).cap = State.reset.cap := rfl
@[simp] theorem platformReset_olen (s : State) : (platformReset s).olen = State.reset.olen := rfl
@[simp] theorem platformReset_crc (s : State) : (platformReset s).crc = State.reset.crc := rfl
@[simp] theorem platformReset_exc (s : State) : (platformReset s).exc = State.reset.exc := rfl
@[simp] theorem platformReset_regAddr (s : State) : (platformReset s).regAddr = State.reset.regAddr := rfl
@[simp] theorem platformReset_count (s : State) : (platformReset s).count = State.reset.count := rfl
@[simp] theorem platformReset_value (s : State) : (platformReset s).value = State.reset.value := rfl
@[simp] theorem platformReset_rlen (s : State) : (platformReset s).rlen = State.reset.rlen := rfl
@[simp] theorem platformReset_localAddr (s : State) : (platformReset s).localAddr = State.reset.localAddr := rfl
@[simp] theorem platformReset_need (s : State) : (platformReset s).need = State.reset.need := rfl
@[simp] theorem platformReset_sfunc (s : State) : (platformReset s).sfunc = State.reset.sfunc := rfl
@[simp] theorem platformReset_bcount (s : State) : (platformReset s).bcount = State.reset.bcount := rfl
@[simp] theorem platformReset_mem (s : State) : (platformReset s).mem = State.reset.mem := rfl
@[simp] theorem platformReset_baseSlot (s : State) : (platformReset s).baseSlot = s.baseSlot := rfl
@[simp] theorem platformReset_pending (s : State) : (platformReset s).pending = s.pending := rfl
@[simp] theorem platformReset_replies (s : State) : (platformReset s).replies = s.replies := rfl
@[simp] theorem platformReset_performed (s : State) : (platformReset s).performed = s.performed := rfl

/-! `State.ended` writes STATUS.CODE, ISEXC, EXCP and OLEN. -/

@[simp] theorem ended_status (s : State) (c : Status) : (s.ended c).status = { s.status with code := c, isExc := false, excp := false } := rfl
@[simp] theorem ended_addr (s : State) (c : Status) : (s.ended c).addr = s.addr := rfl
@[simp] theorem ended_func (s : State) (c : Status) : (s.ended c).func = s.func := rfl
@[simp] theorem ended_len (s : State) (c : Status) : (s.ended c).len = s.len := rfl
@[simp] theorem ended_cap (s : State) (c : Status) : (s.ended c).cap = s.cap := rfl
@[simp] theorem ended_olen (s : State) (c : Status) : (s.ended c).olen = 0 := rfl
@[simp] theorem ended_crc (s : State) (c : Status) : (s.ended c).crc = s.crc := rfl
@[simp] theorem ended_exc (s : State) (c : Status) : (s.ended c).exc = s.exc := rfl
@[simp] theorem ended_regAddr (s : State) (c : Status) : (s.ended c).regAddr = s.regAddr := rfl
@[simp] theorem ended_count (s : State) (c : Status) : (s.ended c).count = s.count := rfl
@[simp] theorem ended_value (s : State) (c : Status) : (s.ended c).value = s.value := rfl
@[simp] theorem ended_rlen (s : State) (c : Status) : (s.ended c).rlen = s.rlen := rfl
@[simp] theorem ended_localAddr (s : State) (c : Status) : (s.ended c).localAddr = s.localAddr := rfl
@[simp] theorem ended_need (s : State) (c : Status) : (s.ended c).need = s.need := rfl
@[simp] theorem ended_sfunc (s : State) (c : Status) : (s.ended c).sfunc = s.sfunc := rfl
@[simp] theorem ended_bcount (s : State) (c : Status) : (s.ended c).bcount = s.bcount := rfl
@[simp] theorem ended_mem (s : State) (c : Status) : (s.ended c).mem = s.mem := rfl
@[simp] theorem ended_baseSlot (s : State) (c : Status) : (s.ended c).baseSlot = s.baseSlot := rfl
@[simp] theorem ended_pending (s : State) (c : Status) : (s.ended c).pending = s.pending := rfl
@[simp] theorem ended_replies (s : State) (c : Status) : (s.ended c).replies = s.replies := rfl
@[simp] theorem ended_performed (s : State) (c : Status) : (s.ended c).performed = s.performed := rfl

/-! `State.endedIn` writes what `ended` writes, and SPHASE. -/

@[simp] theorem endedIn_status (s : State) (c : Status) (p : Phase) : (s.endedIn c p).status = { s.status with code := c, isExc := false, excp := false, sphase := p } := rfl
@[simp] theorem endedIn_addr (s : State) (c : Status) (p : Phase) : (s.endedIn c p).addr = s.addr := rfl
@[simp] theorem endedIn_func (s : State) (c : Status) (p : Phase) : (s.endedIn c p).func = s.func := rfl
@[simp] theorem endedIn_len (s : State) (c : Status) (p : Phase) : (s.endedIn c p).len = s.len := rfl
@[simp] theorem endedIn_cap (s : State) (c : Status) (p : Phase) : (s.endedIn c p).cap = s.cap := rfl
@[simp] theorem endedIn_olen (s : State) (c : Status) (p : Phase) : (s.endedIn c p).olen = 0 := rfl
@[simp] theorem endedIn_crc (s : State) (c : Status) (p : Phase) : (s.endedIn c p).crc = s.crc := rfl
@[simp] theorem endedIn_exc (s : State) (c : Status) (p : Phase) : (s.endedIn c p).exc = s.exc := rfl
@[simp] theorem endedIn_regAddr (s : State) (c : Status) (p : Phase) : (s.endedIn c p).regAddr = s.regAddr := rfl
@[simp] theorem endedIn_count (s : State) (c : Status) (p : Phase) : (s.endedIn c p).count = s.count := rfl
@[simp] theorem endedIn_value (s : State) (c : Status) (p : Phase) : (s.endedIn c p).value = s.value := rfl
@[simp] theorem endedIn_rlen (s : State) (c : Status) (p : Phase) : (s.endedIn c p).rlen = s.rlen := rfl
@[simp] theorem endedIn_localAddr (s : State) (c : Status) (p : Phase) : (s.endedIn c p).localAddr = s.localAddr := rfl
@[simp] theorem endedIn_need (s : State) (c : Status) (p : Phase) : (s.endedIn c p).need = s.need := rfl
@[simp] theorem endedIn_sfunc (s : State) (c : Status) (p : Phase) : (s.endedIn c p).sfunc = s.sfunc := rfl
@[simp] theorem endedIn_bcount (s : State) (c : Status) (p : Phase) : (s.endedIn c p).bcount = s.bcount := rfl
@[simp] theorem endedIn_mem (s : State) (c : Status) (p : Phase) : (s.endedIn c p).mem = s.mem := rfl
@[simp] theorem endedIn_baseSlot (s : State) (c : Status) (p : Phase) : (s.endedIn c p).baseSlot = s.baseSlot := rfl
@[simp] theorem endedIn_pending (s : State) (c : Status) (p : Phase) : (s.endedIn c p).pending = s.pending := rfl
@[simp] theorem endedIn_replies (s : State) (c : Status) (p : Phase) : (s.endedIn c p).replies = s.replies := rfl
@[simp] theorem endedIn_performed (s : State) (c : Status) (p : Phase) : (s.endedIn c p).performed = s.performed := rfl

/-! `State.endedParse` writes what `ended` writes, and EXC. -/

@[simp] theorem endedParse_status (s : State) (c : Status) : (s.endedParse c).status = { s.status with code := c, isExc := false, excp := false } := rfl
@[simp] theorem endedParse_addr (s : State) (c : Status) : (s.endedParse c).addr = s.addr := rfl
@[simp] theorem endedParse_func (s : State) (c : Status) : (s.endedParse c).func = s.func := rfl
@[simp] theorem endedParse_len (s : State) (c : Status) : (s.endedParse c).len = s.len := rfl
@[simp] theorem endedParse_cap (s : State) (c : Status) : (s.endedParse c).cap = s.cap := rfl
@[simp] theorem endedParse_olen (s : State) (c : Status) : (s.endedParse c).olen = 0 := rfl
@[simp] theorem endedParse_crc (s : State) (c : Status) : (s.endedParse c).crc = s.crc := rfl
@[simp] theorem endedParse_exc (s : State) (c : Status) : (s.endedParse c).exc = 0 := rfl
@[simp] theorem endedParse_regAddr (s : State) (c : Status) : (s.endedParse c).regAddr = s.regAddr := rfl
@[simp] theorem endedParse_count (s : State) (c : Status) : (s.endedParse c).count = s.count := rfl
@[simp] theorem endedParse_value (s : State) (c : Status) : (s.endedParse c).value = s.value := rfl
@[simp] theorem endedParse_rlen (s : State) (c : Status) : (s.endedParse c).rlen = s.rlen := rfl
@[simp] theorem endedParse_localAddr (s : State) (c : Status) : (s.endedParse c).localAddr = s.localAddr := rfl
@[simp] theorem endedParse_need (s : State) (c : Status) : (s.endedParse c).need = s.need := rfl
@[simp] theorem endedParse_sfunc (s : State) (c : Status) : (s.endedParse c).sfunc = s.sfunc := rfl
@[simp] theorem endedParse_bcount (s : State) (c : Status) : (s.endedParse c).bcount = s.bcount := rfl
@[simp] theorem endedParse_mem (s : State) (c : Status) : (s.endedParse c).mem = s.mem := rfl
@[simp] theorem endedParse_baseSlot (s : State) (c : Status) : (s.endedParse c).baseSlot = s.baseSlot := rfl
@[simp] theorem endedParse_pending (s : State) (c : Status) : (s.endedParse c).pending = s.pending := rfl
@[simp] theorem endedParse_replies (s : State) (c : Status) : (s.endedParse c).replies = s.replies := rfl
@[simp] theorem endedParse_performed (s : State) (c : Status) : (s.endedParse c).performed = s.performed := rfl

/-! `StatusReg.cleared` and `StatusReg.reporting` write ISEXC and EXCP. -/

@[simp] theorem cleared_code (r : StatusReg) : r.cleared.code = r.code := rfl
@[simp] theorem cleared_isExc (r : StatusReg) : r.cleared.isExc = false := rfl
@[simp] theorem cleared_excp (r : StatusReg) : r.cleared.excp = false := rfl
@[simp] theorem cleared_init (r : StatusReg) : r.cleared.init = r.init := rfl
@[simp] theorem cleared_sphase (r : StatusReg) : r.cleared.sphase = r.sphase := rfl
@[simp] theorem reporting_code (r : StatusReg) (ec : Option Byte) : (r.reporting ec).code = r.code := rfl
@[simp] theorem reporting_isExc (r : StatusReg) (ec : Option Byte) : (r.reporting ec).isExc = true := rfl
@[simp] theorem reporting_excp (r : StatusReg) (ec : Option Byte) : (r.reporting ec).excp = (r.excp || ec.isSome) := rfl
@[simp] theorem reporting_init (r : StatusReg) (ec : Option Byte) : (r.reporting ec).init = r.init := rfl
@[simp] theorem reporting_sphase (r : StatusReg) (ec : Option Byte) : (r.reporting ec).sphase = r.sphase := rfl

end Sys2Proof.Machine
end

