-- ==== Sys2Proof/Laws/Memory.lean ====
section
/-! SUPPORT. The laws of memory: a read after a write, the canonical form kept by every write, and that two canonical
memories that read the same are equal. -/

namespace Sys2Proof.Machine.Memory

/-- A byte reads back after its write, and every other offset reads as before. -/
theorem read_write (m : List Host.Cell) (x : Nat) (v : Byte) (y : Nat) :
    read (write m x v) y = if y = x then some v else read m y := by
  induction m with
  | nil => simp [write, read]
  | cons c m ih =>
    obtain ⟨a, w⟩ := c
    simp only [write]
    split
    · simp [read]
    · split
      · subst_vars; simp [read]; split <;> rfl
      · simp only [read, ih]
        split <;> split <;> simp_all

/-- Every cell's offset of the memory lies above `a` at its head. -/
def above (a : Nat) : List Host.Cell → Prop
  | [] => True
  | (b, _) :: _ => a < b

theorem wf_cons (a : Nat) (v : Byte) (m : List Host.Cell) :
    wf ((a, v) :: m) = true ↔ above a m ∧ wf m = true := by
  cases m with
  | nil => simp [wf, above]
  | cons c m => obtain ⟨b, w⟩ := c; simp [wf, above]

theorem above_write {a x : Nat} {m : List Host.Cell} (v : Byte) (h : above a m) (hx : a < x) :
    above a (write m x v) := by
  cases m with
  | nil => simpa [write, above] using hx
  | cons c m =>
    obtain ⟨b, w⟩ := c
    simp only [write]
    split
    · simpa [above] using hx
    · split <;> simpa [above] using by first | exact hx | exact h

/-- A write keeps the canonical form. -/
theorem wf_write {m : List Host.Cell} (x : Nat) (v : Byte) (h : wf m = true) : wf (write m x v) = true := by
  induction m with
  | nil => simp [write, wf]
  | cons c m ih =>
    obtain ⟨a, w⟩ := c
    have h' := (wf_cons a w m).mp h
    simp only [write]
    split
    · rw [wf_cons]; exact ⟨by simpa [above] using ‹_›, h⟩
    · split
      · subst_vars; rw [wf_cons]; exact h'
      · rw [wf_cons]; exact ⟨above_write v h'.1 (by omega), ih h'.2⟩

/-- Storing bytes keeps the canonical form. -/
theorem wf_writeAll {m : List Host.Cell} (x : Nat) (bs : List Byte) (h : wf m = true) : wf (writeAll m x bs) = true := by
  induction bs generalizing m x with
  | nil => exact h
  | cons b bs ih => exact ih (x + 1) (wf_write x b h)

/-- What every offset reads as after bytes are stored. -/
theorem read_writeAll (m : List Host.Cell) (x : Nat) (bs : List Byte) (y : Nat) :
    read (writeAll m x bs) y = if x ≤ y ∧ y < x + bs.length then bs[y - x]? else read m y := by
  induction bs generalizing m x with
  | nil => simp only [writeAll, List.length_nil]; rw [if_neg (by omega)]
  | cons b bs ih =>
    simp only [writeAll, ih, read_write, List.length_cons]
    by_cases h1 : y = x
    · subst h1
      rw [if_neg (by omega), if_pos rfl, if_pos (by omega)]; simp
    · by_cases h2 : x + 1 ≤ y ∧ y < x + 1 + bs.length
      · rw [if_pos h2, if_pos (by omega)]
        have : y - x = (y - (x + 1)) + 1 := by omega
        rw [this, List.getElem?_cons_succ]
      · rw [if_neg h2, if_neg h1, if_neg (by omega)]

/-- Storing bytes stores them and leaves the rest of memory as it was. -/
theorem stored_writeAll (m : List Host.Cell) (x : Nat) (bs : List Byte) : Stored m (writeAll m x bs) x bs := by
  constructor
  · intro k hk
    rw [read_writeAll, if_pos (by omega)]
    congr 1; omega
  · intro y hy
    rw [read_writeAll, if_neg (by omega)]

theorem mem_write {m : List Host.Cell} {x : Nat} {v : Byte} {c : Host.Cell} (h : c ∈ write m x v) : c = (x, v) ∨ c ∈ m := by
  induction m with
  | nil => simpa [write] using h
  | cons d m ih =>
    obtain ⟨a, w⟩ := d
    simp only [write] at h
    split at h
    · simpa using h
    · split at h
      · subst_vars; rcases List.mem_cons.mp h with h | h
        · exact .inl h
        · exact .inr (List.mem_cons_of_mem _ h)
      · rcases List.mem_cons.mp h with h | h
        · exact .inr (h ▸ List.mem_cons_self)
        · exact (ih h).imp id (List.mem_cons_of_mem _)

/-- Bytes stored inside the buffers keep every listed offset inside the buffers. -/
theorem inBuffers_writeAll {m : List Host.Cell} {x : Nat} {bs : List Byte} (h : inBuffers m) (hx : 0x100 ≤ x)
    (hb : x + bs.length ≤ 0x300) : inBuffers (writeAll m x bs) := by
  induction bs generalizing m x with
  | nil => exact h
  | cons b bs ih =>
    simp only [List.length_cons] at hb
    refine ih ?_ (by omega) (by omega)
    intro c hc
    rcases mem_write hc with rfl | hc
    · exact ⟨hx, by simp; omega⟩
    · exact h c hc

/-- Nothing is listed at or below an offset that the whole list lies above. -/
theorem read_eq_none_of_above {a : Nat} {m : List Host.Cell} (h : above a m) (hw : wf m = true) {x : Nat} (hx : x ≤ a) :
    read m x = none := by
  induction m generalizing a with
  | nil => rfl
  | cons c m ih =>
    obtain ⟨b, w⟩ := c
    have hb : a < b := h
    have h' := (wf_cons b w m).mp hw
    simp only [read]
    rw [if_neg (by omega)]
    exact ih h'.1 h'.2 (by omega)

/-- Two canonical memories that read the same at every offset are equal. -/
theorem ext {m m' : List Host.Cell} (hm : wf m = true) (hm' : wf m' = true) (h : ∀ x, read m x = read m' x) : m = m' := by
  induction m generalizing m' with
  | nil =>
    cases m' with
    | nil => rfl
    | cons c m' => have := h c.1; simp [read] at this
  | cons c m ih =>
    obtain ⟨a, v⟩ := c
    have hc := (wf_cons a v m).mp hm
    cases m' with
    | nil => have := h a; simp [read] at this
    | cons d m' =>
      obtain ⟨b, w⟩ := d
      have hd := (wf_cons b w m').mp hm'
      have hab : a = b := by
        by_contra hne
        rcases Nat.lt_or_ge a b with hlt | hge
        · have h1 := h a
          simp only [read, if_true, if_neg hne] at h1
          rw [read_eq_none_of_above hd.1 hd.2 (by omega)] at h1
          cases h1
        · have h1 := h b
          have hne' : b ≠ a := fun e => hne e.symm
          simp only [read, if_true, if_neg hne'] at h1
          rw [read_eq_none_of_above hc.1 hc.2 (by omega)] at h1
          cases h1
      subst hab
      have hv : v = w := by have := h a; simpa [read] using this
      subst hv
      have : m = m' := by
        refine ih hc.2 hd.2 fun x => ?_
        by_cases hx : x = a
        · subst hx
          rw [read_eq_none_of_above hc.1 hc.2 (le_refl _), read_eq_none_of_above hd.1 hd.2 (le_refl _)]
        · have := h x; simpa [read, hx] using this
      rw [this]

end Sys2Proof.Machine.Memory
end

