-- ==== Sys2Proof/Laws/Read.lean ====
section
/-! SUPPORT. What a read of the buffers answers: exactly the bytes it finds, or the refusal of an unwritten byte. And
the inversion of `andThen`. -/

namespace Sys2Proof.Machine

@[simp] theorem andThen_next {α β : Type} (a : α) (k : α → Result β) : andThen (.next a) k = k a := rfl
@[simp] theorem andThen_fault {α β : Type} (f : Fault) (k : α → Result β) : andThen (.fault f) k = .fault f := rfl
@[simp] theorem andThen_refused {α β : Type} (q : Refusal) (k : α → Result β) : andThen (.refused q) k = .refused q := rfl

/-- A next result of `andThen` comes from a next result of its first part. -/
theorem andThen_eq_next {α β : Type} {r : Result α} {k : α → Result β} {b : β} (h : andThen r k = .next b) :
    ∃ a, r = .next a ∧ k a = .next b := by
  cases r with
  | next a => exact ⟨a, rfl, h⟩
  | fault f => cases h
  | refused q => cases h

/-- Nothing faults: there is no fault (R124, R276). -/
theorem ne_fault {α : Type} (r : Result α) (f : Fault) : r ≠ .fault f := nomatch f

/-- A refusal of `andThen` comes from one of its parts. -/
theorem andThen_eq_refused {α β : Type} {r : Result α} {k : α → Result β} {q : Refusal} (h : andThen r k = .refused q) :
    r = .refused q ∨ ∃ a, r = .next a ∧ k a = .refused q := by
  cases r with
  | next a => exact .inr ⟨a, rfl, h⟩
  | fault g => cases h
  | refused q' => exact .inl (by cases h; rfl)

/-! ## The bytes a state holds -/

/-- What the buffers hold depends on memory alone. -/
theorem byteAt_congr {s t : State} (h : t.mem = s.mem) (b : Buffer) (i : Nat) : t.byteAt b i = s.byteAt b i := by
  simp [State.byteAt, h]

theorem byteAt_lt {s : State} {b : Buffer} {i : Nat} {v : Byte} (h : s.byteAt b i = some v) : i < 256 := by
  by_contra hn
  simp [State.byteAt, Config.bufferSize, hn] at h

theorem byteAt_of_lt {s : State} {b : Buffer} {i : Nat} (h : i < 256) : s.byteAt b i = Memory.read s.mem (b.base + i) := by
  simp [State.byteAt, Config.bufferSize, h]

theorem holds_congr {s t : State} (h : t.mem = s.mem) (b : Buffer) (i : Nat) (bs : List Byte) :
    t.Holds b i bs ↔ s.Holds b i bs := by
  simp [State.Holds, byteAt_congr h]

@[simp] theorem holds_nil (s : State) (b : Buffer) (i : Nat) : s.Holds b i [] := by
  intro k hk; simp at hk

theorem holds_cons {s : State} {b : Buffer} {i : Nat} {v : Byte} {vs : List Byte} :
    s.Holds b i (v :: vs) ↔ s.byteAt b i = some v ∧ s.Holds b (i + 1) vs := by
  constructor
  · intro h
    refine ⟨by simpa using h 0 (by simp), fun k hk => ?_⟩
    have := h (k + 1) (by simpa using hk)
    simpa [Nat.add_assoc, Nat.add_comm 1 k] using this
  · rintro ⟨h0, h1⟩ k hk
    cases k with
    | zero => simpa using h0
    | succ k =>
      have := h1 k (by simpa using hk)
      simpa [Nat.add_assoc, Nat.add_comm 1 k] using this

theorem holds_append {s : State} {b : Buffer} {i : Nat} {xs ys : List Byte} :
    s.Holds b i (xs ++ ys) ↔ s.Holds b i xs ∧ s.Holds b (i + xs.length) ys := by
  induction xs generalizing i with
  | nil => simp
  | cons x xs ih =>
    simp only [List.cons_append, holds_cons, ih, List.length_cons]
    rw [show i + 1 + xs.length = i + (xs.length + 1) by omega]
    tauto

/-- A non-empty run of held bytes lies inside the buffer. -/
theorem holds_bound {s : State} {b : Buffer} {i : Nat} {bs : List Byte} (h : s.Holds b i bs) (hne : bs ≠ []) :
    i + bs.length ≤ 256 := by
  have hpos : 0 < bs.length := List.length_pos_iff.mpr hne
  have h1 := h (bs.length - 1) (by omega)
  rw [List.getElem?_eq_getElem (by omega)] at h1
  have := byteAt_lt h1
  omega

/-- Two runs of the same length at the same place hold the same bytes. -/
theorem holds_unique {s : State} {b : Buffer} {i : Nat} {xs ys : List Byte} (hx : s.Holds b i xs) (hy : s.Holds b i ys)
    (hl : xs.length = ys.length) : xs = ys := by
  apply List.ext_getElem? fun k => ?_
  by_cases hk : k < xs.length
  · rw [← hx k hk, ← hy k (by omega)]
  · rw [List.getElem?_eq_none (by omega), List.getElem?_eq_none (by omega)]

/-- Bytes that were stored at a place of a buffer are held there. -/
theorem holds_of_stored {s t : State} {b : Buffer} {i : Nat} {bs : List Byte} (h : Stored s.mem t.mem (b.base + i) bs)
    (hb : i + bs.length ≤ 256) : t.Holds b i bs := by
  intro k hk
  rw [byteAt_of_lt (by omega), ← h.1 k hk]
  congr 1; omega

/-! ## What a command finds -/

/-- Inside a buffer a command finds what is held there. -/
theorem foundAt_of_lt {s : State} {b : Buffer} {i : Nat} (h : i < 256) : s.foundAt b i = s.byteAt b i := if_pos h

/-- Past its end it finds a free value, whatever the buffer holds. -/
theorem foundAt_of_ge {s : State} {b : Buffer} {i : Nat} (h : 256 ≤ i) :
    s.foundAt b i = some (Config.freeByte s.performed i) := if_neg (Nat.not_lt.mpr h)

/-- A byte that is held is found. -/
theorem foundAt_of_byteAt {s : State} {b : Buffer} {i : Nat} {v : Byte} (h : s.byteAt b i = some v) : s.foundAt b i = some v := by
  by_cases hi : i < 256
  · rw [foundAt_of_lt hi, h]
  · simp [State.byteAt, hi] at h

/-- Nothing is found exactly at an unwritten byte. -/
theorem foundAt_eq_none {s : State} {b : Buffer} {i : Nat} : s.foundAt b i = none ↔ i < 256 ∧ s.byteAt b i = none := by
  by_cases hi : i < 256
  · simp [foundAt_of_lt hi, hi]
  · simp [foundAt_of_ge (Nat.not_lt.mp hi), hi]

theorem foundAt_congr {s t : State} (h : t.mem = s.mem) (hp : t.performed = s.performed) (b : Buffer) (i : Nat) :
    t.foundAt b i = s.foundAt b i := by
  simp [State.foundAt, byteAt_congr h, hp]

@[simp] theorem finds_nil (s : State) (b : Buffer) (i : Nat) : s.Finds b i [] := fun _ h => absurd h (by simp)

theorem finds_cons {s : State} {b : Buffer} {i : Nat} {v : Byte} {vs : List Byte} :
    s.Finds b i (v :: vs) ↔ s.foundAt b i = some v ∧ s.Finds b (i + 1) vs := by
  constructor
  · intro h
    exact ⟨h 0 (by simp), fun k hk => by
      have := h (k + 1) (by simpa using hk)
      rw [show i + 1 + k = i + (k + 1) by omega, this]; rfl⟩
  · rintro ⟨h0, h⟩ k hk
    cases k with
    | zero => simpa using h0
    | succ k =>
      rw [show i + (k + 1) = i + 1 + k by omega, h k (by simpa using hk)]; rfl

/-- Held bytes are found. -/
theorem finds_of_holds {s : State} {b : Buffer} {i : Nat} {bs : List Byte} (h : s.Holds b i bs) : s.Finds b i bs := fun k hk => by
  rw [List.getElem?_eq_getElem hk]
  exact foundAt_of_byteAt (by rw [h k hk, List.getElem?_eq_getElem hk])

/-- Inside a buffer, to find bytes is to hold them. -/
theorem finds_iff_holds {s : State} {b : Buffer} {i : Nat} {bs : List Byte} (hb : i + bs.length ≤ 256) :
    s.Finds b i bs ↔ s.Holds b i bs :=
  ⟨fun h k hk => by rw [← foundAt_of_lt (by omega), h k hk], finds_of_holds⟩

theorem finds_congr {s t : State} (h : t.mem = s.mem) (hp : t.performed = s.performed) (b : Buffer) (i : Nat) (bs : List Byte) :
    t.Finds b i bs ↔ s.Finds b i bs := by
  simp [State.Finds, foundAt_congr h hp]

/-- What a command finds on from one place is one sequence of each length. -/
theorem finds_unique {s : State} {b : Buffer} {i : Nat} {xs ys : List Byte} (hx : s.Finds b i xs) (hy : s.Finds b i ys)
    (hl : xs.length = ys.length) : xs = ys := by
  apply List.ext_getElem? fun k => ?_
  by_cases hk : k < xs.length
  · rw [← hx k hk, ← hy k (by omega)]
  · rw [List.getElem?_eq_none (by omega), List.getElem?_eq_none (by omega)]

/-- Where no byte is unwritten, a command finds bytes. -/
theorem exists_finds {s : State} {b : Buffer} (n : Nat) {i : Nat} (h : ∀ k, k < n → s.foundAt b (i + k) ≠ none) :
    ∃ bs : List Byte, bs.length = n ∧ s.Finds b i bs := by
  induction n generalizing i with
  | zero => exact ⟨[], rfl, finds_nil s b i⟩
  | succ n ih =>
    obtain ⟨v, hv⟩ := Option.ne_none_iff_exists'.mp (h 0 (by omega))
    obtain ⟨bs, hl, hb⟩ := ih (i := i + 1) fun k hk => by
      rw [show i + 1 + k = i + (k + 1) by omega]; exact h _ (by omega)
    exact ⟨v :: bs, by simp [hl], finds_cons.mpr ⟨hv, hb⟩⟩

/-! ## Reading -/

/-- `readByte` answers what is found. -/
theorem readByte_eq_found {s : State} {b : Buffer} {i : Nat} {v : Byte} :
    readByte s b i = .next v ↔ s.foundAt b i = some v := by
  unfold readByte
  cases h : s.foundAt b i <;> simp

/-- Inside a buffer, `readByte` answers the byte that is held. -/
theorem readByte_eq_next {s : State} {b : Buffer} {i : Nat} {v : Byte} (hi : i < 256) :
    readByte s b i = .next v ↔ s.byteAt b i = some v := by
  rw [readByte_eq_found, foundAt_of_lt hi]

/-- A byte that is held is read. -/
theorem readByte_of_byteAt {s : State} {b : Buffer} {i : Nat} {v : Byte} (h : s.byteAt b i = some v) : readByte s b i = .next v :=
  readByte_eq_found.mpr (foundAt_of_byteAt h)

/-- `readByte` refuses an unwritten byte, and nothing else. -/
theorem readByte_eq_refused {s : State} {b : Buffer} {i : Nat} {q : Refusal} :
    readByte s b i = .refused q ↔ q = .unwrittenByte ∧ i < 256 ∧ s.byteAt b i = none := by
  rw [← foundAt_eq_none]
  unfold readByte
  cases h : s.foundAt b i <;> simp [eq_comm]

/-- `readBytes` answers exactly the bytes that are found. -/
theorem readBytes_eq_found {s : State} {b : Buffer} {i n : Nat} {bs : List Byte} :
    readBytes s b i n = .next bs ↔ bs.length = n ∧ s.Finds b i bs := by
  induction n generalizing i bs with
  | zero =>
    simp only [readBytes]
    constructor
    · intro h; cases h; simp
    · rintro ⟨h, -⟩; rw [List.length_eq_zero_iff.mp h]
  | succ n ih =>
    simp only [readBytes]
    constructor
    · intro h
      obtain ⟨v, hv, h⟩ := andThen_eq_next h
      obtain ⟨vs, hvs, h⟩ := andThen_eq_next h
      cases h
      rw [readByte_eq_found] at hv
      rw [ih] at hvs
      exact ⟨by simp [hvs.1], finds_cons.mpr ⟨hv, hvs.2⟩⟩
    · rintro ⟨hl, hh⟩
      cases bs with
      | nil => simp at hl
      | cons v vs =>
        obtain ⟨h0, h1⟩ := finds_cons.mp hh
        rw [readByte_eq_found.mpr h0]
        simp only [andThen_next]
        rw [ih.mpr ⟨by simpa using hl, h1⟩]
        rfl

/-- Inside a buffer, `readBytes` answers exactly the bytes that are held. -/
theorem readBytes_eq_next {s : State} {b : Buffer} {i n : Nat} {bs : List Byte} (hb : i + n ≤ 256) :
    readBytes s b i n = .next bs ↔ bs.length = n ∧ s.Holds b i bs := by
  rw [readBytes_eq_found]
  exact and_congr_right fun hl => finds_iff_holds (by omega)

/-- Found bytes are read. -/
theorem readBytes_of_finds {s : State} {b : Buffer} {i : Nat} {bs : List Byte} (h : s.Finds b i bs) :
    readBytes s b i bs.length = .next bs := readBytes_eq_found.mpr ⟨rfl, h⟩

/-- Held bytes are read. -/
theorem readBytes_of_holds {s : State} {b : Buffer} {i : Nat} {bs : List Byte} (h : s.Holds b i bs) :
    readBytes s b i bs.length = .next bs := readBytes_of_finds (finds_of_holds h)

/-- `readBytes` is refused exactly when one of the bytes on its path is unwritten. -/
theorem readBytes_eq_refused {s : State} {b : Buffer} {i n : Nat} {q : Refusal} :
    readBytes s b i n = .refused q ↔ q = .unwrittenByte ∧ ∃ k, k < n ∧ i + k < 256 ∧ s.byteAt b (i + k) = none := by
  induction n generalizing i with
  | zero => simp [readBytes]
  | succ n ih =>
    simp only [readBytes]
    cases h0 : s.foundAt b i with
    | none =>
      obtain ⟨hi, hn⟩ := foundAt_eq_none.mp h0
      rw [readByte_eq_refused.mpr ⟨rfl, hi, hn⟩, andThen_refused]
      constructor
      · intro h; cases h; exact ⟨rfl, 0, by omega, hi, hn⟩
      · rintro ⟨rfl, -⟩; rfl
    | some v =>
      rw [readByte_eq_found.mpr h0, andThen_next]
      have : andThen (readBytes s b (i + 1) n) (fun vs => .next (v :: vs)) = .refused q ↔ readBytes s b (i + 1) n = .refused q := by
        cases readBytes s b (i + 1) n <;> simp [andThen]
      rw [this, ih]
      refine and_congr_right fun _ => ⟨?_, ?_⟩
      · rintro ⟨k, hk, hi, hn⟩
        exact ⟨k + 1, by omega, by omega, by rw [← hn]; congr 1; omega⟩
      · rintro ⟨k, hk, hi, hn⟩
        cases k with
        | zero => rw [Nat.add_zero] at hi hn; rw [foundAt_of_lt hi, hn] at h0; cases h0
        | succ k => exact ⟨k, by omega, by omega, by rw [← hn]; congr 1; omega⟩

/-- Inside a buffer, a read with an unwritten byte on its path is refused. -/
theorem readBytes_refused {s : State} {b : Buffer} {i n : Nat} (hb : i + n ≤ 256) (h : s.SomeUnwritten b i n) :
    readBytes s b i n = .refused .unwrittenByte := by
  obtain ⟨k, hk, hn⟩ := h
  exact readBytes_eq_refused.mpr ⟨rfl, k, hk, by omega, hn⟩

/-- Inside a buffer, a read either answers held bytes or is refused for an unwritten one. -/
theorem readBytes_cases (s : State) (b : Buffer) {i n : Nat} (hb : i + n ≤ 256) :
    (∃ bs, readBytes s b i n = .next bs ∧ bs.length = n ∧ s.Holds b i bs) ∨
      (readBytes s b i n = .refused .unwrittenByte ∧ s.SomeUnwritten b i n) := by
  cases h : readBytes s b i n with
  | next bs => exact .inl ⟨bs, rfl, (readBytes_eq_next hb).mp h⟩
  | fault f => cases f
  | refused q =>
    obtain ⟨rfl, k, hk, -, hn⟩ := readBytes_eq_refused.mp h
    exact .inr ⟨rfl, k, hk, hn⟩

/-- Reads depend on memory alone, and past a buffer's end on the counter of free values. -/
theorem readByte_congr {s t : State} (h : t.mem = s.mem) (b : Buffer) (i : Nat) (hp : t.performed = s.performed := by rfl) :
    readByte t b i = readByte s b i := by
  simp [readByte, foundAt_congr h hp]

theorem readBytes_congr {s t : State} (h : t.mem = s.mem) (b : Buffer) (i n : Nat) (hp : t.performed = s.performed := by rfl) :
    readBytes t b i n = readBytes s b i n := by
  induction n generalizing i with
  | zero => rfl
  | succ n ih => simp only [readBytes, readByte_congr h b i hp, ih]

theorem readField_congr {s t : State} (h : t.mem = s.mem) (i : Nat) (hp : t.performed = s.performed := by rfl) :
    readField i t = readField i s := by
  simp [readField, readByte_congr h _ _ hp]

theorem readFields_congr {s t : State} (h : t.mem = s.mem) (i n : Nat) (hp : t.performed = s.performed := by rfl) :
    readFields i n t = readFields i n s := by
  simp [readFields, readBytes_congr h _ _ _ hp]

end Sys2Proof.Machine
end

