-- ==== Sys2Proof/Laws/Codec.lean ====
section
/-! SUPPORT. The byte helpers undo each other: fields and bytes, register values and their images, the variable tail of a frame.
And what `examineFrame` answers on each kind of frame. -/

namespace Sys2Proof.Machine

/-! ## Fields -/

@[simp] theorem be16_hi8_lo8 (v : Half) : be16 (hi8 v) (lo8 v) = v := by
  apply BitVec.eq_of_getLsbD_eq
  intro i hi
  simp only [be16, hi8, lo8, BitVec.getLsbD_append, BitVec.getLsbD_extractLsb']
  split
  · simp [*]
  · rw [show 8 + (i - 8) = i by omega]; simp; omega

@[simp] theorem le16_lo8_hi8 (v : Half) : le16 (lo8 v) (hi8 v) = v := be16_hi8_lo8 v

@[simp] theorem hi8_be16 (h l : Byte) : hi8 (be16 h l) = h := by
  apply BitVec.eq_of_getLsbD_eq
  intro i hi
  simp only [be16, hi8, BitVec.getLsbD_extractLsb', BitVec.getLsbD_append]
  simp [hi]

@[simp] theorem lo8_be16 (h l : Byte) : lo8 (be16 h l) = l := by
  apply BitVec.eq_of_getLsbD_eq
  intro i hi
  simp only [be16, lo8, BitVec.getLsbD_extractLsb', BitVec.getLsbD_append]
  simp [hi]

@[simp] theorem hi8_le16 (l h : Byte) : hi8 (le16 l h) = h := hi8_be16 h l
@[simp] theorem lo8_le16 (l h : Byte) : lo8 (le16 l h) = l := lo8_be16 h l

@[simp] theorem length_beBytes (v : Half) : (beBytes v).length = 2 := rfl
@[simp] theorem length_leBytes (v : Half) : (leBytes v).length = 2 := rfl

theorem leBytes_injective {c d : Half} (h : leBytes c = leBytes d) : c = d := by
  simp only [leBytes, List.cons.injEq, and_true] at h
  rw [← le16_lo8_hi8 c, ← le16_lo8_hi8 d, h.1, h.2]

theorem beBytes_injective {c d : Half} (h : beBytes c = beBytes d) : c = d := by
  simp only [beBytes, List.cons.injEq, and_true] at h
  rw [← be16_hi8_lo8 c, ← be16_hi8_lo8 d, h.1, h.2]

/-! ## Register values -/

@[simp] theorem wireRegs_nil : wireRegs [] = [] := rfl
@[simp] theorem wireRegs_cons (v : Half) (vs : List Half) : wireRegs (v :: vs) = hi8 v :: lo8 v :: wireRegs vs := rfl
@[simp] theorem viewRegs_nil : viewRegs [] = [] := rfl
@[simp] theorem viewRegs_cons (v : Half) (vs : List Half) : viewRegs (v :: vs) = lo8 v :: hi8 v :: viewRegs vs := rfl

@[simp] theorem length_wireRegs (vs : List Half) : (wireRegs vs).length = 2 * vs.length := by
  induction vs with
  | nil => rfl
  | cons v vs ih => simp [ih]; omega

@[simp] theorem length_viewRegs (vs : List Half) : (viewRegs vs).length = 2 * vs.length := by
  induction vs with
  | nil => rfl
  | cons v vs ih => simp [ih]; omega

@[simp] theorem beValues_wireRegs (vs : List Half) : beValues (wireRegs vs) = vs := by
  induction vs with
  | nil => rfl
  | cons v vs ih => simp [beValues, ih]

@[simp] theorem leValues_viewRegs (vs : List Half) : leValues (viewRegs vs) = vs := by
  induction vs with
  | nil => rfl
  | cons v vs ih => simp [leValues, ih]

/-- An even number of bytes is the register view of its values. -/
theorem viewRegs_leValues {n : Nat} {bs : List Byte} (h : bs.length = 2 * n) :
    viewRegs (leValues bs) = bs ∧ (leValues bs).length = n := by
  induction n generalizing bs with
  | zero => rw [List.length_eq_zero_iff.mp h]; simp [leValues]
  | succ n ih =>
    match bs, h with
    | l :: r :: rest, h =>
      have := ih (bs := rest) (by simp at h; omega)
      simp [leValues, this.1, this.2]

/-- An even number of bytes is the wire image of its values. -/
theorem wireRegs_beValues {n : Nat} {bs : List Byte} (h : bs.length = 2 * n) :
    wireRegs (beValues bs) = bs ∧ (beValues bs).length = n := by
  induction n generalizing bs with
  | zero => rw [List.length_eq_zero_iff.mp h]; simp [beValues]
  | succ n ih =>
    match bs, h with
    | l :: r :: rest, h =>
      have := ih (bs := rest) (by simp at h; omega)
      simp [beValues, this.1, this.2]

/-! ## The ends of frames -/

@[simp] theorem splitPair_fields (x y c : Half) :
    splitPair (beBytes x ++ beBytes y ++ leBytes c) = some (x, y, c) := by
  simp [splitPair, beBytes, leBytes]

@[simp] theorem splitExc_fields (e : Byte) (c : Half) : splitExc (e :: leBytes c) = some (e, c) := by
  simp [splitExc, leBytes]

theorem splitPair_eq_some {bs : List Byte} {x y c : Half} (h : splitPair bs = some (x, y, c)) :
    bs = beBytes x ++ beBytes y ++ leBytes c := by
  unfold splitPair at h
  split at h
  · cases h; simp [beBytes, leBytes]
  · cases h

theorem splitExc_eq_some {bs : List Byte} {e : Byte} {c : Half} (h : splitExc bs = some (e, c)) :
    bs = e :: leBytes c := by
  unfold splitExc at h
  split at h
  · cases h; simp [leBytes]
  · cases h

@[simp] theorem splitTail_fields (vs : List Half) (c : Half) : splitTail (wireRegs vs ++ leBytes c) = some (vs, c) := by
  induction vs with
  | nil => simp [splitTail, leBytes]
  | cons v vs ih =>
    rw [wireRegs_cons, List.cons_append, List.cons_append, splitTail, ih]
    · simp
    · intro h; simpa [leBytes] using congrArg List.length h

theorem splitTail_eq_some {bs : List Byte} {vs : List Half} {c : Half} (h : splitTail bs = some (vs, c)) :
    bs = wireRegs vs ++ leBytes c := by
  induction bs using splitTail.induct generalizing vs with
  | case1 c0 c1 => simp [splitTail] at h; obtain ⟨rfl, rfl⟩ := h; simp [leBytes]
  | case2 h' l rest hne ih =>
    rw [splitTail] at h
    · simp only [Option.map_eq_some_iff] at h
      obtain ⟨⟨vs', c'⟩, h1, h2⟩ := h
      cases h2
      simp [ih h1]
    · exact hne
  | case3 bs h1 h2 => rw [splitTail] at h <;> first | cases h | assumption

/-! ## Frames -/

@[simp] theorem length_wireFrame (a f : Byte) (p : List Byte) : (wireFrame a f p).length = p.length + 4 := by
  simp [wireFrame]

theorem wireFrame_eq (a f : Byte) (p : List Byte) :
    wireFrame a f p = a :: f :: p ++ leBytes (crc16 (a :: f :: p)) := rfl

/-- The last two bytes of a body with its trailer are the trailer. -/
theorem trailer_of_append (body : List Byte) (c : Half) :
    le16 ((body ++ leBytes c).getD (body.length + 2 - 2) 0) ((body ++ leBytes c).getD (body.length + 2 - 1) 0) = c := by
  simp [leBytes, List.getD_eq_getElem?_getD]

/-- Every byte sequence of at least two bytes is a body and a trailer. -/
theorem exists_body_trailer {fr : List Byte} (h : 2 ≤ fr.length) :
    ∃ body c, fr = body ++ leBytes c ∧ body.length + 2 = fr.length := by
  have hd : (fr.drop (fr.length - 2)).length = 2 := by simp; omega
  match hb : fr.drop (fr.length - 2), hd with
  | [l, r], _ =>
    refine ⟨fr.take (fr.length - 2), le16 l r, ?_, by simp; omega⟩
    rw [leBytes, lo8_le16, hi8_le16, ← hb, List.take_append_drop]

/-- What `examineFrame` answers when the trailer is not the CRC (R127). -/
theorem examineFrame_badCrc (ef : Byte) (body : List Byte) (c : Half) (h : crc16 body ≠ c) :
    examineFrame ef (body ++ leBytes c) = .err .crcError := by
  unfold examineFrame
  simp only [List.length_append, length_leBytes, trailer_of_append]
  rw [if_pos]
  simpa using h

/-- What `examineFrame` answers on a frame with a right CRC, by its function byte (R127). -/
theorem examineFrame_wireFrame (ef a f : Byte) (p : List Byte) :
    examineFrame ef (wireFrame a f p) =
      if f = ef ||| Config.exceptionFlag then .exc p.head?
      else if f ≠ ef then .err .invalidFunctionCode
      else .ok p := by
  unfold examineFrame
  rw [wireFrame_eq]
  simp only [List.length_append, length_leBytes, trailer_of_append]
  have htake : List.take ((a :: f :: p).length + 2 - 2) (a :: f :: p ++ leBytes (crc16 (a :: f :: p))) = a :: f :: p := by
    simp
  rw [htake, if_neg (by simp)]
  have h1 : (a :: f :: p ++ leBytes (crc16 (a :: f :: p))).getD 1 0 = f := by simp
  rw [h1]
  split
  · cases p with
    | nil => simp
    | cons e p => simp
  · rfl

end Sys2Proof.Machine
end

