-- ==== Sys2Proof/Laws/Ops.lean ====
section
/-! SUPPORT. What each shared operation of the commands can do, said once: the end of a command, the builders' StoreFrame,
Deframe and the PARSE family's common path, and the fields a request's decoding reads. -/

namespace Sys2Proof.Machine

/-! ## Ends -/

theorem finish_eq (c : Status) (s : State) : finish c s = .next { s with status := { s.status with code := c } } := rfl

/-- A command that ends right after the prologue leaves `ended`. -/
theorem finish_prologue (c : Status) (s : State) : finish c s.prologue = .next (s.ended c) := rfl

/-- A command of the PARSE family that ends right after clearing EXC leaves `endedParse`. -/
theorem finish_parse (c : Status) (s : State) :
    finish c s.parseStart = .next (s.endedParse c) := rfl

/-- The exception path after the prologue. -/
theorem reportExc_parse (ec : Option Byte) (s : State) :
    reportExc ec s.parseStart = .next { s.endedParse .exception with
      status := { s.status with code := .exception, isExc := true, excp := ec.isSome }, exc := ec.getD 0 } := by
  simp [reportExc, finish, State.parseStart, State.prologue, StatusReg.cleared, StatusReg.reporting, State.endedParse, State.ended]

theorem finish_next {c : Status} {s t : State} (h : finish c s = .next t) :
    t = { s with status := { s.status with code := c } } := by
  cases h; rfl

/-! ## Station addresses and counts -/

theorem validAddr_iff (a : Byte) : validAddr a = true ↔ StationValid a := by
  unfold validAddr StationValid Config.maxStation
  rw [Bool.and_eq_true, decide_eq_true_iff, decide_eq_true_iff]

theorem validAddr_false_iff (a : Byte) : validAddr a = false ↔ ¬ StationValid a := by
  rw [← validAddr_iff]; simp

theorem countWithin_iff (limit : Nat) (s : State) :
    countWithin limit s = true ↔ 1 ≤ s.count.toNat ∧ s.count.toNat ≤ limit := by
  simp [countWithin]

theorem countWithin_false_iff (limit : Nat) (s : State) :
    countWithin limit s = false ↔ s.count.toNat < 1 ∨ limit < s.count.toNat := by
  rw [← Bool.not_eq_true, countWithin_iff]; omega

/-- A function byte without the exception flag is not itself with the flag set (R92). -/
theorem ne_flagged {f : Byte} (h : f.toNat < 0x80) : f ≠ f ||| 0x80#8 := by
  intro he
  have h1 : f.getLsbD 7 = true := by rw [he, BitVec.getLsbD_or]; simp
  have h2 : f.getLsbD 7 = false := by rw [BitVec.getLsbD, Nat.testBit_lt_two_pow (by omega)]
  rw [h1] at h2; cases h2

/-- A command word is named by its number. -/
theorem commandWordIs_of_decode {op : Nat} {dp src : Bool} {i : Instr}
    (h : decode (.command (BitVec.ofNat 32 (op + 0x100 * dp.toNat + 0x200 * src.toNat))) = .ok i) :
    CommandWordIs op dp src i := by
  intro w hw
  rw [← h, ← hw]; simp

/-! ## The builders -/

/-- The builders' success path after the prologue: StoreFrame of a frame, RLEN written as well (R130). -/
theorem buildsFrame_storeFrame (s : State) (a f : Byte) (p : List Byte) (rl : Len) :
    BuildsFrame (finish .success { storeFrame (wireFrame a f p) s.prologue with rlen := rl }) s a f p rl := by
  refine ⟨Memory.writeAll s.mem 0x100 (wireFrame a f p), ?_, ?_⟩
  · have h := trailer_of_append (a :: f :: p) (crc16 (a :: f :: p))
    have hl : (a :: f :: p).length + 2 = (wireFrame a f p).length := by simp
    rw [hl] at h
    simp only [finish, storeFrame, State.storeBytes, State.prologue, State.ended, StatusReg.cleared]
    rw [wireFrame_eq] at *
    rw [h]
    simp [Buffer.base, Config.frameOffset]
  · exact Memory.stored_writeAll _ _ _

/-! ## Deframe -/

/-- Deframe when the address byte matches and the whole frame is written: the examination of its bytes (R127). -/
theorem deframe_of_holds {s : State} {ea ef : Byte} {rest : List Byte} (hl : 4 ≤ (ea :: rest).length)
    (hu : (ea :: rest).length ≤ 256) (hh : s.Holds .frame 0 (ea :: rest)) :
    deframe (ea :: rest).length ea ef s = .next (examineFrame ef (ea :: rest)) := by
  unfold deframe
  rw [if_neg (by simpa [Config.maxFrame] using hu), if_neg (by simpa [Config.minFrame] using hl),
    readByte_of_byteAt (holds_cons.mp hh).1]
  simp only [andThen_next, ne_eq, not_true_eq_false, if_false]
  rw [readBytes_of_holds hh]
  rfl

/-- Every answer of Deframe, in the order of its checks (R127). -/
theorem deframe_next {n : Nat} {ea ef : Byte} {s : State} {d : Deframed} (h : deframe n ea ef s = .next d) :
    (256 < n ∧ d = .err .invalidParam) ∨ (n < 4 ∧ d = .err .invalidResponse) ∨
    (4 ≤ n ∧ n ≤ 256 ∧ d = .err .invalidResponse ∧ ∃ f0, s.byteAt .frame 0 = some f0 ∧ f0 ≠ ea) ∨
    (4 ≤ n ∧ n ≤ 256 ∧ ∃ rest, (ea :: rest).length = n ∧ s.Holds .frame 0 (ea :: rest) ∧
      d = examineFrame ef (ea :: rest)) := by
  unfold deframe at h
  split at h
  · cases h; exact .inl ⟨‹Config.maxFrame < n›, rfl⟩
  · split at h
    · cases h; exact .inr (.inl ⟨‹n < Config.minFrame›, rfl⟩)
    · have hu : ¬ 256 < n := ‹¬ Config.maxFrame < n›
      have h4 : ¬ n < 4 := ‹¬ n < Config.minFrame›
      obtain ⟨f0, h0, h1⟩ := andThen_eq_next h
      rw [readByte_eq_next (by omega)] at h0
      by_cases he : f0 = ea
      · subst he
        rw [if_neg (by simp)] at h1
        obtain ⟨fr, h2, h3⟩ := andThen_eq_next h1
        obtain ⟨hl, hh⟩ := (readBytes_eq_next (by omega)).mp h2
        cases h3
        cases fr with
        | nil => simp at hl; omega
        | cons x rest =>
          have hx : x = f0 := by
            have := (holds_cons.mp hh).1
            rw [h0] at this; exact (Option.some.inj this).symm
          subst hx
          exact .inr (.inr (.inr ⟨by omega, by omega, rest, hl, hh, rfl⟩))
      · rw [if_pos he] at h1
        cases h1
        exact .inr (.inr (.inl ⟨by omega, by omega, rfl, f0, h0, he⟩))

/-- Deframe is refused only for an unwritten byte of the frame. -/
theorem deframe_refused {n : Nat} {ea ef : Byte} {s : State} {q : Refusal} (h : deframe n ea ef s = .refused q) :
    q = .unwrittenByte ∧ n ≤ 256 ∧ s.SomeUnwritten .frame 0 n := by
  unfold deframe at h
  split at h
  · cases h
  · split at h
    · cases h
    · have hu : ¬ 256 < n := ‹¬ Config.maxFrame < n›
      have h4 : ¬ n < 4 := ‹¬ n < Config.minFrame›
      rcases andThen_eq_refused h with h | ⟨f0, -, h⟩
      · obtain ⟨hq, -, hn⟩ := readByte_eq_refused.mp h
        exact ⟨hq, by omega, 0, by omega, hn⟩
      · split at h
        · cases h
        · rcases andThen_eq_refused h with h | ⟨fr, -, h⟩
          · obtain ⟨hq, k, hk, -, hn⟩ := readBytes_eq_refused.mp h
            exact ⟨hq, by omega, k, hk, hn⟩
          · cases h

/-- A body of at least two bytes with its trailer is either a frame with a wrong CRC or `Frame` of its fields (R126, R127). -/
theorem examineFrame_cases (ef a : Byte) {rest : List Byte} (hl : 4 ≤ (a :: rest).length) :
    (∃ body c, a :: rest = body ++ leBytes c ∧ body.head? = some a ∧ crc16 body ≠ c ∧
      examineFrame ef (a :: rest) = .err .crcError) ∨
    (∃ f p, a :: rest = wireFrame a f p ∧ p.length + 4 = (a :: rest).length ∧
      examineFrame ef (a :: rest) =
        if f = ef ||| Config.exceptionFlag then .exc p.head?
        else if f ≠ ef then .err .invalidFunctionCode
        else .ok p) := by
  obtain ⟨body, c, he, hlen⟩ := exists_body_trailer (fr := a :: rest) (by omega)
  match body, he, hlen with
  | [], he, hlen => simp at hlen hl; omega
  | [x], he, hlen => simp at hlen hl; omega
  | x :: f :: p, he, hlen =>
    have hx : x = a := by simp only [List.cons_append, List.cons.injEq] at he; exact he.1.symm
    subst hx
    by_cases hc : crc16 (x :: f :: p) = c
    · right
      subst hc
      refine ⟨f, p, he, by simp at hlen ⊢; omega, ?_⟩
      rw [he, ← wireFrame_eq, examineFrame_wireFrame]
    · left
      exact ⟨x :: f :: p, c, he, rfl, hc, by rw [he]; exact examineFrame_badCrc ef _ c hc⟩

/-! ## The PARSE family's common path -/

/-- What PARSE and the RSP_* commands do after clearing EXC, up to the use of a payload (R127, R129, R170). -/
def parsePath (s : State) (ef : Byte) (k : List Byte → Result State) : Result State :=
  andThen (deframe s.len.toNat s.addr ef s.parseStart) fun d =>
    onPayload d s.parseStart k

/-- Deframe on a received frame with a right CRC. -/
theorem deframe_received {s u : State} {ef f : Byte} {p : List Byte} (hr : s.Received f p) (hm : u.mem = s.mem) :
    deframe s.len.toNat s.addr ef u = .next
      (if f = ef ||| Config.exceptionFlag then .exc p.head?
        else if f ≠ ef then .err .invalidFunctionCode
        else .ok p) := by
  obtain ⟨hl, hu, hh⟩ := hr
  rw [← examineFrame_wireFrame ef s.addr f p]
  have hlen : (wireFrame s.addr f p).length = s.len.toNat := by simpa using hl
  rw [← hlen]
  refine deframe_of_holds (s := u) ?_ ?_ ?_
  · show 4 ≤ (wireFrame s.addr f p).length; omega
  · show (wireFrame s.addr f p).length ≤ 256; omega
  · exact (holds_congr hm .frame 0 _).mpr hh

/-- The path's ends that Deframe decides, whatever is done with a payload. -/
theorem parsePath_ends (s : State) (ef : Byte) (k : List Byte → Result State) : DeframeEnds (parsePath s ef k) s ef := by
  have hm : s.parseStart.mem = s.mem := rfl
  refine ⟨fun h => ?_, fun h => ?_, fun h4 hu => ⟨fun f0 h0 hne => ?_, fun hn => ?_, fun h0 hs => ?_, ?_⟩, ?_, ?_⟩
  · unfold parsePath deframe
    rw [if_pos (by simpa [Config.maxFrame] using h)]
    exact finish_parse _ _
  · unfold parsePath deframe
    rw [if_neg (by show ¬ 256 < _; omega), if_pos (by simpa [Config.minFrame] using h)]
    exact finish_parse _ _
  · unfold parsePath deframe
    rw [if_neg (by show ¬ 256 < _; omega), if_neg (by show ¬ _ < 4; omega), readByte_congr hm,
      readByte_of_byteAt h0]
    simp only [andThen_next]
    rw [if_pos hne]
    exact finish_parse _ _
  · unfold parsePath deframe
    rw [if_neg (by show ¬ 256 < _; omega), if_neg (by show ¬ _ < 4; omega), readByte_congr hm,
      readByte_eq_refused.mpr ⟨rfl, by omega, hn⟩]
    rfl
  · unfold parsePath deframe
    rw [if_neg (by show ¬ 256 < _; omega), if_neg (by show ¬ _ < 4; omega), readByte_congr hm,
      readByte_of_byteAt h0]
    simp only [andThen_next, ne_eq, not_true_eq_false, if_false]
    rw [readBytes_congr hm, readBytes_refused (by omega) hs]
    rfl
  · intro body c hl hhead hh hc
    match body, hhead with
    | x :: rest, hhead =>
      have hx : x = s.addr := by simpa using hhead
      subst hx
      have hlen : (s.addr :: (rest ++ leBytes c)).length = s.len.toNat := by simpa using hl
      have hd := deframe_of_holds (s := s.parseStart) (ef := ef) (by omega) (by omega) ((holds_congr hm .frame 0 (s.addr :: (rest ++ leBytes c))).mpr hh)
      unfold parsePath
      rw [← hlen, hd, show s.addr :: (rest ++ leBytes c) = (s.addr :: rest) ++ leBytes c from rfl,
        examineFrame_badCrc ef _ c hc]
      exact finish_parse _ _
  · intro p hr
    unfold parsePath
    rw [deframe_received hr hm, andThen_next, if_pos (by rfl)]
    simp only [onPayload]
    rw [reportExc_parse]
    cases p <;> rfl
  · intro f p h1 h2 hr
    unfold parsePath
    rw [deframe_received hr hm, andThen_next, if_neg (by exact h1), if_pos h2]
    exact finish_parse _ _

/-- A received payload of the expected function goes on to its use. -/
theorem parsePath_payload {s : State} {ef : Byte} (k : List Byte → Result State) {p : List Byte}
    (he : ef ≠ ef ||| 0x80#8) (hr : s.Received ef p) : parsePath s ef k = k p := by
  unfold parsePath
  rw [deframe_received hr (by rfl), andThen_next, if_neg (by exact he)]
  simp [onPayload]

theorem finish_parseStart_next {c : Status} {s t : State} (h : finish c s.parseStart = .next t) : t = s.endedParse c := by
  rw [finish_parse] at h; cases h; rfl

/-- Every next state of the path: one of Deframe's ends, an exception report, or what is done with a received payload. -/
theorem parsePath_next {s t : State} {ef : Byte} {k : List Byte → Result State} (h : parsePath s ef k = .next t) :
    (∃ c, c ∈ [Status.invalidParam, .invalidResponse, .crcError, .invalidFunctionCode] ∧ t = s.endedParse c) ∨
    (∃ ec : Option Byte, t = { s.endedParse .exception with
      status := { s.status with code := .exception, isExc := true, excp := ec.isSome }, exc := ec.getD 0 }) ∨
    ∃ p, s.Received ef p ∧ ef ≠ ef ||| 0x80#8 ∧ k p = .next t := by
  unfold parsePath at h
  obtain ⟨d, hd, h⟩ := andThen_eq_next h
  rcases deframe_next hd with ⟨-, rfl⟩ | ⟨-, rfl⟩ | ⟨-, -, rfl, -⟩ | ⟨h4, hu, rest, hl, hh, rfl⟩
  · exact .inl ⟨_, by simp, finish_parseStart_next h⟩
  · exact .inl ⟨_, by simp, finish_parseStart_next h⟩
  · exact .inl ⟨_, by simp, finish_parseStart_next h⟩
  · rcases examineFrame_cases ef s.addr (rest := rest) (by omega) with ⟨body, c, -, -, -, he⟩ | ⟨f, p, hf, hp, he⟩
    · rw [he] at h
      exact .inl ⟨_, by simp, finish_parseStart_next h⟩
    · rw [he] at h
      split at h
      · simp only [onPayload] at h
        rw [reportExc_parse] at h
        exact .inr (.inl ⟨p.head?, by cases h; rfl⟩)
      · split at h
        · exact .inl ⟨_, by simp, finish_parseStart_next h⟩
        · have hfe : f = ef := by simpa using ‹¬ f ≠ ef›
          have hk : k p = .next t := h
          have hef : ¬ f = ef ||| 0x80#8 := ‹_›
          subst hfe
          refine .inr (.inr ⟨p, ⟨by omega, hu, ?_⟩, hef, hk⟩)
          rw [← wireFrame_eq, ← hf]
          exact (holds_congr (by rfl) .frame 0 _).mp hh

/-- The path is refused for an unwritten byte, or where the use of a payload is refused. -/
theorem parsePath_refused {s : State} {ef : Byte} {k : List Byte → Result State} {q : Refusal}
    (h : parsePath s ef k = .refused q) :
    (q = .unwrittenByte ∧ s.len.toNat ≤ 256 ∧ s.SomeUnwritten .frame 0 s.len.toNat) ∨ ∃ p, k p = .refused q := by
  unfold parsePath at h
  rcases andThen_eq_refused h with h | ⟨d, -, h⟩
  · obtain ⟨hq, hl, hu⟩ := deframe_refused h
    exact .inl ⟨hq, hl, hu⟩
  · cases d with
    | err c => cases h
    | exc ec => cases h
    | ok p => exact .inr ⟨p, h⟩

/-- PARSE is its path with the capacity check and the store. -/
theorem execParse_eq (s : State) : execParse s = parsePath s s.func fun p =>
    if s.effCap < p.length then finish .invalidParam s.parseStart
    else finish .success { s.parseStart.storeBytes .data 0 p with
      olen := BitVec.ofNat 9 p.length } := rfl

/-- RSP_RHR with an admitted count is its path with the length and byte-count checks and the store. -/
theorem execRspRhr_eq (s : State) : execRspRhr s =
    if countWithin Config.maxReadCount s = false then .next (s.endedParse .invalidParam)
    else parsePath s Config.fnReadHolding fun p =>
      if p.length ≠ 1 + 2 * s.count.toNat then .next (s.endedParse .invalidResponse)
      else if (p.getD 0 0).toNat ≠ 2 * s.count.toNat then .next (s.endedParse .invalidResponse)
      else finish .success { storeRegs (beValues (p.drop 1)) s.parseStart with
        olen := BitVec.ofNat 9 (2 * s.count.toNat) } := rfl

/-- RSP_WSR is its path with the echo check. -/
theorem execRspWsr_eq (s : State) : execRspWsr s = parsePath s Config.fnWriteSingle fun p =>
    if p ≠ beBytes s.regAddr ++ beBytes s.value then .next (s.endedParse .invalidResponse)
    else .next (s.endedParse .success) := rfl

/-- RSP_WMR with an admitted count is its path with the echo check. -/
theorem execRspWmr_eq (s : State) : execRspWmr s =
    if countWithin Config.maxWriteCount s = false then .next (s.endedParse .invalidParam)
    else parsePath s Config.fnWriteMultiple fun p =>
      if p ≠ beBytes s.regAddr ++ beBytes s.count then .next (s.endedParse .invalidResponse)
      else .next (s.endedParse .success) := rfl

/-! ## Fields of a received request -/

theorem readField_eq_next {s : State} {i : Nat} {v : Half} (hi : i + 2 ≤ 256) :
    readField i s = .next v ↔ s.Holds .frame i (beBytes v) := by
  unfold readField beBytes
  constructor
  · intro h
    obtain ⟨hi, h0, h⟩ := andThen_eq_next h
    obtain ⟨lo, h1, h⟩ := andThen_eq_next h
    rw [readByte_eq_next (by omega)] at h0 h1
    cases h
    simpa [holds_cons] using ⟨h0, h1⟩
  · intro h
    obtain ⟨h0, h1⟩ := holds_cons.mp h
    rw [readByte_of_byteAt h0]
    simp only [andThen_next]
    rw [readByte_of_byteAt (holds_cons.mp h1).1]
    simp

theorem readFields_eq_found {s : State} {i n : Nat} {vs : List Half} :
    readFields i n s = .next vs ↔ vs.length = n ∧ s.Finds .frame i (wireRegs vs) := by
  unfold readFields
  constructor
  · intro h
    obtain ⟨bs, h0, h⟩ := andThen_eq_next h
    obtain ⟨hl, hh⟩ := readBytes_eq_found.mp h0
    cases h
    obtain ⟨h1, h2⟩ := wireRegs_beValues hl
    rw [h1]
    exact ⟨h2, hh⟩
  · rintro ⟨hl, hh⟩
    have := readBytes_of_finds hh
    rw [length_wireRegs, hl] at this
    rw [this]
    simp

/-- Where no byte is unwritten, a command finds register values. -/
theorem exists_found_values {s : State} {i : Nat} (n : Nat) (h : ∀ k, k < 2 * n → s.foundAt .frame (i + k) ≠ none) :
    ∃ vs : List Half, vs.length = n ∧ s.Finds .frame i (wireRegs vs) := by
  obtain ⟨bs, hl, hb⟩ := exists_finds _ h
  obtain ⟨h1, h2⟩ := wireRegs_beValues hl
  exact ⟨beValues bs, h2, by rwa [h1]⟩

/-- A read of values is refused exactly for an unwritten byte among theirs. -/
theorem readFields_eq_refused {s : State} {i n : Nat} {q : Refusal} :
    readFields i n s = .refused q ↔ q = .unwrittenByte ∧ ∃ k, k < 2 * n ∧ i + k < 256 ∧ s.byteAt .frame (i + k) = none := by
  rw [← readBytes_eq_refused, readFields]
  cases readBytes s .frame i (2 * n) <;> simp [andThen]

theorem readRegs_eq_next {s : State} {n : Nat} {vs : List Half} (hn : n ≤ 128) :
    readRegs n s = .next vs ↔ vs.length = n ∧ s.Holds .data 0 (viewRegs vs) := by
  unfold readRegs
  constructor
  · intro h
    obtain ⟨bs, h0, h⟩ := andThen_eq_next h
    obtain ⟨hl, hh⟩ := (readBytes_eq_next (by omega)).mp h0
    cases h
    obtain ⟨h1, h2⟩ := viewRegs_leValues hl
    rw [h1]
    exact ⟨h2, hh⟩
  · rintro ⟨hl, hh⟩
    have := readBytes_of_holds hh
    rw [length_viewRegs, hl] at this
    rw [this]
    simp

/-- A read of a field with an unwritten byte is refused. -/
theorem readField_refused {s : State} {i : Nat} (hi : i + 2 ≤ 256) (h : s.SomeUnwritten .frame i 2) :
    readField i s = .refused .unwrittenByte := by
  obtain ⟨k, hk, hn⟩ := h
  unfold readField
  cases h0 : s.byteAt .frame i with
  | none => rw [readByte_eq_refused.mpr ⟨rfl, by omega, h0⟩]; rfl
  | some v =>
    rw [readByte_of_byteAt h0]
    have hk1 : k = 1 := by
      by_contra hc
      have hk0 : k = 0 := by omega
      subst hk0; simp [h0] at hn
    subst hk1
    simp [readByte_eq_refused.mpr ⟨rfl, show i + 1 < 256 by omega, hn⟩]

theorem readRegs_congr {s t : State} (h : t.mem = s.mem) (n : Nat) (hp : t.performed = s.performed := by rfl) :
    readRegs n t = readRegs n s := by
  simp [readRegs, readBytes_congr h _ _ _ hp]

/-- S_BODY in a cycle: the reads of the CRC check, then the decoding, in phase IDLE. -/
theorem execSBody_eq {s : State} (hi : s.status.init = true) (hp : s.status.sphase = .awaitBody) :
    execSBody s = andThen (readBytes s .frame 0 (s.need.toNat - 2)) fun body =>
      andThen (readByte s .frame (s.need - 2).toNat) fun lo =>
        andThen (readByte s .frame (s.need - 1).toNat) fun hi =>
          if crc16 body ≠ le16 lo hi then .next (s.endedIn .crcError .idle)
          else decodeRequestBody (s.prologue.setPhase .idle) := by
  unfold execSBody
  rw [if_neg (by simp [hi]), if_neg (by simp [hp])]
  simp only
  rw [readBytes_congr (s := s) (by rfl), readByte_congr (s := s) (by rfl), readByte_congr (s := s) (by rfl)]
  rfl

/-- The trailer of a NEED of at least 2 is at the last two of its bytes. -/
theorem trailer_indices {n : Len} (h : 2 ≤ n.toNat) : (n - 2).toNat = n.toNat - 2 ∧ (n - 1).toNat = n.toNat - 1 := by
  constructor <;> bv_omega

/-- S_BODY in a cycle, its bytes `F[0..NEED)` written: the CRC of all but the last two against those (R240). -/
theorem execSBody_of_holds {s : State} (hi : s.status.init = true) (hp : s.status.sphase = .awaitBody) {body : List Byte}
    {c : Half} (hl : body.length + 2 = s.need.toNat) (hh : s.Holds .frame 0 (body ++ leBytes c)) :
    execSBody s = if crc16 body ≠ c then .next (s.endedIn .crcError .idle)
      else decodeRequestBody (s.prologue.setPhase .idle) := by
  obtain ⟨h2, h1⟩ := trailer_indices (n := s.need) (by omega)
  obtain ⟨hb, ht⟩ := holds_append.mp hh
  obtain ⟨hlo, ht⟩ := holds_cons.mp ht
  obtain ⟨hhi, -⟩ := holds_cons.mp ht
  have hr := readBytes_of_holds hb
  rw [show body.length = s.need.toNat - 2 by omega] at hr
  rw [execSBody_eq hi hp, hr, andThen_next, h2, h1,
    readByte_of_byteAt (by rw [← hlo]; congr 1; omega), andThen_next, readByte_of_byteAt (by rw [← hhi]; congr 1; omega),
    andThen_next, le16_lo8_hi8]

/-- The decoding of a request, its fields held in FRAME (R240): by the latched function byte, the parameters, and for function
0x10 the values found from F[7] on. -/
theorem decodeRequestBody_of_holds {s : State} {a x : Half} (h : s.Holds .frame 2 (beBytes a ++ beBytes x)) :
    (s.sfunc = 0x03#8 → decodeRequestBody s = finish .success { s with regAddr := a, count := x, value := 0, bcount := 0 }) ∧
    (s.sfunc = 0x06#8 → decodeRequestBody s = finish .success { s with regAddr := a, value := x, count := 0, bcount := 0 }) ∧
    (s.sfunc = 0x10#8 →
      (∀ k, 6 ≤ k → k < 7 + 2 * x.toNat → k < 256 → s.byteAt .frame k = none → decodeRequestBody s = .refused .unwrittenByte) ∧
      ∀ (bc : Byte) (vs : List Half), vs.length = min x.toNat 128 → s.byteAt .frame 6 = some bc → s.Finds .frame 7 (wireRegs vs) →
        decodeRequestBody s = finish .success { storeRegs vs s with
          regAddr := a, count := x, value := 0, bcount := bc, olen := BitVec.ofNat 9 (2 * x.toNat) }) := by
  obtain ⟨h2, h4⟩ := holds_append.mp h
  have r2 : readField 2 s = .next a := (readField_eq_next (by omega)).mpr h2
  have r4 : readField 4 { s with regAddr := a } = .next x := by
    rw [readField_congr (s := s) (by rfl)]; exact (readField_eq_next (by omega)).mpr h4
  unfold decodeRequestBody
  rw [r2, andThen_next]
  simp only [r4, andThen_next]
  refine ⟨fun hf => if_pos hf, fun hf => ?_, fun hf => ?_⟩
  · rw [if_neg (by rw [hf]; decide), if_pos hf]
  · rw [if_neg (by rw [hf]; decide), if_neg (by rw [hf]; decide), if_pos hf]
    rw [readByte_congr (s := s) (by rfl), readFields_congr (s := s) (by rfl)]
    refine ⟨fun k hk hu h256 hn => ?_, fun bc vs hl h6 h7 => ?_⟩
    · cases h6 : s.byteAt .frame 6 with
      | none => rw [readByte_eq_refused.mpr ⟨rfl, by omega, h6⟩]; rfl
      | some bc =>
        have : k ≠ 6 := by rintro rfl; rw [h6] at hn; cases hn
        rw [readByte_of_byteAt h6, andThen_next, readFields_eq_refused.mpr
          ⟨rfl, k - 7, by show k - 7 < 2 * min x.toNat 128; omega, by omega, by rw [← hn]; congr 1; omega⟩]
        rfl
    · rw [readByte_of_byteAt h6, andThen_next, readFields_eq_found.mpr ⟨hl, h7⟩]
      rfl

end Sys2Proof.Machine
end

