-- ==== Sys2Proof/Laws/PerInstr.lean ====
section
/-! SUPPORT. Statements about every instruction, one lemma per constructor. EncodedSize: the code of an instruction whose fields
fit is 4 to 256 bytes long, a CMD word being 4 bytes (30_encoding.md R80, R90). -/

namespace Sys2Proof.Laws.EncodedSize

/-- The number of bytes of a code. -/
def bytes : Code → Nat
  | .command _ => 4
  | .frame _ bs => bs.length

def Statement (i : Instr) : Prop := i.shaped = true → 4 ≤ bytes (encode i) ∧ bytes (encode i) ≤ 256

theorem crc16 (dp src : Bool) : Statement (.crc16 dp src) := fun _ => ⟨by simp [bytes, encode], by simp [bytes, encode]⟩
theorem build (dp src : Bool) : Statement (.build dp src) := fun _ => ⟨by simp [bytes, encode], by simp [bytes, encode]⟩
theorem buildExc (dp src : Bool) : Statement (.buildExc dp src) := fun _ => ⟨by simp [bytes, encode], by simp [bytes, encode]⟩
theorem parse (dp src : Bool) : Statement (.parse dp src) := fun _ => ⟨by simp [bytes, encode], by simp [bytes, encode]⟩
theorem reqRhr (dp src : Bool) : Statement (.reqRhr dp src) := fun _ => ⟨by simp [bytes, encode], by simp [bytes, encode]⟩
theorem reqWsr (dp src : Bool) : Statement (.reqWsr dp src) := fun _ => ⟨by simp [bytes, encode], by simp [bytes, encode]⟩
theorem reqWmr (dp src : Bool) : Statement (.reqWmr dp src) := fun _ => ⟨by simp [bytes, encode], by simp [bytes, encode]⟩
theorem rspRhr (dp src : Bool) : Statement (.rspRhr dp src) := fun _ => ⟨by simp [bytes, encode], by simp [bytes, encode]⟩
theorem rspWsr (dp src : Bool) : Statement (.rspWsr dp src) := fun _ => ⟨by simp [bytes, encode], by simp [bytes, encode]⟩
theorem rspWmr (dp src : Bool) : Statement (.rspWmr dp src) := fun _ => ⟨by simp [bytes, encode], by simp [bytes, encode]⟩
theorem sInit (dp src : Bool) : Statement (.sInit dp src) := fun _ => ⟨by simp [bytes, encode], by simp [bytes, encode]⟩
theorem sHdr (dp src : Bool) : Statement (.sHdr dp src) := fun _ => ⟨by simp [bytes, encode], by simp [bytes, encode]⟩
theorem sCnt (dp src : Bool) : Statement (.sCnt dp src) := fun _ => ⟨by simp [bytes, encode], by simp [bytes, encode]⟩
theorem sBody (dp src : Bool) : Statement (.sBody dp src) := fun _ => ⟨by simp [bytes, encode], by simp [bytes, encode]⟩

theorem frameRhrReq (a : Byte) (s n c : Half) : Statement (.frameRhrReq a s n c) := by
  intro _
  simp [bytes, encode, Instr.frameBytes, Instr.trailer?, Instr.frameBody]

theorem frameRhrRsp (a bc : Byte) (d : List Half) (c : Half) : Statement (.frameRhrRsp a bc d c) := by
  intro h
  simp [Instr.shaped, Config.maxFrame] at h
  simp [bytes, encode, Instr.frameBytes, Instr.trailer?, Instr.frameBody]
  omega

theorem frameWsrReq (a : Byte) (r v c : Half) : Statement (.frameWsrReq a r v c) := by
  intro _
  simp [bytes, encode, Instr.frameBytes, Instr.trailer?, Instr.frameBody]

theorem frameWsrRsp (a : Byte) (r v c : Half) : Statement (.frameWsrRsp a r v c) := by
  intro _
  simp [bytes, encode, Instr.frameBytes, Instr.trailer?, Instr.frameBody]

theorem frameWmrReq (a : Byte) (s n : Half) (bc : Byte) (d : List Half) (c : Half) : Statement (.frameWmrReq a s n bc d c) := by
  intro h
  simp [Instr.shaped, Config.maxFrame] at h
  simp [bytes, encode, Instr.frameBytes, Instr.trailer?, Instr.frameBody]
  omega

theorem frameWmrRsp (a : Byte) (s n c : Half) : Statement (.frameWmrRsp a s n c) := by
  intro _
  simp [bytes, encode, Instr.frameBytes, Instr.trailer?, Instr.frameBody]

theorem frameExcRhr (a e : Byte) (c : Half) : Statement (.frameExcRhr a e c) := by
  intro _
  simp [bytes, encode, Instr.frameBytes, Instr.trailer?, Instr.frameBody]

theorem frameExcWsr (a e : Byte) (c : Half) : Statement (.frameExcWsr a e c) := by
  intro _
  simp [bytes, encode, Instr.frameBytes, Instr.trailer?, Instr.frameBody]

theorem frameExcWmr (a e : Byte) (c : Half) : Statement (.frameExcWmr a e c) := by
  intro _
  simp [bytes, encode, Instr.frameBytes, Instr.trailer?, Instr.frameBody]

end Sys2Proof.Laws.EncodedSize
end

