-- ==== Sys2Proof/Tests/Slice0.lean ====
section
/-! SUPPORT. The model's own tests. Expected results are the spec's: the encodings of 30_encoding.md and the vectors of
95_test_vectors.md, whose identifiers stand in the docstrings. At the end, the witnesses: for each obligation with hypotheses,
states and operands that meet them, clause by clause at the ends of their ranges. -/

open Sys2Proof Sys2Proof.Machine

-- One theorem after another: each waiting kernel evaluation would hold a thread of its own.
set_option Elab.async false

namespace Sys2Proof.Tests

/-! ## Helpers -/

/-- The result is a next state with this property. -/
def ends (r : Result State) (p : State → Bool) : Bool :=
  match r with
  | .next t => p t
  | .fault _ | .refused _ => false

/-- The result is this refusal. -/
def refuses {α : Type} (r : Result α) (q : Refusal) : Bool :=
  match r with
  | .refused x => x == q
  | .next _ | .fault _ => false

/-- The read gives this word. -/
def gives (r : Result Word) (w : Word) : Bool :=
  match r with
  | .next x => x == w
  | .fault _ | .refused _ => false

theorem exists_of_ends {r : Result State} {p : State → Bool} (h : ends r p = true) : ∃ t, r = .next t ∧ p t = true := by
  cases r with
  | next t => exact ⟨t, rfl, h⟩
  | fault f => cases h
  | refused q => cases h

/-- The decoder reads this instruction from the code. -/
def decodesTo (c : Code) (i : Instr) : Bool :=
  match decode c with
  | .ok x => x == i
  | .error _ => false

/-- The decoder rejects the code by this name. -/
def rejects (c : Code) (e : Reject) : Bool :=
  match decode c with
  | .ok _ => false
  | .error x => x == e

/-- A block after reset with these bytes in FRAME and DATA. -/
def filled (frame data : List Byte) : State :=
  { State.reset with mem := Memory.writeAll (Memory.writeAll [] 0x100 frame) 0x200 data }

/-- A block with its operands ADDR, FUNC, LEN and CAP set. -/
def operands (s : State) (a f : Byte) (len cap : Nat) : State :=
  { s with addr := a, func := f, len := BitVec.ofNat 9 len, cap := BitVec.ofNat 9 cap }

/-- The buffer holds these bytes from index 0 on. -/
def shows (s : State) (b : Buffer) (bytes : List Byte) : Bool :=
  (List.range bytes.length).all fun i => s.byteAt b i == bytes[i]?

/-! ## Decoding: words and frames written out from the encodings -/

/-- OP 0x01 in [7:0], DP in [8], SRC in [9] (R80, R81). -/
theorem test_decode_Crc16 :
    decodesTo (.command 0b00000000000000000000000100000001#32) (.crc16 true false) && decodesTo (.command 0b00000000000000000000001000000001#32) (.crc16 false true) := by decide +kernel

/-- OP 0x02 in [7:0], DP in [8], SRC in [9] (R80, R81). -/
theorem test_decode_Build :
    decodesTo (.command 0b00000000000000000000000100000010#32) (.build true false) && decodesTo (.command 0b00000000000000000000001000000010#32) (.build false true) := by decide +kernel

/-- OP 0x03 in [7:0], DP in [8], SRC in [9] (R80, R81). -/
theorem test_decode_BuildExc :
    decodesTo (.command 0b00000000000000000000000100000011#32) (.buildExc true false) && decodesTo (.command 0b00000000000000000000001000000011#32) (.buildExc false true) := by decide +kernel

/-- OP 0x04 in [7:0], DP in [8], SRC in [9] (R80, R81). -/
theorem test_decode_Parse :
    decodesTo (.command 0b00000000000000000000000100000100#32) (.parse true false) && decodesTo (.command 0b00000000000000000000001000000100#32) (.parse false true) := by decide +kernel

/-- OP 0x10 in [7:0], DP in [8], SRC in [9] (R80, R81). -/
theorem test_decode_ReqRhr :
    decodesTo (.command 0b00000000000000000000000100010000#32) (.reqRhr true false) && decodesTo (.command 0b00000000000000000000001000010000#32) (.reqRhr false true) := by decide +kernel

/-- OP 0x11 in [7:0], DP in [8], SRC in [9] (R80, R81). -/
theorem test_decode_ReqWsr :
    decodesTo (.command 0b00000000000000000000000100010001#32) (.reqWsr true false) && decodesTo (.command 0b00000000000000000000001000010001#32) (.reqWsr false true) := by decide +kernel

/-- OP 0x12 in [7:0], DP in [8], SRC in [9] (R80, R81). -/
theorem test_decode_ReqWmr :
    decodesTo (.command 0b00000000000000000000000100010010#32) (.reqWmr true false) && decodesTo (.command 0b00000000000000000000001000010010#32) (.reqWmr false true) := by decide +kernel

/-- OP 0x13 in [7:0], DP in [8], SRC in [9] (R80, R81). -/
theorem test_decode_RspRhr :
    decodesTo (.command 0b00000000000000000000000100010011#32) (.rspRhr true false) && decodesTo (.command 0b00000000000000000000001000010011#32) (.rspRhr false true) := by decide +kernel

/-- OP 0x14 in [7:0], DP in [8], SRC in [9] (R80, R81). -/
theorem test_decode_RspWsr :
    decodesTo (.command 0b00000000000000000000000100010100#32) (.rspWsr true false) && decodesTo (.command 0b00000000000000000000001000010100#32) (.rspWsr false true) := by decide +kernel

/-- OP 0x15 in [7:0], DP in [8], SRC in [9] (R80, R81). -/
theorem test_decode_RspWmr :
    decodesTo (.command 0b00000000000000000000000100010101#32) (.rspWmr true false) && decodesTo (.command 0b00000000000000000000001000010101#32) (.rspWmr false true) := by decide +kernel

/-- OP 0x20 in [7:0], DP in [8], SRC in [9] (R80, R81). -/
theorem test_decode_SInit :
    decodesTo (.command 0b00000000000000000000000100100000#32) (.sInit true false) && decodesTo (.command 0b00000000000000000000001000100000#32) (.sInit false true) := by decide +kernel

/-- OP 0x21 in [7:0], DP in [8], SRC in [9] (R80, R81). -/
theorem test_decode_SHdr :
    decodesTo (.command 0b00000000000000000000000100100001#32) (.sHdr true false) && decodesTo (.command 0b00000000000000000000001000100001#32) (.sHdr false true) := by decide +kernel

/-- OP 0x22 in [7:0], DP in [8], SRC in [9] (R80, R81). -/
theorem test_decode_SCnt :
    decodesTo (.command 0b00000000000000000000000100100010#32) (.sCnt true false) && decodesTo (.command 0b00000000000000000000001000100010#32) (.sCnt false true) := by decide +kernel

/-- OP 0x23 in [7:0], DP in [8], SRC in [9] (R80, R81). -/
theorem test_decode_SBody :
    decodesTo (.command 0b00000000000000000000000100100011#32) (.sBody true false) && decodesTo (.command 0b00000000000000000000001000100011#32) (.sBody false true) := by decide +kernel

/-- Reserved bit 10, reserved bit 31, and OP values outside the table: 0x00, 0x05, 0x16, 0x24 (R83, V-CMD-1 to V-CMD-5). -/
theorem test_decode_rejects :
    rejects (.command 0x00000401#32) .reservedBits && rejects (.command 0x80000001#32) .reservedBits &&
    rejects (.command 0x00000000#32) .unassignedOp && rejects (.command 0x00000005#32) .unassignedOp &&
    rejects (.command 0x00000016#32) .unassignedOp && rejects (.command 0x00000024#32) .unassignedOp := by decide +kernel

/-- V-REQ-2's frame: station 17, start 0x006B, count 3 (R94). -/
theorem test_decode_FrameRhrReq :
    decodesTo (.frame .request [0x11, 0x03, 0x00, 0x6B, 0x00, 0x03, 0x76, 0x87]) (.frameRhrReq 0x11 0x006B 0x0003 0x8776) && Instr.wellFormed (.frameRhrReq 0x11 0x006B 0x0003 0x8776) := by decide +kernel

/-- V-RSP-1's frame: station 1, byte count 4, values 0x000A and 0x0102 (R95). -/
theorem test_decode_FrameRhrRsp :
    decodesTo (.frame .response [0x01, 0x03, 0x04, 0x00, 0x0A, 0x01, 0x02, 0x5A, 0x60]) (.frameRhrRsp 0x01 0x04 [0x000A, 0x0102] 0x605A) && Instr.wellFormed (.frameRhrRsp 0x01 0x04 [0x000A, 0x0102] 0x605A) := by decide +kernel

/-- V-REQ-7's frame: station 1, register 5, value 0x1234 (R96). -/
theorem test_decode_FrameWsrReq :
    decodesTo (.frame .request [0x01, 0x06, 0x00, 0x05, 0x12, 0x34, 0x94, 0xBC]) (.frameWsrReq 0x01 0x0005 0x1234 0xBC94) && Instr.wellFormed (.frameWsrReq 0x01 0x0005 0x1234 0xBC94) := by decide +kernel

/-- V-RSP-8's frame, the echo (R97). -/
theorem test_decode_FrameWsrRsp :
    decodesTo (.frame .response [0x01, 0x06, 0x00, 0x05, 0x12, 0x34, 0x94, 0xBC]) (.frameWsrRsp 0x01 0x0005 0x1234 0xBC94) && Instr.wellFormed (.frameWsrRsp 0x01 0x0005 0x1234 0xBC94) := by decide +kernel

/-- V-REQ-10's frame: station 1, start 1, count 2, byte count 4, values 0x000A and 0x0102 (R98). -/
theorem test_decode_FrameWmrReq :
    decodesTo (.frame .request [0x01, 0x10, 0x00, 0x01, 0x00, 0x02, 0x04, 0x00, 0x0A, 0x01, 0x02, 0x92, 0x30]) (.frameWmrReq 0x01 0x0001 0x0002 0x04 [0x000A, 0x0102] 0x3092) && Instr.wellFormed (.frameWmrReq 0x01 0x0001 0x0002 0x04 [0x000A, 0x0102] 0x3092) := by decide +kernel

/-- V-RSP-11's frame: station 1, start 1, count 2 (R99). -/
theorem test_decode_FrameWmrRsp :
    decodesTo (.frame .response [0x01, 0x10, 0x00, 0x01, 0x00, 0x02, 0x10, 0x08]) (.frameWmrRsp 0x01 0x0001 0x0002 0x0810) && Instr.wellFormed (.frameWmrRsp 0x01 0x0001 0x0002 0x0810) := by decide +kernel

/-- V-BEX-1's frame: exception code 2 (R100). -/
theorem test_decode_FrameExcRhr :
    decodesTo (.frame .response [0x01, 0x83, 0x02, 0xC0, 0xF1]) (.frameExcRhr 0x01 0x02 0xF1C0) && Instr.wellFormed (.frameExcRhr 0x01 0x02 0xF1C0) := by decide +kernel

/-- V-BEX-5's frame (R100). -/
theorem test_decode_FrameExcWsr :
    decodesTo (.frame .response [0x01, 0x86, 0x02, 0xC3, 0xA1]) (.frameExcWsr 0x01 0x02 0xA1C3) && Instr.wellFormed (.frameExcWsr 0x01 0x02 0xA1C3) := by decide +kernel

/-- V-BEX-4's frame (R100). -/
theorem test_decode_FrameExcWmr :
    decodesTo (.frame .response [0x11, 0x90, 0x04, 0x4C, 0x06]) (.frameExcWmr 0x11 0x04 0x064C) && Instr.wellFormed (.frameExcWmr 0x11 0x04 0x064C) := by decide +kernel

/-- A frame of three bytes, a Write Multiple Registers request whose length is not 9 + 2N, and function 0x0A, which is no form (R90, R102, R101). -/
theorem test_decode_frame_rejects :
    rejects (.frame .request [0x01, 0x03, 0x00]) .frameTooShort &&
    rejects (.frame .request [0x01, 0x10, 0x00, 0x01, 0x00, 0x02, 0x04, 0x00, 0x0A, 0x92, 0x30]) .wrongLength &&
    rejects (.frame .response [0x01, 0x0A, 0x02, 0x00]) .unsupportedFunction &&
    rejects (.frame .response (List.replicate 257 0x03)) .frameTooLong := by decide +kernel

/-! ## WellFormed refuses an ill-formed term of each kind -/

/-- 126 register values make a response of 257 bytes, and a request's count is the number of its values (R90, R98). -/
theorem test_shaped_refuses :
    Instr.shaped (.frameRhrRsp 1 0xFC (List.replicate 126 0) 0) = false ∧ Instr.shaped (.frameRhrRsp 1 0xFA (List.replicate 125 0) 0) = true ∧
    Instr.shaped (.frameWmrReq 1 0 2 4 [0] 0) = false := by decide +kernel

/-- Counts 0 and 126, and byte counts that are not twice the count (R94, R95, R98, R99). -/
theorem test_countsAgree_refuses :
    Instr.countsAgree (.frameRhrReq 1 0 0 0) = false ∧ Instr.countsAgree (.frameRhrReq 1 0 126 0) = false ∧
    Instr.countsAgree (.frameRhrRsp 1 3 [0, 0] 0) = false ∧ Instr.countsAgree (.frameWmrReq 1 0 1 3 [0] 0) = false ∧
    Instr.countsAgree (.frameWmrRsp 1 0 124 0) = false := by decide +kernel

/-- Stations 0 and 248 (R91). -/
theorem test_stationValid_refuses :
    Instr.stationValid (.frameRhrReq 0 0 1 0) = false ∧ Instr.stationValid (.frameExcRhr 248 2 0) = false ∧
    Instr.stationValid (.frameExcRhr 247 2 0) = true := by decide +kernel

/-- V-PRS-5's trailer C5 CE is not the CRC of 01 03 00 00 00 0A (R93). -/
theorem test_crcValid_refuses :
    Instr.crcValid (.frameRhrReq 1 0 10 0xCEC5) = false ∧ Instr.crcValid (.frameRhrReq 1 0 10 0xCDC5) = true := by decide +kernel

/-! ## One step of each command -/

/-- V-CRC-8. -/
theorem test_crc16_check_value :
    ends (exec (.crc16 true false) (operands (filled [] [0x31, 0x32, 0x33, 0x34, 0x35, 0x36, 0x37, 0x38, 0x39]) 0 0 9 0)) fun t =>
      t.status.code == .success && t.crc == 0x4B37#16 := by decide +kernel

/-- V-CRC-10: SRC = 1 reads FRAME, and the residue of a correct frame is 0. -/
theorem test_crc16_reads_frame :
    ends (exec (.crc16 true true) (operands (filled [0x01, 0x03, 0x00, 0x00, 0x00, 0x0A, 0xC5, 0xCD] []) 0 0 8 0)) fun t =>
      t.status.code == .success && t.crc == 0#16 := by decide +kernel

/-- V-BLD-14. -/
theorem test_build :
    ends (exec (.build true false) (operands (filled [] [0x00, 0x6B, 0x00, 0x03]) 17 3 4 256)) fun t =>
      t.status.code == .success && shows t .frame [0x11, 0x03, 0x00, 0x6B, 0x00, 0x03, 0x76, 0x87] && t.olen == 8 && t.crc == 0x8776#16 := by decide +kernel

/-- V-BLD-7: eight bytes do not fit in seven. -/
theorem test_build_capacity :
    ends (exec (.build true false) (operands (filled [] [0x00, 0x00, 0x00, 0x0A]) 1 3 4 7)) fun t =>
      t.status.code == .invalidParam && t.olen == 0 && t.byteAt .frame 0 == none := by decide +kernel

/-- V-BEX-5: CAP, DP and SRC are ignored. -/
theorem test_buildExc :
    ends (exec (.buildExc true true) ({ operands State.reset 1 6 0 0 with exc := 2 })) fun t =>
      t.status.code == .success && shows t .frame [0x01, 0x86, 0x02, 0xC3, 0xA1] && t.olen == 5 := by decide +kernel

/-- V-PRS-14: a longer exception frame. -/
theorem test_parse_exception :
    ends (exec (.parse false false) (operands (filled [0x01, 0x83, 0x02, 0x09, 0x09, 0x57, 0xD2] []) 1 3 7 256)) fun t =>
      t.status.code == .exception && t.status.isExc && t.status.excp && t.exc == 2 && t.olen == 0 := by decide +kernel

/-- V-PRS-12: a corrupted exception flag is caught as CrcError. -/
theorem test_parse_corrupted_flag :
    ends (exec (.parse false false) (operands (filled [0x01, 0x03, 0x02, 0xC0, 0xF1] []) 1 3 5 256)) fun t =>
      t.status.code == .crcError && !t.status.isExc && t.exc == 0 := by decide +kernel

/-- V-REQ-5. -/
theorem test_reqRhr :
    ends (exec (.reqRhr false false) ({ operands State.reset 1 0 0 0 with regAddr := 0xFFFF, count := 125 })) fun t =>
      t.status.code == .success && shows t .frame [0x01, 0x03, 0xFF, 0xFF, 0x00, 0x7D, 0x85, 0xCF] && t.rlen == 255 := by decide +kernel

/-- V-REQ-8. -/
theorem test_reqWsr :
    ends (exec (.reqWsr false false) ({ operands State.reset 247 0 0 0 with regAddr := 0xFFFF, value := 0xFFFF })) fun t =>
      t.status.code == .success && shows t .frame [0xF7, 0x06, 0xFF, 0xFF, 0xFF, 0xFF, 0x9C, 0xC8] && t.rlen == 8 := by decide +kernel

/-- V-REQ-10. -/
theorem test_reqWmr :
    ends (exec (.reqWmr true false) ({ operands (filled [] [0x0A, 0x00, 0x02, 0x01]) 1 0 0 0 with regAddr := 1, count := 2 })) fun t =>
      t.status.code == .success &&
        shows t .frame [0x01, 0x10, 0x00, 0x01, 0x00, 0x02, 0x04, 0x00, 0x0A, 0x01, 0x02, 0x92, 0x30] && t.olen == 13 := by decide +kernel

/-- V-REQ-16: D[3] is unwritten. -/
theorem test_reqWmr_unwritten :
    refuses (exec (.reqWmr true false) ({ operands (filled [] [0x0A, 0x00, 0x02]) 1 0 0 0 with count := 2 })) .unwrittenByte := by decide +kernel

/-- V-RSP-7: wire 12 34 becomes the host halfword 0x1234. -/
theorem test_rspRhr :
    ends (exec (.rspRhr false false) ({ operands (filled [0x01, 0x03, 0x02, 0x12, 0x34, 0xB5, 0x33] []) 1 0 7 0 with count := 1 })) fun t =>
      t.status.code == .success && shows t .data [0x34, 0x12] && t.olen == 2 := by decide +kernel

/-- V-RSP-3: byte-count 3, expected 4. -/
theorem test_rspRhr_byte_count :
    ends (exec (.rspRhr false false) ({ operands (filled [0x01, 0x03, 0x03, 0x00, 0x0A, 0x01, 0x02, 0xEF, 0xA0] []) 1 0 9 0 with count := 2 })) fun t =>
      t.status.code == .invalidResponse && t.byteAt .data 0 == none := by decide +kernel

/-- V-RSP-8. -/
theorem test_rspWsr :
    ends (exec (.rspWsr false false) ({ operands (filled [0x01, 0x06, 0x00, 0x05, 0x12, 0x34, 0x94, 0xBC] []) 1 0 8 0 with regAddr := 5, value := 0x1234 })) fun t =>
      t.status.code == .success && t.olen == 0 := by decide +kernel

/-- V-RSP-9: an off-by-one echo. -/
theorem test_rspWsr_echo :
    ends (exec (.rspWsr false false) ({ operands (filled [0x01, 0x06, 0x00, 0x05, 0x12, 0x35, 0x55, 0x7C] []) 1 0 8 0 with regAddr := 5, value := 0x1234 })) fun t =>
      t.status.code == .invalidResponse := by decide +kernel

/-- V-RSP-11. -/
theorem test_rspWmr :
    ends (exec (.rspWmr false false) ({ operands (filled [0x01, 0x10, 0x00, 0x01, 0x00, 0x02, 0x10, 0x08] []) 1 0 8 0 with regAddr := 1, count := 2 })) fun t =>
      t.status.code == .success := by decide +kernel

/-- V-RSP-14: six payload bytes instead of four. -/
theorem test_rspWmr_length :
    ends (exec (.rspWmr false false) ({ operands (filled [0x01, 0x10, 0x00, 0x01, 0x00, 0x02, 0x00, 0x00, 0x0C, 0x06] []) 1 0 10 0 with regAddr := 1, count := 2 })) fun t =>
      t.status.code == .invalidResponse := by decide +kernel

/-- A block bound to station 5 in this phase of the slave cycle. -/
def bound (frame : List Byte) (p : Phase) (sfunc : Byte) (need : Nat) : State :=
  { filled frame [] with
    status := { StatusReg.reset with init := true, sphase := p }, localAddr := 5, sfunc := sfunc, need := BitVec.ofNat 9 need }

/-- V-SLV-18: re-initialisation abandons the cycle. -/
theorem test_sInit :
    ends (exec (.sInit false false) (operands (bound [0x05, 0x03] .awaitBody 3 8) 7 0 0 0)) fun t =>
      t.status.code == .success && t.status.init && t.status.sphase == .idle && t.need == 0 && t.localAddr == 7 &&
        t.status.word == 0x400#32 := by decide +kernel

/-- V-SLV-21: a failed re-initialisation keeps LOCAL. -/
theorem test_sInit_invalid :
    ends (exec (.sInit false false) (operands (bound [] .idle 0 0) 248 0 0 0)) fun t =>
      t.status.code == .invalidAddress && t.localAddr == 5 && t.status.init := by decide +kernel

/-- V-SLV-8a. -/
theorem test_sHdr :
    ends (exec (.sHdr false false) (bound [0x05, 0x10] .idle 0 0)) fun t =>
      t.status.code == .success && t.sfunc == 0x10 && t.need == 6 && t.status.sphase == .awaitCount := by decide +kernel

/-- V-SLV-4: F[1] is not examined. -/
theorem test_sHdr_other_station :
    ends (exec (.sHdr false false) (bound [0x09] .idle 0 0)) fun t =>
      t.status.code == .invalidAddress && t.status.sphase == .idle && t.need == 0 && t.sfunc == 0 := by decide +kernel

/-- V-SLV-10: count 123. -/
theorem test_sCnt :
    ends (exec (.sCnt false false) (bound [0x05, 0x10, 0x00, 0x01, 0x00, 0x7B] .awaitCount 0x10 6)) fun t =>
      t.status.code == .success && t.need == 255 && t.status.sphase == .awaitBody := by decide +kernel

/-- V-SLV-9: count 124. -/
theorem test_sCnt_oversized :
    ends (exec (.sCnt false false) (bound [0x05, 0x10, 0x00, 0x01, 0x00, 0x7C] .awaitCount 0x10 6)) fun t =>
      t.status.code == .invalidParam && t.need == 0 && t.status.sphase == .idle := by decide +kernel

/-- V-SLV-19: byte-count 5 is reported, not checked. -/
theorem test_sBody :
    ends (exec (.sBody false false) (bound [0x05, 0x10, 0x00, 0x01, 0x00, 0x01, 0x05, 0x12, 0x34, 0x29, 0xF7] .awaitBody 0x10 11)) fun t =>
      t.status.code == .success && t.regAddr == 1 && t.count == 1 && t.bcount == 5 && t.olen == 2 &&
        shows t .data [0x34, 0x12] && t.status.sphase == .idle := by decide +kernel

/-- V-SLV-14: nothing is decoded. -/
theorem test_sBody_crc :
    ends (exec (.sBody false false) (bound [0x05, 0x06, 0x00, 0x01, 0x00, 0x03, 0x99, 0x8E] .awaitBody 6 8)) fun t =>
      t.status.code == .crcError && t.regAddr == 0 && t.value == 0 && t.status.sphase == .idle := by decide +kernel

/-- A slave in the cycle of a count 0 request (NEED 9), FRAME written whole, whose host has since rewritten F[4..6) to 200 and the
trailer to the CRC of that (0xC01A, by hand). -/
def rewritten : State :=
  { bound [] .awaitBody 0x10 9 with
    mem := (([0x05, 0x10, 0x00, 0x01, 0x00, 0xC8, 0x90, 0x1A, 0xC0] ++ List.replicate 247 0x77 : List Byte)).zipIdx.map
      fun (p : Byte × Nat) => (0x100 + p.2, p.1) }

/-- R311 and R240 by hand: the result is computed from the bytes present, so COUNT is 200 and OLEN 400. -/
theorem test_sBody_rewritten_count :
    ends (exec (.sBody false false) rewritten) fun t =>
      t.status.code == .success && t.status.sphase == .idle && t.regAddr == 1 && t.count == 200 && t.bcount == 0x90 &&
        t.olen == 400 := by decide +kernel

/-! ## The bus -/

/-- V-BUS-1. -/
theorem test_bus_little_endian :
    ends (busWrite 0x200 .word 0x04030201#32 State.reset) fun t =>
      gives (busRead 0x202 .half t) 0x403#32 && gives (busRead 0x201 .byte t) 0x2#32 := by decide +kernel

/-- V-BUS-3. -/
theorem test_bus_field_width :
    ends (busWrite 0x010 .word 1023#32 State.reset) (fun t => gives (busRead 0x010 .word t) 0x1FF#32) &&
    ends (busWrite 0x024 .word 0x12345#32 State.reset) (fun t => gives (busRead 0x024 .word t) 0x2345#32) := by decide +kernel

/-- V-BUS-5, V-BUS-6 and V-BUS-8. -/
theorem test_bus_refusals :
    refuses (busRead 0x008 .half State.reset) .registerAccess && refuses (busWrite 0x101 .half 0 State.reset) .misalignedAccess &&
    refuses (busRead 0x200 .byte State.reset) .unwrittenByte := by decide +kernel

/-- V-CMD-5: ISEXC and EXCP are cleared by the prologue, EXC keeps 2. -/
theorem test_not_a_command :
    ends (busWrite 0x000 .word 0x24#32 { State.reset with status := { StatusReg.reset with code := .exception, isExc := true, excp := true }, exc := 2 }) fun t =>
      t.status.word == 0x1#32 && t.exc == 2 := by decide +kernel

/-! ## The step and the opcode table's words -/

/-- The table word of BUILD_EXC with DP and SRC zero is fetched and run: V-BEX-3, ADDR being 0 after reset. -/
theorem test_table_word_command :
    decodeTableWord 32 0x03 = some (.buildExc false false) ∧
    ends (step (State.reset.withFetchWord 32 0x03)) (fun t => t.status.code == .invalidAddress && t.pending == []) = true := by decide +kernel

/-- The table word 0x83 of FRAME_EXC_RHR: byte 1 of a frame, its other bytes zero (log 5). -/
theorem test_table_word_frame :
    decodeTableWord 8 0x83 = some (.frameExcRhr 0 0 0) ∧
    ends (step (State.reset.withFetchWord 8 0x83)) (fun t => shows t .frame [0x00, 0x83, 0x00, 0x00, 0x00] && t.pending == []) = true := by decide +kernel

/-- The table word 0x10: the request form is taken, with no values (log 5). -/
theorem test_table_word_multiple :
    decodeTableWord 8 0x10 = some (.frameWmrReq 0 0 0 0 [] 0) ∧ decodeTableWord 8 0x0A = none := by decide +kernel

/-- An access at BASE + off reaches the window of the slot where the block is mapped, and no other (R60; log 1). -/
theorem test_base :
    ends (step { State.reset with baseSlot := 3, pending := [.write 0xC08 .word 7] }) (fun t => t.addr == 7) &&
    ends (step { State.reset with baseSlot := 3, pending := [.write 0x808 .word 7] }) (fun t => t.addr == 0) := by decide +kernel

/-! ## Witnesses: states and operands that meet each obligation's hypotheses -/

theorem holds_of_shows {s : State} {b : Buffer} {bytes : List Byte} (h : shows s b bytes = true) : s.Holds b 0 bytes := by
  intro k hk
  simp only [shows, List.all_eq_true, List.mem_range, beq_iff_eq] at h
  simpa using h k hk

theorem filled_frame {frame : List Byte} (data : List Byte) (h : frame.length ≤ 256) : (filled frame data).Holds .frame 0 frame := by
  intro k hk
  rw [byteAt_of_lt (by omega)]
  simp only [filled, Buffer.base, Config.frameOffset]
  rw [Memory.read_writeAll, if_neg (by omega), Memory.read_writeAll, if_pos (by omega), show 0x100 + (0 + k) - 0x100 = k by omega]

theorem filled_data {data : List Byte} (frame : List Byte) (h : data.length ≤ 256) : (filled frame data).Holds .data 0 data := by
  intro k hk
  rw [byteAt_of_lt (by omega)]
  simp only [filled, Buffer.base, Config.dataOffset]
  rw [Memory.read_writeAll, if_pos (by omega), show 0x200 + (0 + k) - 0x200 = k by omega]

/-- Nothing is written after reset. -/
theorem blank (b : Buffer) (i : Nat) : State.reset.byteAt b i = none := by
  unfold State.byteAt; split <;> rfl

/-- A block with its operands REGADDR, COUNT and VALUE set. -/
def values (s : State) (regAddr count value : Half) : State := { s with regAddr := regAddr, count := count, value := value }

theorem operands_holds {s : State} {b : Buffer} {i : Nat} {bs : List Byte} (a f : Byte) (len cap : Nat) (h : s.Holds b i bs) :
    (operands s a f len cap).Holds b i bs := (holds_congr (s := s) (by rfl) b i bs).mpr h

theorem values_holds {s : State} {b : Buffer} {i : Nat} {bs : List Byte} (x n v : Half) (h : s.Holds b i bs) :
    (values s x n v).Holds b i bs := (holds_congr (s := s) (by rfl) b i bs).mpr h

theorem bound_holds {frame bs : List Byte} {b : Buffer} {i : Nat} (p : Phase) (f : Byte) (n : Nat) (h : (filled frame []).Holds b i bs) :
    (bound frame p f n).Holds b i bs := (holds_congr (s := filled frame []) (by rfl) b i bs).mpr h

theorem values_received {s : State} {f : Byte} {p : List Byte} (x n v : Half) (h : s.Received f p) : (values s x n v).Received f p :=
  ⟨h.1, h.2.1, values_holds x n v h.2.2⟩

theorem validStation (a : Byte) (h : (decide (1 ≤ a.toNat) && decide (a.toNat ≤ 247)) = true) : StationValid a := by
  simpa [StationValid] using h

/-- A block in which a frame has arrived with its length in LEN and its station in ADDR. -/
def arrived (a f : Byte) (p : List Byte) (func : Byte) (cap : Nat) : State :=
  operands (filled (wireFrame a f p) []) a func (p.length + 4) cap

theorem arrived_received (a f func : Byte) (cap : Nat) {p : List Byte} (h : p.length ≤ 252) : (arrived a f p func cap).Received f p := by
  have hl : (BitVec.ofNat 9 (p.length + 4)).toNat = p.length + 4 := by simp; omega
  refine ⟨hl.symm, by show (BitVec.ofNat 9 _).toNat ≤ 256; omega, ?_⟩
  exact operands_holds _ _ _ _ (filled_frame [] (by simp; omega))

theorem witness_OtherWordsAreNotCommands : ∃ w x y : Word, 1024 ≤ w.toNat ∧ x.toNat % 256 ∉ [0x01, 0x02, 0x20, 0x23] ∧
    y.toNat < 1024 ∧ y.toNat % 256 ∈ [0x01, 0x02, 0x20, 0x23] := ⟨1024#32, 0x24#32, 0x323#32, by decide⟩

theorem witness_DecodeEncodeAgree : Instr.shaped (.frameRhrRsp 1 250 (List.replicate 125 7) 0) = true ∧
    Instr.shaped (.frameWmrReq 1 0 123 246 (List.replicate 123 7) 0) = true ∧ Instr.shaped (.frameWmrReq 0 0 0 9 [] 0) = true := by
  decide +kernel

theorem witness_FrameBytesDecodeExactly :
    decode (.frame .response [0x01, 0x90, 0x04, 0x4D, 0xC3]) = .ok (.frameExcWmr 0x01 0x04 0xC34D) := by decide

theorem witness_PlatformResetAndIdle : (∃ s : State, s.pending = .reset :: [.read 0 .word]) ∧ State.reset.pending = [] :=
  ⟨⟨{ State.reset with pending := [.reset, .read 0 .word] }, rfl⟩, rfl⟩

theorem witness_OperandWriteKeepsFieldWidth : (Reg.addr, 8) ∈ [(Reg.addr, 8), (.value, 16)] := by decide

theorem witness_RegisterMapReads : (0x044 ≤ 0x044 ∧ 0x044 % 4 = 0) ∧ (0x0FC < 0x100 ∧ 0x0FC % 4 = 0) := by decide

theorem witness_RegisterSpaceAccess : ¬ (Width.word = .word ∧ 0x0FF % 4 = 0) ∧ Reg.bcount.offset = 0x040 ∧ 0x0FC < 0x100 ∧
    decode (.command 0x00000023#32) = .ok (.sBody false false) := by decide

/-- An aligned word at the buffer's end, a misaligned halfword, held bytes and an unwritten one. -/
theorem witness_BufferAccessIsLittleEndian : (252 < 256 ∧ 252 % 4 = 0) ∧ 255 % 2 ≠ 0 ∧
    (∃ s : State, s.Holds .data 0 [1, 2, 3, 4]) ∧ State.reset.SomeUnwritten .frame 252 4 :=
  ⟨by decide, by decide, ⟨_, filled_data [] (by simp)⟩, 0, by decide, blank _ _⟩

theorem witness_OnlyCmdWritesRunCommands :
    (∃ s t : State, ∃ rest, s.pending = .read 0x004 .word :: rest ∧ step s = .next t) ∧
    ∃ s t : State, ∃ rest, s.pending = .write 0x008 .word 5 :: rest ∧ 0x008 ≠ 0x400 * s.baseSlot ∧ step s = .next t :=
  ⟨⟨{ State.reset with pending := [.read 0x004 .word] }, _, _, rfl, rfl⟩,
    ⟨{ State.reset with pending := [.write 0x008 .word 5] }, _, _, rfl, by decide, rfl⟩⟩

/-- The window's first and last offsets, and the addresses beside it, for a block mapped at 0x400. -/
theorem witness_WindowIsAtBase : ∃ s : State, s.baseSlot = 1 ∧ 0x400 = 0x400 * s.baseSlot + 0 ∧ 0x7FF = 0x400 * s.baseSlot + 0x3FF ∧
    0x3FF < 0x400 * s.baseSlot ∧ 0x400 * s.baseSlot + 0x400 ≤ 0x800 :=
  ⟨{ State.reset with baseSlot := 1 }, by decide⟩

theorem witness_WindowIsAtBase_reads : (∃ x, busRead 0x000 .word State.reset = .next x) ∧
    busRead 0x3FF .half State.reset = .refused .misalignedAccess := ⟨⟨0, rfl⟩, rfl⟩

theorem witness_StepRunsDecodedInstruction :
    (∃ s : State, s.pending = [.write (0x400 * s.baseSlot) .word 0x003#32] ∧ decode (.command 0x003#32) = .ok (.buildExc false false)) ∧
    ∃ s : State, s.pending = [.frame .response [0x01, 0x83, 0x02, 0xC0, 0xF1]] ∧
      decode (.frame .response [0x01, 0x83, 0x02, 0xC0, 0xF1]) = .ok (.frameExcRhr 0x01 0x02 0xF1C0) :=
  ⟨⟨{ State.reset with pending := [.write 0 .word 0x003#32] }, rfl, by decide⟩,
    ⟨{ State.reset with pending := [.frame .response [0x01, 0x83, 0x02, 0xC0, 0xF1]] }, rfl, by decide⟩⟩

theorem witness_AnyBytesMayArrive : (∃ s : State, s.pending = [.frame .request [0x05]]) ∧
    decode (.frame .request [0x05]) = .error .frameTooShort :=
  ⟨⟨{ State.reset with pending := [.frame .request [0x05]] }, rfl⟩, by decide⟩

theorem witness_ActionsRunInOrder : ∃ s t : State, s.pending = [.write 0x008 .word 5, .reset] ∧ step s = .next t :=
  ⟨{ State.reset with pending := [.write 0x008 .word 5, .reset] }, _, rfl, rfl⟩

theorem witness_Crc : ([0x01] : List Byte) ≠ [] ∧ ([0x01, 0x02] : List Byte).length = ([0x03, 0x04] : List Byte).length ∧
    List.zipWith (· ^^^ ·) ([0x01, 0x02] : List Byte) [0x03, 0x04] = List.zipWith (· ^^^ ·) ([0x00, 0x00] : List Byte) [0x02, 0x06] := by
  decide

/-- The last bit of the trailer of the shortest frame, flipped. -/
theorem witness_SingleBitFlipIsDetected : ∃ s : State, s.addr = 1 ∧ s.len.toNat = 4 ∧
    s.Holds .frame 0 ((1 :: 0x03 :: [] ++ leBytes (crc16 (1 :: 0x03 :: []))).set 3
      ((1 :: 0x03 :: [] ++ leBytes (crc16 (1 :: 0x03 :: []))).getD 3 0 ^^^ BitVec.twoPow 8 7)) :=
  ⟨operands (filled ((1 :: 0x03 :: [] ++ leBytes (crc16 (1 :: 0x03 :: []))).set 3
      ((1 :: 0x03 :: [] ++ leBytes (crc16 (1 :: 0x03 :: []))).getD 3 0 ^^^ BitVec.twoPow 8 7)) []) 1 3 4 256, rfl, rfl,
    operands_holds _ _ _ _ (filled_frame [] (by simp [leBytes]))⟩

/-- LEN at 0, 256 and 257, with 256 held bytes and with an unwritten one. -/
theorem witness_Crc16CommandRule : State.reset.len.toNat = 0 ∧ (operands State.reset 0 0 257 0).len.toNat = 257 ∧
    (∃ s : State, s.len.toNat = 256 ∧ s.Holds .data 0 (List.replicate 256 0)) ∧
    (operands State.reset 0 0 256 0).SomeUnwritten .frame 0 256 :=
  ⟨rfl, rfl, ⟨operands (filled [] (List.replicate 256 0)) 0 0 256 0, rfl,
    operands_holds _ _ _ _ (filled_data [] (List.length_replicate ..).le)⟩, 255, by decide, by rfl⟩

/-- Stations 0, 1, 247 and 248; LEN 0 and 1; capacity one short, and just enough at the largest frame. -/
theorem witness_BuildRule : ¬ StationValid 0 ∧ ¬ StationValid 248 ∧ StationValid 1 ∧ StationValid 247 ∧
    (min (operands State.reset 1 3 4 7).cap.toNat 256 < (operands State.reset 1 3 4 7).len.toNat + 4) ∧
    (∃ s : State, s.len.toNat + 4 = min s.cap.toNat 256 ∧ s.len.toNat = 252 ∧ s.Holds .data 0 (List.replicate 252 0x55)) ∧
    (operands State.reset 1 3 1 5).SomeUnwritten .data 0 1 :=
  ⟨by unfold StationValid; decide, by unfold StationValid; decide, validStation _ rfl, validStation _ rfl,
    by decide, ⟨operands (filled [] (List.replicate 252 0x55)) 1 3 252 511, rfl, rfl,
      operands_holds _ _ _ _ (filled_data [] (by rw [List.length_replicate]; omega))⟩, 0, by decide, by rfl⟩

/-- The cases Deframe decides: LEN 257, 3, 4 and 256, another address byte, unwritten bytes, a wrong CRC, an exception response with
and without a code byte, another function, and a payload of the expected function at both ends of its length. -/
theorem witness_DeframeEnds :
    (operands State.reset 1 3 257 0).len.toNat = 257 ∧ (operands State.reset 1 3 3 0).len.toNat = 3 ∧
    (∃ s : State, s.len.toNat = 4 ∧ s.byteAt .frame 0 = some 2 ∧ (2 : Byte) ≠ s.addr) ∧
    (∃ s : State, s.len.toNat = 256 ∧ s.byteAt .frame 0 = none) ∧
    (∃ s : State, s.len.toNat = 4 ∧ s.byteAt .frame 0 = some s.addr ∧ s.SomeUnwritten .frame 0 4) ∧
    (∃ s : State, ∃ body c, body.length + 2 = s.len.toNat ∧ body.head? = some s.addr ∧ s.Holds .frame 0 (body ++ leBytes c) ∧
      crc16 body ≠ c) ∧
    (∃ s : State, s.Received 0x83 [2]) ∧ (∃ s : State, s.Received 0x83 []) ∧
    (∃ s : State, (0x04 : Byte) ≠ 0x83 ∧ (0x04 : Byte) ≠ 0x03 ∧ s.Received 0x04 [0]) ∧
    (∃ s : State, s.Received 0x03 []) ∧ ∃ s : State, s.Received 0x03 (List.replicate 252 0) :=
  ⟨rfl, rfl, ⟨operands (filled [2] []) 1 3 4 0, rfl, rfl, by decide⟩, ⟨operands State.reset 1 3 256 0, rfl, rfl⟩,
    ⟨operands (filled [1] []) 1 3 4 0, rfl, rfl, 1, by decide, rfl⟩,
    ⟨operands (filled ([1, 3] ++ leBytes 0x2141) []) 1 3 4 0, [1, 3], 0x2141, rfl, rfl,
      operands_holds _ _ _ _ (filled_frame [] (by simp [leBytes])), by decide +kernel⟩,
    ⟨_, arrived_received 1 0x83 3 256 (by simp)⟩, ⟨_, arrived_received 1 0x83 3 256 (by simp)⟩,
    ⟨_, by decide, by decide, arrived_received 1 0x04 3 256 (by simp)⟩,
    ⟨_, arrived_received 1 0x03 3 256 (by simp)⟩, ⟨_, arrived_received 1 0x03 3 256 (List.length_replicate ..).le⟩⟩

/-- A payload one byte above the capacity, and one that just fits. -/
theorem witness_ParseRule : ∃ s u : State, (s.func.toNat < 0x80 ∧ s.Received s.func [1, 2] ∧ min s.cap.toNat 256 < 2) ∧
    u.func.toNat < 0x80 ∧ u.Received u.func [1, 2] ∧ 2 ≤ min u.cap.toNat 256 :=
  ⟨arrived 1 0x7F [1, 2] 0x7F 1, arrived 1 0x03 [1, 2] 0x03 2,
    ⟨by decide, arrived_received 1 0x7F 0x7F 1 (by simp), by decide⟩, by decide, arrived_received 1 0x03 0x03 2 (by simp), by decide⟩

/-- BUILD's next state, for a function below 0x80 and one above. -/
theorem witness_BuildThenParseGivesPayload : ∀ f ∈ [(0x03 : Byte), 0x83], ∃ s t u : State,
    exec (.build true false) s = .next t ∧ t.status.code = .success ∧ 1 = s.len.toNat ∧ s.Holds .data 0 [2] ∧
    u.len = t.olen ∧ u.addr = s.addr ∧ s.func = f ∧ u.func = s.func ∧ 1 ≤ u.cap.toNat ∧
    (∀ i, u.byteAt .frame i = t.byteAt .frame i) := by
  intro f hf
  have hs : ends (exec (.build true false) (operands (filled [] [2]) 1 f 1 256)) (fun t => t.status.code == .success) = true := by
    simp only [List.mem_cons, List.not_mem_nil, or_false] at hf
    rcases hf with rfl | rfl <;> decide +kernel
  obtain ⟨t, ht, hc⟩ := exists_of_ends hs
  exact ⟨_, t, { t with len := t.olen, addr := 1, func := f, cap := 1 }, ht, by simpa using hc, rfl,
    operands_holds _ _ _ _ (filled_data [] (by simp)), rfl, rfl, rfl, rfl, Nat.le_refl 1, fun _ => rfl⟩

/-- COUNT at 0, 1, 125 and 126. -/
theorem witness_ReqRhrRule : ∀ n ∈ [(0 : Half), 1, 125, 126], ∃ s : State, StationValid s.addr ∧ s.count = n ∧
    ((s.count.toNat < 1 ∨ 125 < s.count.toNat) ∨ (1 ≤ s.count.toNat ∧ s.count.toNat ≤ 125)) :=
  fun n _ => ⟨values (operands State.reset 247 0 0 0) 0 n 0, validStation _ rfl, rfl, by
    show (n.toNat < 1 ∨ 125 < n.toNat) ∨ (1 ≤ n.toNat ∧ n.toNat ≤ 125); omega⟩

/-- COUNT at 0, 124, 1 and 123, with that many register values held, and with an unwritten byte. -/
theorem witness_ReqWmrRule : (∃ s : State, StationValid s.addr ∧ s.count.toNat < 1) ∧ (∃ s : State, StationValid s.addr ∧ s.count.toNat = 124) ∧
    (∀ n ∈ [1, 123], ∃ (s : State) (vs : List Half), StationValid s.addr ∧ s.count.toNat = n ∧ vs.length = s.count.toNat ∧
      s.Holds .data 0 (viewRegs vs)) ∧
    ∃ s : State, StationValid s.addr ∧ s.count.toNat = 1 ∧ s.SomeUnwritten .data 0 (2 * s.count.toNat) := by
  refine ⟨⟨operands State.reset 1 0 0 0, validStation _ rfl, by decide⟩,
    ⟨values (operands State.reset 1 0 0 0) 0 124 0, validStation _ rfl, rfl⟩, ?_,
    ⟨values (operands (filled [] [7]) 1 0 0 0) 0 (1) 0, validStation _ rfl, rfl, 1, by decide, rfl⟩⟩
  intro n hn
  have hn' : n ≤ 123 := by simp at hn; omega
  have hl : (BitVec.ofNat 16 n).toNat = n := by simp; omega
  refine ⟨values (operands (filled [] (viewRegs (List.replicate n 0x1111))) 1 0 0 0) 0 (BitVec.ofNat 16 n) 0,
    List.replicate n 0x1111, validStation _ rfl, hl, by show _ = (BitVec.ofNat 16 n).toNat; rw [hl, List.length_replicate], ?_⟩
  exact values_holds _ _ _ (operands_holds _ _ _ _ (filled_data [] (by simp; omega)))

/-- A payload of the wrong length, a wrong byte count, and an accepted response, at COUNT 1 and 125. -/
theorem witness_RspRhrRule : (∃ s : State, s.count.toNat = 1 ∧ s.Received 0x03 [2] ∧ [(2 : Byte)].length ≠ 1 + 2 * 1) ∧
    (∃ s : State, s.count.toNat = 1 ∧ s.Received 0x03 [3, 0, 0] ∧ (3 : Byte).toNat ≠ 2 * 1) ∧
    ∃ s : State, s.count.toNat = 125 ∧ s.Received 0x03 (250 :: wireRegs (List.replicate 125 0)) ∧ (250 : Byte).toNat = 2 * 125 :=
  ⟨⟨values (arrived 1 3 [2] 0 0) 0 1 0, rfl, values_received _ _ _ (arrived_received 1 3 0 0 (by simp)), by decide⟩,
    ⟨values (arrived 1 3 [3, 0, 0] 0 0) 0 1 0, rfl, values_received _ _ _ (arrived_received 1 3 0 0 (by simp)), by decide⟩,
    ⟨values (arrived 1 3 (250 :: wireRegs (List.replicate 125 0)) 0 0) 0 125 0, rfl, values_received _ _ _ (arrived_received 1 3 0 0 (by
      rw [List.length_cons, length_wireRegs, List.length_replicate]; omega)), by decide⟩⟩

theorem witness_RspWsrRule : (∃ s : State, s.Received 0x06 [0, 5, 0x12, 0x35] ∧ [0, 5, 0x12, 0x35] ≠ beBytes s.regAddr ++ beBytes s.value) ∧
    ∃ s : State, s.Received 0x06 (beBytes s.regAddr ++ beBytes s.value) :=
  ⟨⟨values (arrived 1 6 [0, 5, 0x12, 0x35] 0 0) 5 0 0x1234, values_received _ _ _ (arrived_received 1 6 0 0 (by simp)), by decide⟩,
    ⟨values (arrived 1 6 [0, 5, 0x12, 0x34] 0 0) 5 0 0x1234, values_received _ _ _ (arrived_received 1 6 0 0 (by simp))⟩⟩

/-- COUNT at 0 and 124, and an echo with COUNT 123 that differs, and one that does not. -/
theorem witness_RspWmrRule : (0#16).toNat < 1 ∧ 123 < (124#16).toNat ∧
    (∃ s : State, s.count.toNat = 123 ∧ s.Received 0x10 [0, 1, 0, 2] ∧ [0, 1, 0, 2] ≠ beBytes s.regAddr ++ beBytes s.count) ∧
    ∃ s : State, s.count.toNat = 1 ∧ s.Received 0x10 (beBytes s.regAddr ++ beBytes s.count) :=
  ⟨by decide, by decide,
    ⟨values (arrived 1 0x10 [0, 1, 0, 2] 0 0) 1 123 0, rfl, values_received _ _ _ (arrived_received 1 0x10 0 0 (by simp)), by decide⟩,
    ⟨values (arrived 1 0x10 [0, 1, 0, 1] 0 0) 1 1 0, rfl, values_received _ _ _ (arrived_received 1 0x10 0 0 (by simp))⟩⟩

/-- The echo, received where VALUE is the sent one and where it is not. -/
theorem witness_EchoOfTheRequestIsAccepted : ∀ v ∈ [(0x1234 : Half), 0x1235], ∃ s t u : State,
    exec (.reqWsr false false) s = .next t ∧ t.status.code = .success ∧ s.value = 0x1234 ∧ u.value = v ∧
    u.len = t.rlen ∧ u.addr = s.addr ∧ u.regAddr = s.regAddr ∧ (∀ i, u.byteAt .frame i = t.byteAt .frame i) := by
  intro v _
  obtain ⟨t, ht, hc⟩ := exists_of_ends (r := exec (.reqWsr false false) (values (operands State.reset 1 0 0 0) 5 0 0x1234))
    (p := fun t => t.status.code == .success) (by decide +kernel)
  exact ⟨_, t, { t with len := t.rlen, addr := 1, regAddr := 5, value := v }, ht, by simpa using hc, rfl, rfl, rfl, rfl, rfl, fun _ => rfl⟩

/-- INIT, the address byte, the function byte and the unwritten bytes of S_HDR. -/
theorem witness_SHdrRule : State.reset.status.init = false ∧
    (∃ s : State, s.status.init = true ∧ s.byteAt .frame 0 = none) ∧
    (∃ s : State, s.status.init = true ∧ s.byteAt .frame 0 = some 9 ∧ (9 : Byte) ≠ s.localAddr) ∧
    (∃ s : State, s.status.init = true ∧ s.byteAt .frame 0 = some s.localAddr ∧ s.byteAt .frame 1 = none) ∧
    ∀ f1 ∈ [(0x03 : Byte), 0x06, 0x10, 0x83], ∃ s : State, s.status.init = true ∧ s.byteAt .frame 0 = some s.localAddr ∧
      s.byteAt .frame 1 = some f1 :=
  ⟨rfl, ⟨bound [] .idle 0 0, rfl, rfl⟩, ⟨bound [9] .idle 0 0, rfl, rfl, by decide⟩, ⟨bound [5] .idle 0 0, rfl, rfl, rfl⟩,
    fun f1 _ => ⟨bound [5, f1] .idle 0 0, rfl, rfl, rfl⟩⟩

/-- Two memories that agree on F[0] and F[1] and differ above. -/
theorem witness_SHdrExaminesTwoBytes : ∃ s u : State, u = { s with mem := u.mem } ∧ u.byteAt .frame 0 = s.byteAt .frame 0 ∧
    u.byteAt .frame 1 = s.byteAt .frame 1 ∧ u.byteAt .frame 2 ≠ s.byteAt .frame 2 :=
  ⟨bound [5, 3] .idle 0 0, bound [5, 3, 1] .idle 0 0, rfl, rfl, rfl, by decide⟩

/-- INIT, the phase, an unwritten count byte, and counts 0, 123 and 124. -/
theorem witness_SCntRule : (∃ s : State, s.status.init = true ∧ s.status.sphase ≠ .awaitCount) ∧
    (∃ s : State, s.status.init = true ∧ s.status.sphase = .awaitCount ∧ s.SomeUnwritten .frame 4 2) ∧
    ∀ n ∈ [(0 : Half), 123, 124], ∃ s : State, s.status.init = true ∧ s.status.sphase = .awaitCount ∧ s.Holds .frame 4 (beBytes n) := by
  refine ⟨⟨bound [] .idle 0 0, rfl, by decide⟩, ⟨bound [5, 0x10, 0, 1, 0] .awaitCount 0x10 6, rfl, rfl, 1, by decide, rfl⟩, ?_⟩
  intro n _
  refine ⟨bound ([5, 0x10, 0, 1] ++ beBytes n) .awaitCount 0x10 6, rfl, rfl, ?_⟩
  exact (holds_append.mp (bound_holds _ _ _ (filled_frame [] (by simp)))).2

/-- NEED at its least and greatest, a wrong CRC, a right one for each function, and an unwritten value byte. -/
theorem witness_SBodyRule :
    (∃ s : State, s.status.init = true ∧ s.status.sphase ≠ .awaitBody) ∧
    (∃ s : State, s.status.init = true ∧ s.status.sphase = .awaitBody ∧ s.need.toNat = 256 ∧ s.SomeUnwritten .frame 0 256) ∧
    (∃ s : State, ∃ body c, s.status.init = true ∧ s.status.sphase = .awaitBody ∧ s.need.toNat = 2 ∧ body.length + 2 = s.need.toNat ∧
      s.Holds .frame 0 (body ++ leBytes c) ∧ crc16 body ≠ c) ∧
    (∀ f ∈ [(0x03 : Byte), 0x06], ∃ s : State, ∃ body, s.status.init = true ∧ s.status.sphase = .awaitBody ∧ s.sfunc = f ∧
      s.need.toNat = 8 ∧ body.length = 6 ∧ s.Holds .frame 0 (body ++ leBytes (crc16 body)) ∧ s.Holds .frame 2 (beBytes 1 ++ beBytes 3)) ∧
    (∃ s : State, ∃ body, s.status.init = true ∧ s.status.sphase = .awaitBody ∧ s.sfunc = 0x10 ∧ s.need.toNat = 11 ∧ body.length = 9 ∧
      s.Holds .frame 0 (body ++ leBytes (crc16 body)) ∧ s.Holds .frame 2 (beBytes 1 ++ beBytes 1 ++ [2]) ∧
      s.Finds .frame 7 (wireRegs [0x1234])) ∧
    ∃ s : State, ∃ body, s.status.sphase = .awaitBody ∧ s.sfunc = 0x10 ∧ s.need.toNat = 9 ∧ body.length = 7 ∧
      s.Holds .frame 0 (body ++ leBytes (crc16 body)) ∧ s.Holds .frame 2 (beBytes 1 ++ beBytes 2) ∧ s.SomeUnwritten .frame 6 (min (1 + 2 * 2) 250) := by
  have hold : ∀ (body : List Byte) (p : Phase) (f : Byte) (n : Nat), body.length ≤ 254 →
      (bound (body ++ leBytes (crc16 body)) p f n).Holds .frame 0 (body ++ leBytes (crc16 body)) := fun body p f n h =>
    bound_holds _ _ _ (filled_frame [] (by simp; omega))
  refine ⟨⟨bound [] .idle 0 0, rfl, by decide⟩, ⟨bound [] .awaitBody 0x10 256, rfl, rfl, rfl, 255, by decide, rfl⟩, ?_, ?_, ?_, ?_⟩
  · exact ⟨bound ([] ++ leBytes 1) .awaitBody 3 2, [], 1, rfl, rfl, rfl, rfl,
      bound_holds _ _ _ (filled_frame [] (by simp)), by decide⟩
  · intro f _
    have h := hold ([5, f] ++ (beBytes 1 ++ beBytes 3)) .awaitBody f 8 (by simp)
    refine ⟨_, _, rfl, rfl, rfl, rfl, rfl, h, ?_⟩
    rw [List.append_assoc, holds_append] at h
    exact (holds_append.mp h.2).1
  · have h := hold ([5, 0x10] ++ (beBytes 1 ++ beBytes 1 ++ [2] ++ wireRegs [0x1234])) .awaitBody 0x10 11 (by simp)
    refine ⟨_, _, rfl, rfl, rfl, rfl, rfl, h, ?_⟩
    rw [List.append_assoc, holds_append] at h
    have h := holds_append.mp (holds_append.mp h.2).1
    exact ⟨h.1, finds_of_holds h.2⟩
  · have h := hold ([5, 0x10] ++ ((beBytes 1 ++ beBytes 2) ++ [4])) .awaitBody 0x10 9 (by simp)
    refine ⟨_, _, rfl, rfl, rfl, rfl, h, ?_, 3, by decide, ?_⟩
    · rw [List.append_assoc, holds_append, List.append_assoc, holds_append] at h
      exact h.2.1
    · show (filled _ []).byteAt .frame 9 = none
      rw [byteAt_of_lt (by omega)]
      simp only [filled, Buffer.base, Config.frameOffset, Memory.writeAll]
      rw [Memory.read_writeAll, if_neg (by simp)]; rfl

/-- A state of the cycle in which the count has been rewritten: a request of count 0 accepted by S_CNT (NEED 9), then FRAME written
whole, with 125 in the count field and the CRC right. -/
theorem witness_RewrittenCountStillDecodes : ∃ (s : State) (body : List Byte) (c a n : Half) (bc : Byte), CycleInv s ∧
    s.status.init = true ∧ s.status.sphase = .awaitBody ∧ s.sfunc = 0x10#8 ∧ body.length + 2 = s.need.toNat ∧
    s.Holds .frame 0 (body ++ leBytes c) ∧ crc16 body = c ∧ s.Holds .frame 2 (beBytes a ++ beBytes n ++ [bc]) ∧ n.toNat = 125 ∧
    ∀ i, i < 256 → s.byteAt .frame i ≠ none := by
  have key : ∀ body tail : List Byte, body.length = 7 → tail.length = 247 → ∀ p f n,
      (bound ((body ++ leBytes (crc16 body)) ++ tail) p f n).Holds .frame 0 ((body ++ leBytes (crc16 body)) ++ tail) :=
    fun body tail h1 h2 p f n => bound_holds _ _ _ (filled_frame [] (by simp only [List.length_append, length_leBytes]; omega))
  have hh := key ([5, 0x10] ++ (beBytes 1 ++ beBytes 125 ++ [250])) (List.replicate 247 0) rfl (List.length_replicate ..) .awaitBody 0x10 9
  have h1 := (holds_append.mp hh).1
  have h2 := (holds_append.mp (holds_append.mp h1).1).2
  refine ⟨_, _, _, 1, 125, 250, ?_, ?_, ?_, ?_, ?_, h1, rfl, h2, rfl, fun i hi => ?_⟩
  · exact { awaitCount := fun h => (by cases h), awaitBody := fun _ => Or.inr ⟨rfl, 0, by omega, rfl⟩, configured := fun _ => rfl,
            boundValid := fun _ => validStation 5 rfl }
  · rfl
  · rfl
  · rfl
  · rfl
  · have hl : i < (([5, 0x10] ++ (beBytes 1 ++ beBytes 125 ++ [250]) ++ leBytes (crc16 ([5, 0x10] ++ (beBytes 1 ++ beBytes 125 ++ [250])))) ++
        List.replicate 247 (0 : Byte)).length := by
      simp only [List.length_append, length_leBytes, List.length_replicate, length_beBytes, List.length_cons, List.length_nil]; omega
    have := hh i hl
    rw [Nat.zero_add, List.getElem?_eq_getElem hl] at this
    rw [this]
    exact Option.some_ne_none _

/-- The same for the two clauses of SBodyRule on a count past FRAME: values are found for it all the same. -/
theorem witness_SBodyRule_pastFrame : ∃ (s : State) (vs : List Half), (∀ i, i < 256 → s.byteAt .frame i ≠ none) ∧ vs.length = 125 ∧
    s.Finds .frame 7 (wireRegs vs) := by
  obtain ⟨s, -, -, -, -, -, -, -, -, -, -, -, -, -, -, h⟩ := witness_RewrittenCountStillDecodes
  obtain ⟨vs, hl, hv⟩ := exists_found_values (s := s) (i := 7) 125 fun k _ hn => h _ (foundAt_eq_none.mp hn).1 (foundAt_eq_none.mp hn).2
  exact ⟨s, vs, h, hl, hv⟩

/-- Each side: a step that keeps OLEN within a frame, and the S_BODY of the rewritten count that does not. -/
theorem witness_OutputLengthFitsAFrame : (∃ s t : State, s.olen.toNat ≤ 256 ∧ step s = .next t ∧ t.olen.toNat ≤ 256) ∧
    ∃ s t : State, s.olen.toNat ≤ 256 ∧ step s = .next t ∧ t.olen.toNat = 400 := by
  refine ⟨⟨State.reset, _, by decide, rfl, by decide⟩, ?_⟩
  obtain ⟨t, ht, hc⟩ := exists_of_ends (r := step { rewritten with pending := [.write 0 .word 0x023#32] })
    (p := fun t => t.olen == 400) (by decide +kernel)
  exact ⟨_, t, by decide, ht, by rw [eq_of_beq hc]; rfl⟩

theorem reset_inv : Inv State.reset :=
  ⟨rfl, fun c h => (by cases h), ⟨fun h => (by cases h), fun h => (by cases h), fun h => absurd rfl h, fun h => (by cases h)⟩,
    ⟨⟨fun h => (by cases h), fun h => (by cases h)⟩, fun h => (by cases h), by decide, by decide⟩, by decide⟩

/-- A state that meets the invariant and steps. -/
theorem witness_EveryStepKeepsInvariant : ∃ s t : State, Inv s ∧ step s = .next t :=
  ⟨State.reset, _, reset_inv, rfl⟩

theorem witness_OnlySInitConfigures : ∃ s t : State, s.pending = [.write 0 .word 0x020#32] ∧ step s = .next t ∧
    t.localAddr ≠ s.localAddr ∧ t.status.init ≠ s.status.init := by
  obtain ⟨t, ht, hc⟩ := exists_of_ends (r := step { operands State.reset 5 0 0 0 with pending := [.write 0 .word 0x020#32] })
    (p := fun t => t.localAddr == 5 && t.status.init) (by decide +kernel)
  simp at hc
  exact ⟨_, t, rfl, ht, by rw [hc.1]; decide, by rw [hc.2]; decide⟩

/-- Every command of the builders' frame statement answers a next state somewhere (LEN 0, COUNT 1, DATA written). -/
theorem witness_BuildersFrame : ∀ i ∈ [Instr.crc16 true false, .build true false, .buildExc true false, .reqRhr true false,
    .reqWsr true false, .reqWmr true false],
    ∃ t, exec i (values (operands (filled [] [1, 2]) 1 3 0 256) 0 1 0) = .next t ∧ t.status.code = .success := by
  have h : (∀ i ∈ [Instr.crc16 true false, .build true false, .buildExc true false, .reqRhr true false, .reqWsr true false,
      .reqWmr true false], ends (exec i (values (operands (filled [] [1, 2]) 1 3 0 256) 0 1 0))
        (fun t => t.status.code == .success) = true) := by decide +kernel
  intro i hi
  obtain ⟨t, ht, hc⟩ := exists_of_ends (h i hi)
  exact ⟨t, ht, by simpa using hc⟩

theorem succeeds {r : Result State} (h : ends r (fun t => t.status.code == .success) = true) :
    ∃ t, r = .next t ∧ t.status.code = .success := by
  obtain ⟨t, ht, hc⟩ := exists_of_ends h
  exact ⟨t, ht, by simpa using hc⟩

/-- Each command of the PARSE family answers Success somewhere. -/
theorem witness_ParseFamilyFrame :
    (∃ s t : State, exec (.parse false false) s = .next t ∧ t.status.code = .success) ∧
    (∃ s t : State, exec (.rspRhr false false) s = .next t ∧ t.status.code = .success) ∧
    (∃ s t : State, exec (.rspWsr false false) s = .next t ∧ t.status.code = .success) ∧
    ∃ s t : State, exec (.rspWmr false false) s = .next t ∧ t.status.code = .success := by
  refine ⟨⟨arrived 1 3 [1] 3 256, ?_⟩, ⟨values (arrived 1 3 [2, 0, 0] 3 0) 0 1 0, ?_⟩, ⟨arrived 1 6 [0, 0, 0, 0] 3 0, ?_⟩,
    ⟨values (arrived 1 0x10 [0, 0, 0, 1] 3 0) 0 1 0, ?_⟩⟩
  all_goals exact succeeds (by decide +kernel)

/-- Each slave command answers Success somewhere. -/
theorem witness_SlaveFrame :
    (∃ s t : State, exec (.sInit false false) s = .next t ∧ t.status.code = .success) ∧
    (∃ s t : State, exec (.sHdr false false) s = .next t ∧ t.status.code = .success) ∧
    (∃ s t : State, exec (.sCnt false false) s = .next t ∧ t.status.code = .success) ∧
    ∃ s t : State, exec (.sBody false false) s = .next t ∧ t.status.code = .success := by
  refine ⟨⟨operands State.reset 1 0 0 0, ?_⟩, ⟨bound [5, 3] .idle 0 0, ?_⟩, ⟨bound [5, 0x10, 0, 1, 0, 1] .awaitCount 0x10 6, ?_⟩,
    ⟨bound [0x05, 0x03, 0x00, 0x10, 0x00, 0x02, 0xC4, 0x4A] .awaitBody 3 8, ?_⟩⟩
  all_goals exact succeeds (by decide +kernel)

/-- CRC16 over two bytes of DATA, of which the second is unwritten. -/
def halfWritten : State := { operands (filled [] [7]) 0 0 2 0 with pending := [.write 0 .word 0x101#32] }

theorem refused_of_refuses {α : Type} {r : Result α} {q : Refusal} (h : refuses r q = true) : r = .refused q := by
  cases r with
  | refused x => simpa [refuses] using h
  | next _ => cases h
  | fault _ => cases h

/-- One step for each cause of a refusal (V-BUS-5, V-BUS-6, V-BUS-8, V-CRC-14). -/
theorem witness_RefusalsHaveTheirCauses :
    step { State.reset with pending := [.read 0x008 .half] } = .refused .registerAccess ∧
    step { State.reset with pending := [.write 0x101 .half 0] } = .refused .misalignedAccess ∧
    step { State.reset with pending := [.read 0x200 .byte] } = .refused .unwrittenByte ∧
    (step halfWritten = .refused .unwrittenByte ∧ decode (.command 0x101#32) = .ok (.crc16 true false) ∧
      readsOnPath (.crc16 true false) halfWritten .data 1 ∧ halfWritten.byteAt .data 1 = none) :=
  ⟨rfl, rfl, rfl, refused_of_refuses (by decide +kernel), rfl, ⟨rfl, .inr rfl, by decide, by decide⟩, by decide⟩

/-- A byte on the path that is unwritten: the second one of CRC16's input, F[1] of an S_HDR whose F[0] is the bound address, and
the last CRC byte of S_BODY's F[0..NEED) (V-CRC-14, R123). An unwritten byte off the path stops nothing: S_HDR for another
station reads F[0] alone. -/
theorem witness_RefusedExactlyForUnwrittenOnPath :
    (readsOnPath (.crc16 true false) halfWritten .data 1 ∧ halfWritten.byteAt .data 1 = none ∧
      exec (.crc16 true false) halfWritten = .refused .unwrittenByte) ∧
    (readsOnPath (.sHdr false false) (bound [5] .idle 0 0) .frame 1 ∧ (bound [5] .idle 0 0).byteAt .frame 1 = none ∧
      exec (.sHdr false false) (bound [5] .idle 0 0) = .refused .unwrittenByte) ∧
    (readsOnPath (.sBody false false) (bound [5, 3, 0, 0, 0, 1, 0] .awaitBody 3 8) .frame 7 ∧
      (bound [5, 3, 0, 0, 0, 1, 0] .awaitBody 3 8).byteAt .frame 7 = none ∧
      exec (.sBody false false) (bound [5, 3, 0, 0, 0, 1, 0] .awaitBody 3 8) = .refused .unwrittenByte) ∧
    ((bound [6] .idle 0 0).byteAt .frame 1 = none ∧ ∃ t : State, exec (.sHdr false false) (bound [6] .idle 0 0) = .next t) :=
  ⟨⟨⟨rfl, .inr rfl, by decide, by decide⟩, by decide, refused_of_refuses (by decide +kernel)⟩,
   ⟨⟨rfl, rfl, .inr ⟨rfl, by decide⟩⟩, by decide, refused_of_refuses (by decide +kernel)⟩,
   ⟨⟨rfl, rfl, rfl, .inl (by decide)⟩, by decide, refused_of_refuses (by decide +kernel)⟩,
   by decide, (exists_of_ends (p := fun _ => true) (by decide +kernel)).imp fun _ h => h.1⟩

theorem witness_WrittenBytesStayWritten : ∃ s t : State, (∀ rest, s.pending ≠ .reset :: rest) ∧ step s = .next t ∧
    Memory.read s.mem 0x100 ≠ none :=
  ⟨{ filled [1] [] with pending := [.write 0x100 .byte 2] }, _, fun rest h => by simp at h, rfl, by decide⟩

theorem witness_FormsArrive : Instr.shaped (.frameWmrReq 1 0 123 246 (List.replicate 123 0) 0) = true ∧
    Instr.shaped (.frameRhrRsp 1 250 (List.replicate 125 0) 0) = true := by decide +kernel

/-- Well-formed requests for the bound station 5 (V-SLV-6, V-SLV-7, V-SLV-8c). -/
theorem witness_ArrivedRequestIsDecoded : (∃ s : State, s.status.init = true ∧ s.localAddr = 5) ∧
    Instr.wellFormed (.frameRhrReq 5 0x10 2 0x4AC4) = true ∧ Instr.wellFormed (.frameWsrReq 5 1 3 0x8F99) = true ∧
    Instr.wellFormed (.frameWmrReq 5 1 2 4 [0x000A, 0x0102] 0x0087) = true :=
  ⟨⟨bound [] .idle 0 0, rfl, rfl⟩, by decide +kernel, by decide +kernel, by decide +kernel⟩

/-- Well-formed responses from station 1, with the operands they answer (V-RSP-1, V-RSP-8, V-RSP-11 and their exceptions). -/
theorem witness_ArrivedResponseIsAccepted :
    (∃ s t : State, s.addr = 1 ∧ s.count.toNat = 2 ∧ s.len.toNat = 9 ∧ exec (.frameRhrRsp 1 4 [0x000A, 0x0102] 0x605A) s = .next t) ∧
    (∃ s t : State, s.addr = 1 ∧ s.regAddr = 5 ∧ s.value = 0x1234 ∧ s.len.toNat = 8 ∧ exec (.frameWsrRsp 1 5 0x1234 0xBC94) s = .next t) ∧
    (∃ s t : State, s.addr = 1 ∧ s.regAddr = 1 ∧ s.count = 2 ∧ s.len.toNat = 8 ∧ exec (.frameWmrRsp 1 1 2 0x0810) s = .next t) ∧
    (∃ s t : State, s.addr = 1 ∧ s.count.toNat = 123 ∧ s.len.toNat = 5 ∧ exec (.frameExcRhr 1 2 0xF1C0) s = .next t) ∧
    Instr.wellFormed (.frameRhrRsp 1 4 [0x000A, 0x0102] 0x605A) = true ∧ Instr.wellFormed (.frameWsrRsp 1 5 0x1234 0xBC94) = true ∧
    Instr.wellFormed (.frameWmrRsp 1 1 2 0x0810) = true ∧ Instr.wellFormed (.frameExcRhr 1 2 0xF1C0) = true ∧
    Instr.wellFormed (.frameExcWsr 1 2 0xA1C3) = true ∧ Instr.wellFormed (.frameExcWmr 1 4 0xC34D) = true :=
  ⟨⟨values (operands State.reset 1 0 9 0) 0 2 0, _, rfl, rfl, rfl, rfl⟩,
    ⟨values (operands State.reset 1 0 8 0) 5 0 0x1234, _, rfl, rfl, rfl, rfl, rfl⟩,
    ⟨values (operands State.reset 1 0 8 0) 1 2 0, _, rfl, rfl, rfl, rfl, rfl⟩,
    ⟨values (operands State.reset 1 0 5 0) 0 123 0, _, rfl, rfl, rfl, rfl⟩,
    by decide +kernel, by decide +kernel, by decide +kernel, by decide +kernel, by decide +kernel, by decide +kernel⟩

/-- A block that built a request of one value, and a block bound to that station with the same FRAME. -/
theorem witness_BuiltWriteReachesTheSlave : ∃ s t u : State, exec (.reqWmr true false) s = .next t ∧ t.status.code = .success ∧
    [(0x1234 : Half)].length = s.count.toNat ∧ s.Holds .data 0 (viewRegs [0x1234]) ∧ u.status.init = true ∧ u.localAddr = s.addr ∧
    (∀ i, u.byteAt .frame i = t.byteAt .frame i) := by
  obtain ⟨t, ht, hc⟩ := exists_of_ends (r := exec (.reqWmr true false)
      (values (operands (filled [] (viewRegs [0x1234])) 5 0 0 0) 0 1 0))
    (p := fun t => t.status.code == .success) (by decide +kernel)
  exact ⟨_, t, { bound [] .idle 0 0 with mem := t.mem }, ht, by simpa using hc, rfl,
    (holds_congr (by rfl) _ _ _).mpr (filled_data [] (by simp)), rfl, rfl, fun _ => rfl⟩

end Sys2Proof.Tests
end

section
/-! PROOFS. The register map and the words of the registers: what a 32-bit access to a register's own offset does, and what a
reserved offset answers (10_state.md R20 to R23; 20_memory.md R61). With them the statements about register reads, register writes
and reset. -/

namespace Sys2Proof.Machine

/-! ## The offsets of the register map -/

/-- Every register is found at its own offset (R20). -/
@[simp] theorem regAt_offset (r : Reg) : regAt r.offset = some r := by cases r <;> rfl

/-- Every register's offset is in register space (R60). -/
@[simp] theorem placeOf_offset (r : Reg) : placeOf r.offset = .register := by cases r <;> rfl

theorem offset_aligned (r : Reg) : r.offset % 4 = 0 := by cases r <;> rfl

theorem offset_le (r : Reg) : r.offset ≤ 0x040 := by cases r <;> decide

theorem eq_offset_of_regAt {off : Nat} {r : Reg} (h : regAt off = some r) : off = r.offset :=
  (eq_of_beq (List.find?_some (p := fun r : Reg => r.offset == off) h)).symm

/-- Past BCOUNT no register is found (R20). -/
theorem regAt_reserved {off : Nat} (h : 0x044 ≤ off) : regAt off = none := by
  cases hr : regAt off with
  | none => rfl
  | some r =>
    have := offset_le r
    have := eq_offset_of_regAt hr
    omega

theorem placeOf_register {off : Nat} (h : off < 0x100) : placeOf off = .register := if_pos h

/-- A 32-bit read of a register's offset gives the register (R61). -/
theorem busRead_offset (r : Reg) (s : State) : busRead r.offset .word s = .next (s.readReg r) := by
  simp [busRead, offset_aligned]

/-- A 32-bit write of a register's offset writes the register (R61). -/
theorem busWrite_offset (r : Reg) (v : Word) (s : State) : busWrite r.offset .word v s = writeReg r v s := by
  simp [busWrite, offset_aligned]

/-- A reserved offset of register space reads 0 (R61, D34). -/
theorem busRead_reserved {off : Nat} (s : State) (hlo : 0x044 ≤ off) (hhi : off < 0x100) (ha : off % 4 = 0) :
    busRead off .word s = .next 0 := by
  simp [busRead, placeOf_register hhi, regAt_reserved hlo, ha]

/-! ## The word of STATUS -/

/-- Bits put in front of a word add their value above it. -/
theorem toNat_append_eq_add {m n : Nat} (x : BitVec m) (y : BitVec n) : (x ++ y).toNat = 2 ^ n * x.toNat + y.toNat := by
  rw [BitVec.toNat_append, ← Nat.shiftLeft_add_eq_or_of_lt y.isLt, Nat.shiftLeft_eq, Nat.mul_comm]

/-- STATUS's word is the sum of its fields at their places (R23). -/
theorem toNat_statusWord (r : StatusReg) :
    r.word.toNat = r.code.number.toNat + 0x100 * r.isExc.toNat + 0x200 * r.excp.toNat + 0x400 * r.init.toNat +
      0x1000 * r.sphase.number.toNat := by
  simp only [StatusReg.word, toNat_append_eq_add, BitVec.toNat_ofBool, BitVec.toNat_ofNat]
  omega

/-! ## Writing a register other than CMD -/

section
variable {r : Reg} {v : Word} {s t : State}

/-- A write of a register other than CMD completes, whatever the value (R61). -/
theorem writeReg_completes (hr : r ≠ .cmd) (v : Word) (s : State) : ∃ t, writeReg r v s = .next t := by
  cases r
  case cmd => exact absurd rfl hr
  all_goals exact ⟨_, rfl⟩

/-- It leaves what every other register reads as. -/
theorem readReg_of_writeReg_other (hr : r ≠ .cmd) (h : writeReg r v s = .next t) {q : Reg} (hq : q ≠ r) :
    t.readReg q = s.readReg q := by
  cases r
  case cmd => exact absurd rfl hr
  all_goals
    cases h
    cases q <;> simp [State.readReg] at hq ⊢

/-- It leaves memory and the host's side. -/
theorem writeReg_keeps_memory_and_host (hr : r ≠ .cmd) (h : writeReg r v s = .next t) :
    t.mem = s.mem ∧ t.baseSlot = s.baseSlot ∧ t.pending = s.pending ∧ t.replies = s.replies ∧ t.performed = s.performed := by
  cases r
  case cmd => exact absurd rfl hr
  all_goals
    cases h
    exact ⟨rfl, rfl, rfl, rfl, rfl⟩

/-- It leaves the slave configuration, LOCAL and INIT (R29). -/
theorem writeReg_keeps_configuration (hr : r ≠ .cmd) (h : writeReg r v s = .next t) :
    t.localAddr = s.localAddr ∧ t.status.init = s.status.init := by
  cases r
  case cmd => exact absurd rfl hr
  all_goals
    cases h
    exact ⟨rfl, rfl⟩

end

/-- The RW registers with the widths of their fields (R20, R22). -/
def operandWidths : List (Reg × Nat) :=
  [(.addr, 8), (.func, 8), (.len, 9), (.cap, 9), (.exc, 8), (.regAddr, 16), (.count, 16), (.value, 16)]

/-- No RW register is CMD. -/
theorem ne_cmd_of_operand {r : Reg} {k : Nat} (h : (r, k) ∈ operandWidths) : r ≠ .cmd := by
  rintro rfl
  simp [operandWidths] at h

/-- A field of `k` bits takes the low `k` bits of the written word. -/
theorem toNat_zeroExtend_truncate {k : Nat} (hk : k ≤ 32) (v : Word) :
    ((v.truncate k).zeroExtend 32).toNat = v.toNat % 2 ^ k := by
  have hlt : v.toNat % 2 ^ k < 2 ^ 32 :=
    (Nat.mod_lt _ (Nat.two_pow_pos k)).trans_le (Nat.pow_le_pow_right (by omega) hk)
  simp only [BitVec.zeroExtend, BitVec.truncate, BitVec.toNat_setWidth, Nat.mod_eq_of_lt hlt]

/-- An RW register reads back as the written value modulo `2 ^ width` (R22). -/
theorem readReg_of_writeReg_operand {r : Reg} {k : Nat} (hrk : (r, k) ∈ operandWidths) {v : Word} {s t : State}
    (h : writeReg r v s = .next t) : (t.readReg r).toNat = v.toNat % 2 ^ k := by
  simp only [operandWidths, List.mem_cons, Prod.mk.injEq, List.not_mem_nil, or_false] at hrk
  rcases hrk with ⟨rfl, rfl⟩ | ⟨rfl, rfl⟩ | ⟨rfl, rfl⟩ | ⟨rfl, rfl⟩ | ⟨rfl, rfl⟩ | ⟨rfl, rfl⟩ | ⟨rfl, rfl⟩ | ⟨rfl, rfl⟩
  all_goals
    cases h
    exact toNat_zeroExtend_truncate (by decide) v

/-! ## The state after reset -/

@[simp] theorem byteAt_reset (b : Buffer) (i : Nat) : State.reset.byteAt b i = none := by
  simp [State.byteAt, State.reset, Memory.read]

theorem cycleInv_reset : CycleInv State.reset where
  awaitCount h := by cases h
  awaitBody h := by cases h
  configured h := absurd rfl h
  boundValid h := by cases h

theorem statusInv_reset : StatusInv State.reset where
  excFlag := by decide
  codePresent h := by cases h
  neverInstance := by decide
  neverTimeout := by decide

theorem inv_reset : Inv State.reset where
  memWf := rfl
  memInBuffers c h := by cases h
  cycle := cycleInv_reset
  status := statusInv_reset
  rlenBound := by decide

/-- The invariant does not look at the host's side. -/
theorem Inv.with_host {s : State} (h : Inv s) (slot k : Nat) (acts : List HostAction) (rs : List Word) :
    Inv { s with baseSlot := slot, pending := acts, replies := rs, performed := k } where
  memWf := h.memWf
  memInBuffers := h.memInBuffers
  cycle := ⟨h.cycle.awaitCount, h.cycle.awaitBody, h.cycle.configured, h.cycle.boundValid⟩
  status := ⟨h.status.excFlag, h.status.codePresent, h.status.neverInstance, h.status.neverTimeout⟩
  rlenBound := h.rlenBound

/-! ## The statements about registers and reset -/

/-- Settles O9: an RW field keeps the low bits of the written word. -/
theorem operandWriteKeepsFieldWidth : Obligations.OperandWriteKeepsFieldWidth := by
  intro r k v s hrk
  have hr : r ≠ .cmd := ne_cmd_of_operand hrk
  obtain ⟨t, ht⟩ := writeReg_completes hr v s
  exact ⟨t, by rw [busWrite_offset, ht], readReg_of_writeReg_operand hrk ht, fun _ hq => readReg_of_writeReg_other hr ht hq,
    writeReg_keeps_memory_and_host hr ht⟩

/-- Settles O11: STATUS's word is read at its offset, and it is the sum of its fields at their places. -/
theorem statusWordLayout : Obligations.StatusWordLayout := by
  intro s
  refine ⟨s.status.word, busRead_offset .status s, s.status.code.number.toNat, s.status.sphase.number.toNat, ?_, ?_,
    toNat_statusWord s.status⟩
  · cases s.status.code <;> decide
  · cases s.status.sphase <;> decide

/-- Settles O7: by the registers of the reset state, one by one, and its empty memory. -/
theorem resetLeavesZero : Obligations.ResetLeavesZero :=
  ⟨fun r => by cases r <;> rfl, rfl, byteAt_reset⟩

/-- Settles O10: each offset of the map reads its register, and the offsets past BCOUNT are reserved. -/
theorem registerMapReads : Obligations.RegisterMapReads := fun s =>
  ⟨busRead_offset .cmd s, busRead_offset .addr s, busRead_offset .func s, busRead_offset .len s, busRead_offset .cap s,
    busRead_offset .olen s, busRead_offset .crc s, busRead_offset .exc s, busRead_offset .regAddr s, busRead_offset .count s,
    busRead_offset .value s, busRead_offset .rlen s, busRead_offset .localAddr s, busRead_offset .need s,
    busRead_offset .sfunc s, busRead_offset .bcount s, fun _ hlo hhi ha => busRead_reserved s hlo hhi ha⟩

/-- Settles O44: the reset state meets the invariant, and the host's side does not matter to it. -/
theorem invariantHoldsAtReset : Obligations.InvariantHoldsAtReset := fun slot k acts rs =>
  inv_reset.with_host slot k acts rs

end Sys2Proof.Machine
end

section
/-! PROOFS. What each command can answer, said once: every next state of its meaning, and what held where it goes on to
its end (41_crc.md to 44_slave.md). The proofs about steps cite these and do not unfold the meanings. -/

namespace Sys2Proof.Machine

variable {s t : State}

/-! ## CRC16 and the builders -/

/-- Every next state of CRC16 (R150). -/
theorem execCrc16_next {dp src : Bool} (h : execCrc16 dp src s = .next t) :
    (((src = false ∧ dp = false) ∨ s.len.toNat = 0) ∧ t = { s.ended .success with crc := 0 }) ∨
    (256 < s.len.toNat ∧ t = { s.ended .invalidParam with crc := 0 }) ∨
    ∃ bs : List Byte, bs.length = s.len.toNat ∧ s.Holds (crcSource src) 0 bs ∧
      t = { s.ended .success with crc := crc16 bs } := by
  simp only [execCrc16] at h
  split at h
  case isTrue habsent => cases h; exact .inl ⟨habsent, rfl⟩
  case isFalse =>
    split at h
    case isTrue hlong => cases h; exact .inr (.inl ⟨hlong, rfl⟩)
    case isFalse hlen =>
      obtain ⟨bs, hbs, h⟩ := andThen_eq_next h
      rw [readBytes_congr (s := s) (by rfl)] at hbs
      obtain ⟨hl, hh⟩ := (readBytes_eq_next (by simpa [Config.maxFrame] using hlen)).mp hbs
      cases h
      exact .inr (.inr ⟨bs, hl, hh, rfl⟩)

/-- What a builder leaves on Success (R130): the frame of its station, function and payload in FRAME, OLEN its length, CRC its
trailer, and RLEN `rl`. -/
def State.built (s : State) (f : Byte) (p : List Byte) (rl : Len) : State :=
  { s.ended .success with
    olen := BitVec.ofNat 9 (p.length + 4)
    crc := crc16 (s.addr :: f :: p)
    rlen := rl
    mem := Memory.writeAll s.mem 0x100 (wireFrame s.addr f p) }

/-- Storing a frame after the prologue and ending with Success leaves `built`. -/
theorem finish_storeFrame (s : State) (f : Byte) (p : List Byte) (rl : Len) :
    finish .success { storeFrame (wireFrame s.addr f p) s.prologue with rlen := rl } = .next (s.built f p rl) := by
  have htrailer := trailer_of_append (s.addr :: f :: p) (crc16 (s.addr :: f :: p))
  rw [← wireFrame_eq, show (s.addr :: f :: p).length + 2 = (wireFrame s.addr f p).length by simp] at htrailer
  unfold storeFrame
  rw [htrailer, length_wireFrame]
  rfl

/-- Every next state of BUILD (R160). -/
theorem execBuild_next {dp : Bool} (h : execBuild dp s = .next t) :
    (∃ c ∈ [Status.invalidAddress, .nullPointer, .invalidParam], t = s.ended c) ∨
    ∃ p : List Byte, StationValid s.addr ∧ s.len.toNat + 4 ≤ s.effCap ∧ p.length = s.len.toNat ∧ s.Holds .data 0 p ∧
      t = s.built s.func p s.rlen := by
  simp only [execBuild] at h
  split at h
  case isTrue => cases h; exact .inl ⟨_, by simp, rfl⟩
  case isFalse haddr =>
    split at h
    case isTrue => cases h; exact .inl ⟨_, by simp, rfl⟩
    case isFalse =>
      split at h
      case isTrue => cases h; exact .inl ⟨_, by simp, rfl⟩
      case isFalse hcap =>
        have hfits : s.len.toNat + 4 ≤ s.effCap := Nat.not_lt.mp hcap
        have hcap' : s.effCap ≤ 256 := Nat.min_le_right _ _
        obtain ⟨p, hp, h⟩ := andThen_eq_next h
        rw [readPayload, readBytes_congr (s := s) (by rfl)] at hp
        obtain ⟨hl, hh⟩ := (readBytes_eq_next (by simp; omega)).mp hp
        cases (finish_storeFrame s s.func p s.rlen).symm.trans h
        exact .inr ⟨p, (validAddr_iff _).mp (by simpa using haddr), hfits, hl, hh, rfl⟩

/-- Every next state of BUILD_EXC (R165). -/
theorem execBuildExc_next (h : execBuildExc s = .next t) :
    t = s.ended .invalidAddress ∨
    StationValid s.addr ∧ t = s.built (s.func ||| Config.exceptionFlag) [s.exc] s.rlen := by
  simp only [execBuildExc] at h
  split at h
  case isTrue => cases h; exact .inl rfl
  case isFalse haddr =>
    cases (finish_storeFrame s (s.func ||| Config.exceptionFlag) [s.exc] s.rlen).symm.trans h
    exact .inr ⟨(validAddr_iff _).mp (by simpa using haddr), rfl⟩

/-- What a REQ_* command leaves that ends before a frame is built: RLEN = 0 too (R190, R195, R200). -/
def State.endedRequest (s : State) (c : Status) : State := { s.ended c with rlen := 0 }

/-- Every next state of REQ_RHR (R190). -/
theorem execReqRhr_next (h : execReqRhr s = .next t) :
    (∃ c ∈ [Status.invalidAddress, .invalidParam], t = s.endedRequest c) ∨
    StationValid s.addr ∧ 1 ≤ s.count.toNat ∧ s.count.toNat ≤ 125 ∧
      t = s.built 0x03#8 (beBytes s.regAddr ++ beBytes s.count) (BitVec.ofNat 9 (5 + 2 * s.count.toNat)) := by
  simp only [execReqRhr] at h
  split at h
  case isTrue => cases h; exact .inl ⟨_, by simp, rfl⟩
  case isFalse haddr =>
    split at h
    case isTrue => cases h; exact .inl ⟨_, by simp, rfl⟩
    case isFalse hcount =>
      obtain ⟨h1, h2⟩ := (countWithin_iff _ _).mp (by simpa using hcount)
      cases (finish_storeFrame s 0x03#8 (beBytes s.regAddr ++ beBytes s.count) _).symm.trans h
      exact .inr ⟨(validAddr_iff _).mp (by simpa using haddr), h1, h2, rfl⟩

/-- Every next state of REQ_WSR (R195). -/
theorem execReqWsr_next (h : execReqWsr s = .next t) :
    t = s.endedRequest .invalidAddress ∨
    StationValid s.addr ∧ t = s.built 0x06#8 (beBytes s.regAddr ++ beBytes s.value) 8 := by
  simp only [execReqWsr] at h
  split at h
  case isTrue => cases h; exact .inl rfl
  case isFalse haddr =>
    cases (finish_storeFrame s 0x06#8 (beBytes s.regAddr ++ beBytes s.value) 8).symm.trans h
    exact .inr ⟨(validAddr_iff _).mp (by simpa using haddr), rfl⟩

/-- Every next state of REQ_WMR (R200). -/
theorem execReqWmr_next {dp : Bool} (h : execReqWmr dp s = .next t) :
    (∃ c ∈ [Status.invalidAddress, .nullPointer, .invalidParam], t = s.endedRequest c) ∨
    ∃ vs : List Half, StationValid s.addr ∧ 1 ≤ s.count.toNat ∧ s.count.toNat ≤ 123 ∧ vs.length = s.count.toNat ∧
      s.Holds .data 0 (viewRegs vs) ∧ t = s.built 0x10#8 (writeMultiplePayload s.regAddr s.count vs) 8 := by
  simp only [execReqWmr] at h
  split at h
  case isTrue => cases h; exact .inl ⟨_, by simp, rfl⟩
  case isFalse haddr =>
    split at h
    case isTrue => cases h; exact .inl ⟨_, by simp, rfl⟩
    case isFalse =>
      split at h
      case isTrue => cases h; exact .inl ⟨_, by simp, rfl⟩
      case isFalse hcount =>
        obtain ⟨h1, h2⟩ := (countWithin_iff _ _).mp (by simpa using hcount)
        obtain ⟨vs, hvs, h⟩ := andThen_eq_next h
        rw [readRegs_congr (s := s) (by rfl)] at hvs
        have h123 : s.count.toNat ≤ 123 := h2
        obtain ⟨hl, hh⟩ := (readRegs_eq_next (n := s.count.toNat) (by omega)).mp hvs
        cases (finish_storeFrame s 0x10#8 (writeMultiplePayload s.regAddr s.count vs) 8).symm.trans h
        exact .inr ⟨vs, (validAddr_iff _).mp (by simpa using haddr), h1, h123, hl, hh, rfl⟩

/-! ## The PARSE family -/

/-- The ends of the PARSE family that use no payload: a failure, or a reported exception (R127, R129). -/
def ParseFails (s t : State) : Prop :=
  (∃ c ∈ [Status.invalidParam, .invalidResponse, .crcError, .invalidFunctionCode], t = s.endedParse c) ∨
  ∃ ec : Option Byte, t = { s.endedParse .exception with
    status := { s.status with code := .exception, isExc := true, excp := ec.isSome }, exc := ec.getD 0 }

theorem parseFails_endedParse {c : Status}
    (hc : c ∈ [Status.invalidParam, .invalidResponse, .crcError, .invalidFunctionCode]) : ParseFails s (s.endedParse c) :=
  .inl ⟨c, hc, rfl⟩

/-- Every next state of the family's common path: one of its ends, or what is done with a received payload. -/
theorem parsePath_next_cases {ef : Byte} {k : List Byte → Result State} (h : parsePath s ef k = .next t) :
    ParseFails s t ∨ ∃ p, s.Received ef p ∧ k p = .next t := by
  rcases parsePath_next h with hfail | hexc | ⟨p, hr, -, hk⟩
  · exact .inl (.inl hfail)
  · exact .inl (.inr hexc)
  · exact .inr ⟨p, hr, hk⟩

/-- Every next state of PARSE (R170). -/
theorem execParse_next (h : execParse s = .next t) :
    ParseFails s t ∨
    ∃ p : List Byte, s.Received s.func p ∧ p.length ≤ s.effCap ∧
      t = { s.endedParse .success with olen := BitVec.ofNat 9 p.length, mem := Memory.writeAll s.mem 0x200 p } := by
  rw [execParse_eq] at h
  rcases parsePath_next_cases h with hf | ⟨p, hr, hk⟩
  · exact .inl hf
  · split at hk
    case isTrue => cases hk; exact .inl (parseFails_endedParse (by simp))
    case isFalse hcap => cases hk; exact .inr ⟨p, hr, Nat.not_lt.mp hcap, rfl⟩

/-- Every next state of RSP_RHR (R205). -/
theorem execRspRhr_next (h : execRspRhr s = .next t) :
    ParseFails s t ∨
    ∃ (bc : Byte) (vs : List Half), s.count.toNat ≤ 125 ∧ vs.length = s.count.toNat ∧ s.Received 0x03#8 (bc :: wireRegs vs) ∧
      t = { s.endedParse .success with
        olen := BitVec.ofNat 9 (2 * s.count.toNat), mem := Memory.writeAll s.mem 0x200 (viewRegs vs) } := by
  rw [execRspRhr_eq] at h
  split at h
  case isTrue => cases h; exact .inl (parseFails_endedParse (by simp))
  case isFalse hcount =>
    have hle : s.count.toNat ≤ 125 := ((countWithin_iff _ _).mp (by simpa using hcount)).2
    rcases parsePath_next_cases h with hf | ⟨p, hr, hk⟩
    · exact .inl hf
    · split at hk
      case isTrue => cases hk; exact .inl (parseFails_endedParse (by simp))
      case isFalse hlen =>
        split at hk
        case isTrue => cases hk; exact .inl (parseFails_endedParse (by simp))
        case isFalse =>
          cases p with
          | nil => simp at hlen; omega
          | cons bc body =>
            obtain ⟨hw, hl⟩ := wireRegs_beValues (n := s.count.toNat) (bs := body) (by simp at hlen; omega)
            cases hk
            exact .inr ⟨bc, beValues body, hle, hl, by rwa [hw], rfl⟩

/-- Every next state of RSP_WSR (R210). -/
theorem execRspWsr_next (h : execRspWsr s = .next t) :
    ParseFails s t ∨ s.Received 0x06#8 (beBytes s.regAddr ++ beBytes s.value) ∧ t = s.endedParse .success := by
  rw [execRspWsr_eq] at h
  rcases parsePath_next_cases h with hf | ⟨p, hr, hk⟩
  · exact .inl hf
  · split at hk
    case isTrue => cases hk; exact .inl (parseFails_endedParse (by simp))
    case isFalse hp => cases hk; exact .inr ⟨by rwa [← not_not.mp hp], rfl⟩

/-- Every next state of RSP_WMR (R215). -/
theorem execRspWmr_next (h : execRspWmr s = .next t) :
    ParseFails s t ∨ s.Received 0x10#8 (beBytes s.regAddr ++ beBytes s.count) ∧ t = s.endedParse .success := by
  rw [execRspWmr_eq] at h
  split at h
  case isTrue => cases h; exact .inl (parseFails_endedParse (by simp))
  case isFalse =>
    rcases parsePath_next_cases h with hf | ⟨p, hr, hk⟩
    · exact .inl hf
    · split at hk
      case isTrue => cases hk; exact .inl (parseFails_endedParse (by simp))
      case isFalse hp => cases hk; exact .inr ⟨by rwa [← not_not.mp hp], rfl⟩

/-! ## The slave commands -/

/-- Every next state of S_INIT (R231). -/
theorem execSInit_next (h : execSInit s = .next t) :
    (¬ StationValid s.addr ∧ t = s.ended .invalidAddress) ∨
    StationValid s.addr ∧ t = { s.ended .success with
      status := { code := .success, isExc := false, excp := false, init := true, sphase := .idle }
      localAddr := s.addr, need := 0 } := by
  simp only [execSInit] at h
  split at h
  case isTrue haddr => cases h; exact .inl ⟨(validAddr_false_iff _).mp haddr, rfl⟩
  case isFalse haddr => cases h; exact .inr ⟨(validAddr_iff _).mp (by simpa using haddr), rfl⟩

/-- Every next state of S_HDR (R233): no station bound, another station's frame, or the station's own by its function byte. -/
theorem execSHdr_next (h : execSHdr s = .next t) :
    (s.status.init = false ∧ t = s.ended .notInitialized) ∨
    (s.status.init = true ∧ ∃ f0 : Byte, s.byteAt .frame 0 = some f0 ∧ f0 ≠ s.localAddr ∧
      t = { s.endedIn .invalidAddress .idle with need := 0 }) ∨
    (s.status.init = true ∧ s.byteAt .frame 0 = some s.localAddr ∧ ∃ f : Byte, s.byteAt .frame 1 = some f ∧
      (((f = 0x03#8 ∨ f = 0x06#8) ∧ t = { s.endedIn .success .awaitBody with sfunc := f, need := 8 }) ∨
        (f = 0x10#8 ∧ t = { s.endedIn .success .awaitCount with sfunc := f, need := 6 }) ∨
        (f ∉ [0x03#8, 0x06#8, 0x10#8] ∧ t = { s.endedIn .invalidFunctionCode .idle with sfunc := f, need := 0 }))) := by
  simp only [execSHdr] at h
  split at h
  case isTrue hinit => cases h; exact .inl ⟨hinit, rfl⟩
  case isFalse hinit =>
    have hinit : s.status.init = true := by simpa using hinit
    obtain ⟨f0, h0, h⟩ := andThen_eq_next h
    rw [readByte_congr (s := s) (by rfl), readByte_eq_next (by omega)] at h0
    split at h
    case isTrue hother => cases h; exact .inr (.inl ⟨hinit, f0, h0, hother, rfl⟩)
    case isFalse hown =>
      obtain ⟨f, h1, h⟩ := andThen_eq_next h
      rw [readByte_congr (s := s) (by rfl), readByte_eq_next (by omega)] at h1
      refine .inr (.inr ⟨hinit, by rw [h0, not_not.mp hown]; rfl, f, h1, ?_⟩)
      split at h
      case isTrue hf => cases h; exact .inl ⟨hf, rfl⟩
      case isFalse h8 =>
        split at h
        case isTrue hf => cases h; exact .inr (.inl ⟨hf, rfl⟩)
        case isFalse h10 =>
          cases h
          exact .inr (.inr ⟨by simpa [not_or, and_assoc] using And.intro h8 h10, rfl⟩)

/-- Every next state of S_CNT (R236). -/
theorem execSCnt_next (h : execSCnt s = .next t) :
    (s.status.init = false ∧ t = s.ended .notInitialized) ∨
    (s.status.sphase ≠ .awaitCount ∧ t = s.ended .invalidParam) ∨
    (s.status.init = true ∧ s.status.sphase = .awaitCount ∧ ∃ n : Half, s.Holds .frame 4 (beBytes n) ∧
      ((123 < n.toNat ∧ t = { s.endedIn .invalidParam .idle with need := 0 }) ∨
        (n.toNat ≤ 123 ∧ t = { s.endedIn .success .awaitBody with need := BitVec.ofNat 9 (9 + 2 * n.toNat) }))) := by
  simp only [execSCnt] at h
  split at h
  case isTrue hinit => cases h; exact .inl ⟨hinit, rfl⟩
  case isFalse hinit =>
    split at h
    case isTrue hphase => cases h; exact .inr (.inl ⟨hphase, rfl⟩)
    case isFalse hphase =>
      obtain ⟨n, hn, h⟩ := andThen_eq_next h
      rw [readField_congr (s := s) (by rfl), readField_eq_next (by omega)] at hn
      refine .inr (.inr ⟨by simpa using hinit, not_not.mp hphase, n, hn, ?_⟩)
      split at h
      case isTrue hlong => cases h; exact .inl ⟨hlong, rfl⟩
      case isFalse hn => cases h; exact .inr ⟨Nat.not_lt.mp hn, rfl⟩

/-- Every next state of a request's decoding, by the latched function byte (R240). -/
theorem decodeRequestBody_next (h : decodeRequestBody s = .next t) :
    ∃ a : Half, s.Holds .frame 2 (beBytes a) ∧
      ((s.sfunc = 0x03#8 ∧ ∃ n : Half, s.Holds .frame 4 (beBytes n) ∧
          finish .success { s with regAddr := a, count := n, value := 0, bcount := 0 } = .next t) ∨
        (s.sfunc = 0x06#8 ∧ ∃ v : Half, s.Holds .frame 4 (beBytes v) ∧
          finish .success { s with regAddr := a, value := v, count := 0, bcount := 0 } = .next t) ∨
        (s.sfunc = 0x10#8 ∧ ∃ (n : Half) (bc : Byte) (vs : List Half), s.Holds .frame 4 (beBytes n) ∧
          vs.length = min n.toNat 128 ∧
          finish .success { storeRegs vs s with
            regAddr := a, count := n, value := 0, bcount := bc, olen := BitVec.ofNat 9 (2 * n.toNat) } = .next t) ∨
        (s.sfunc ∉ [0x03#8, 0x06#8, 0x10#8] ∧ finish .success { s with regAddr := a } = .next t)) := by
  unfold decodeRequestBody at h
  obtain ⟨a, ha, h⟩ := andThen_eq_next h
  refine ⟨a, (readField_eq_next (by omega)).mp ha, ?_⟩
  simp only [readField_congr (s := s) (t := { s with regAddr := a }) rfl] at h
  split at h
  case isTrue hf =>
    obtain ⟨n, hn, h⟩ := andThen_eq_next h
    exact .inl ⟨hf, n, (readField_eq_next (by omega)).mp hn, h⟩
  case isFalse h3 =>
    split at h
    case isTrue hf =>
      obtain ⟨v, hv, h⟩ := andThen_eq_next h
      exact .inr (.inl ⟨hf, v, (readField_eq_next (by omega)).mp hv, h⟩)
    case isFalse h6 =>
      split at h
      case isTrue hf =>
        obtain ⟨n, hn, h⟩ := andThen_eq_next h
        obtain ⟨bc, -, h⟩ := andThen_eq_next h
        obtain ⟨vs, hvs, h⟩ := andThen_eq_next h
        exact .inr (.inr (.inl ⟨hf, n, bc, vs, (readField_eq_next (by omega)).mp hn, (readFields_eq_found.mp hvs).1, h⟩))
      case isFalse h10 => exact .inr (.inr (.inr ⟨by simpa using ⟨h3, h6, h10⟩, h⟩))

/-- Every next state of S_BODY (R240): no cycle to end, a wrong CRC, or the request decoded by the latched function byte. -/
theorem execSBody_next (h : execSBody s = .next t) :
    (s.status.init = false ∧ t = s.ended .notInitialized) ∨
    (s.status.sphase ≠ .awaitBody ∧ t = s.ended .invalidParam) ∨
    (s.status.init = true ∧ s.status.sphase = .awaitBody ∧
      (t = s.endedIn .crcError .idle ∨
        ∃ a : Half, s.Holds .frame 2 (beBytes a) ∧
          ((s.sfunc = 0x03#8 ∧ ∃ n : Half, s.Holds .frame 4 (beBytes n) ∧
              t = { s.endedIn .success .idle with regAddr := a, count := n, value := 0, bcount := 0 }) ∨
            (s.sfunc = 0x06#8 ∧ ∃ v : Half, s.Holds .frame 4 (beBytes v) ∧
              t = { s.endedIn .success .idle with regAddr := a, value := v, count := 0, bcount := 0 }) ∨
            (s.sfunc = 0x10#8 ∧ ∃ (n : Half) (bc : Byte) (vs : List Half), s.Holds .frame 4 (beBytes n) ∧
              vs.length = min n.toNat 128 ∧
              t = { s.endedIn .success .idle with
                regAddr := a, count := n, value := 0, bcount := bc, olen := BitVec.ofNat 9 (2 * n.toNat),
                mem := Memory.writeAll s.mem 0x200 (viewRegs vs) }) ∨
            (s.sfunc ∉ [0x03#8, 0x06#8, 0x10#8] ∧ t = { s.endedIn .success .idle with regAddr := a })))) := by
  by_cases hinit : s.status.init = true
  case neg =>
    rw [execSBody, if_pos (by simpa using hinit)] at h
    cases h
    exact .inl ⟨by simpa using hinit, rfl⟩
  by_cases hphase : s.status.sphase = .awaitBody
  case neg =>
    rw [execSBody, if_neg (by simpa using hinit), if_pos (by exact hphase)] at h
    cases h
    exact .inr (.inl ⟨hphase, rfl⟩)
  refine .inr (.inr ⟨hinit, hphase, ?_⟩)
  rw [execSBody_eq hinit hphase] at h
  obtain ⟨body, -, h⟩ := andThen_eq_next h
  obtain ⟨lo, -, h⟩ := andThen_eq_next h
  obtain ⟨hi, -, h⟩ := andThen_eq_next h
  split at h
  case isTrue => cases h; exact .inl rfl
  case isFalse =>
    obtain ⟨a, ha, hcases⟩ := decodeRequestBody_next h
    have hmem : (s.prologue.setPhase .idle).mem = s.mem := rfl
    rw [holds_congr hmem] at ha
    simp only [holds_congr hmem] at hcases
    refine .inr ⟨a, ha, ?_⟩
    rcases hcases with ⟨hf, n, hn, h⟩ | ⟨hf, v, hv, h⟩ | ⟨hf, n, bc, vs, hn, hl, h⟩ | ⟨hf, h⟩
    · cases h; exact .inl ⟨hf, n, hn, rfl⟩
    · cases h; exact .inr (.inl ⟨hf, v, hv, rfl⟩)
    · cases h; exact .inr (.inr (.inl ⟨hf, n, bc, vs, hn, hl, rfl⟩))
    · cases h; exact .inr (.inr (.inr ⟨hf, rfl⟩))

/-! ## Wire frames -/

/-- A wire-frame form places its bytes in FRAME and does nothing else (R110; log 4). -/
theorem exec_of_frame {i : Instr} (hi : i.isCommand = false) (s : State) : exec i s = .next (fillFrame i.frameBytes s) := by
  cases i <;> simp [Instr.isCommand] at hi <;> rfl

end Sys2Proof.Machine
end

section
/-! PROOFS. What a step keeps of the written bytes and of the slave configuration: every step but a reset keeps the written bytes
(10_state.md R28), and every step but a reset and a successful S_INIT keeps LOCAL and INIT (R29). -/

namespace Sys2Proof.Machine

/-! ## What an instruction leaves -/

/-- What every step does but a reset and a successful S_INIT: the written bytes stay written (R28), and LOCAL and INIT are the same
(R29). -/
structure KeepsBinding (s t : State) : Prop where
  written : KeepsWritten s t
  localAddr : t.localAddr = s.localAddr
  init : t.status.init = s.status.init

/-- What a successful S_INIT does (R231): the valid station ADDR is bound; the written bytes stay written. -/
structure BindsStation (s t : State) : Prop where
  written : KeepsWritten s t
  stationValid : StationValid s.addr
  localAddr : t.localAddr = s.addr
  init : t.status.init = true

section
variable {s t : State}

theorem keepsWritten_of_mem_eq (h : t.mem = s.mem) : KeepsWritten s t := fun x hx => by rwa [h]

/-- Storing bytes takes no byte's value away (R28). -/
theorem keepsWritten_of_writeAll {x : Nat} {bs : List Byte} (h : t.mem = Memory.writeAll s.mem x bs) : KeepsWritten s t := by
  intro y hy
  rw [h, Memory.read_writeAll]
  split
  · rw [List.getElem?_eq_getElem (by omega)]; simp
  · exact hy

theorem KeepsBinding.of_mem_eq (hm : t.mem = s.mem) (hl : t.localAddr = s.localAddr) (hi : t.status.init = s.status.init) :
    KeepsBinding s t := ⟨keepsWritten_of_mem_eq hm, hl, hi⟩

theorem KeepsBinding.of_writeAll {x : Nat} {bs : List Byte} (hm : t.mem = Memory.writeAll s.mem x bs)
    (hl : t.localAddr = s.localAddr) (hi : t.status.init = s.status.init) : KeepsBinding s t :=
  ⟨keepsWritten_of_writeAll hm, hl, hi⟩

theorem KeepsBinding.of_parseFails (h : ParseFails s t) : KeepsBinding s t := by
  rcases h with ⟨c, -, rfl⟩ | ⟨ec, rfl⟩ <;> exact .of_mem_eq rfl rfl rfl

/-- Every instruction but S_INIT keeps the binding: its next states, case by case. -/
theorem exec_keepsBinding {i : Instr} (hi : ∀ dp src, i ≠ .sInit dp src) (h : exec i s = .next t) : KeepsBinding s t := by
  cases i
  case sInit dp src => exact absurd rfl (hi dp src)
  case crc16 => rcases execCrc16_next h with ⟨-, rfl⟩ | ⟨-, rfl⟩ | ⟨_, -, -, rfl⟩ <;> exact .of_mem_eq rfl rfl rfl
  case build =>
    rcases execBuild_next h with ⟨_, -, rfl⟩ | ⟨_, -, -, -, -, rfl⟩
    · exact .of_mem_eq rfl rfl rfl
    · exact .of_writeAll rfl rfl rfl
  case buildExc =>
    rcases execBuildExc_next h with rfl | ⟨-, rfl⟩
    · exact .of_mem_eq rfl rfl rfl
    · exact .of_writeAll rfl rfl rfl
  case reqRhr =>
    rcases execReqRhr_next h with ⟨_, -, rfl⟩ | ⟨-, -, -, rfl⟩
    · exact .of_mem_eq rfl rfl rfl
    · exact .of_writeAll rfl rfl rfl
  case reqWsr =>
    rcases execReqWsr_next h with rfl | ⟨-, rfl⟩
    · exact .of_mem_eq rfl rfl rfl
    · exact .of_writeAll rfl rfl rfl
  case reqWmr =>
    rcases execReqWmr_next h with ⟨_, -, rfl⟩ | ⟨_, -, -, -, -, -, rfl⟩
    · exact .of_mem_eq rfl rfl rfl
    · exact .of_writeAll rfl rfl rfl
  case parse =>
    rcases execParse_next h with hfail | ⟨_, -, -, rfl⟩
    · exact .of_parseFails hfail
    · exact .of_writeAll rfl rfl rfl
  case rspRhr =>
    rcases execRspRhr_next h with hfail | ⟨_, _, -, -, -, rfl⟩
    · exact .of_parseFails hfail
    · exact .of_writeAll rfl rfl rfl
  case rspWsr =>
    rcases execRspWsr_next h with hfail | ⟨-, rfl⟩
    · exact .of_parseFails hfail
    · exact .of_mem_eq rfl rfl rfl
  case rspWmr =>
    rcases execRspWmr_next h with hfail | ⟨-, rfl⟩
    · exact .of_parseFails hfail
    · exact .of_mem_eq rfl rfl rfl
  case sHdr =>
    rcases execSHdr_next h with ⟨-, rfl⟩ | ⟨-, _, -, -, rfl⟩ | ⟨-, -, _, -, ⟨-, rfl⟩ | ⟨-, rfl⟩ | ⟨-, rfl⟩⟩ <;>
      exact .of_mem_eq rfl rfl rfl
  case sCnt =>
    rcases execSCnt_next h with ⟨-, rfl⟩ | ⟨-, rfl⟩ | ⟨-, -, _, -, ⟨-, rfl⟩ | ⟨-, rfl⟩⟩ <;> exact .of_mem_eq rfl rfl rfl
  case sBody =>
    rcases execSBody_next h with ⟨-, rfl⟩ | ⟨-, rfl⟩ |
      ⟨-, -, rfl | ⟨_, -, ⟨-, _, -, rfl⟩ | ⟨-, _, -, rfl⟩ | ⟨-, _, _, _, -, -, rfl⟩ | ⟨-, rfl⟩⟩⟩
    case inr.inr.inr.inr.inr.inl => exact .of_writeAll rfl rfl rfl
    all_goals exact .of_mem_eq rfl rfl rfl
  all_goals
    rw [exec_of_frame rfl] at h
    cases h
    exact .of_writeAll rfl rfl rfl

/-- S_INIT binds the station or, for an invalid one, keeps the binding (R231). -/
theorem execSInit_keepsBinding_or_binds (h : execSInit s = .next t) : KeepsBinding s t ∨ BindsStation s t := by
  rcases execSInit_next h with ⟨-, rfl⟩ | ⟨hvalid, rfl⟩
  · exact .inl (.of_mem_eq rfl rfl rfl)
  · exact .inr ⟨keepsWritten_of_mem_eq rfl, hvalid, rfl, rfl⟩

/-- Every instruction keeps the binding, or is S_INIT and binds a station. -/
theorem exec_keepsBinding_or_binds {i : Instr} (h : exec i s = .next t) :
    KeepsBinding s t ∨ (∃ dp src, i = .sInit dp src) ∧ BindsStation s t := by
  by_cases hi : ∃ dp src, i = .sInit dp src
  · obtain ⟨dp, src, rfl⟩ := hi
    exact (execSInit_keepsBinding_or_binds h).imp_right (.intro ⟨dp, src, rfl⟩)
  · exact .inl (exec_keepsBinding (fun dp src he => hi ⟨dp, src, he⟩) h)

end

/-! ## A decoded frame is no command -/

theorem asForm_map_eq_ok {α : Type} {o : Option α} {g : α → Instr} {i : Instr} (h : asForm (o.map g) = .ok i) :
    ∃ a, i = g a := by
  cases o with
  | none => cases h
  | some a => cases h; exact ⟨a, rfl⟩

theorem isCommand_of_decodeRequest {a f : Byte} {rest : List Byte} {i : Instr} (h : decodeRequest a f rest = .ok i) :
    i.isCommand = false := by
  unfold decodeRequest at h
  split at h
  · obtain ⟨_, rfl⟩ := asForm_map_eq_ok h; rfl
  split at h
  · obtain ⟨_, rfl⟩ := asForm_map_eq_ok h; rfl
  split at h
  · split at h
    · split at h
      · split at h <;> cases h
        rfl
      · cases h
    · cases h
  · cases h

theorem isCommand_of_decodeResponse {a f : Byte} {rest : List Byte} {i : Instr} (h : decodeResponse a f rest = .ok i) :
    i.isCommand = false := by
  unfold decodeResponse at h
  split at h
  · split at h
    · obtain ⟨_, rfl⟩ := asForm_map_eq_ok h; rfl
    · cases h
  split at h
  · obtain ⟨_, rfl⟩ := asForm_map_eq_ok h; rfl
  split at h
  · obtain ⟨_, rfl⟩ := asForm_map_eq_ok h; rfl
  split at h
  · obtain ⟨_, rfl⟩ := asForm_map_eq_ok h; rfl
  split at h
  · obtain ⟨_, rfl⟩ := asForm_map_eq_ok h; rfl
  split at h
  · obtain ⟨_, rfl⟩ := asForm_map_eq_ok h; rfl
  · cases h

/-- What the bytes of a frame decode to is a wire-frame form (R101). -/
theorem isCommand_of_decode_frame {dir : Direction} {bytes : List Byte} {i : Instr} (h : decode (.frame dir bytes) = .ok i) :
    i.isCommand = false := by
  simp only [decode, decodeFrame] at h
  split at h
  · cases h
  split at h
  · cases h
  split at h
  · cases dir
    · exact isCommand_of_decodeRequest h
    · exact isCommand_of_decodeResponse h
  · cases h

/-! ## One host action -/

section
variable {s t : State}

/-- The address of an access that reaches the block is BASE and the offset (R60, D3). -/
theorem windowOffset_eq_some {addr off : Nat} (h : s.windowOffset addr = some off) :
    addr = 0x400 * s.baseSlot + off ∧ off < 0x400 := by
  unfold State.windowOffset at h
  split at h
  · simp only [Option.some.injEq, Config.windowSize] at *
    omega
  · cases h

/-- Every next state of a CMD write: the decoded command's, or that of a word that is no command (R83). -/
theorem runCommand_next {w : Word} (h : runCommand w s = .next t) :
    (∃ i, decode (.command w) = .ok i ∧ exec i s = .next t) ∨ t = s.ended .notImplemented := by
  unfold runCommand at h
  split at h
  case h_1 i hi => exact .inl ⟨i, hi, h⟩
  case h_2 => cases h; exact .inr rfl

/-- Every next state of a host write of the window: a CMD write, the write of another register, a store into a buffer, or no
effect (R61, R62). -/
theorem busWrite_next {off : Nat} {n : Width} {v : Word} (h : busWrite off n v s = .next t) :
    (off = 0 ∧ n = .word ∧ runCommand v s = .next t) ∨
    (∃ r : Reg, r ≠ .cmd ∧ off = r.offset ∧ n = .word ∧ writeReg r v s = .next t) ∨
    (∃ b i, placeOf off = .buffer b i ∧ off % n.bytes = 0 ∧ t = s.storeBytes b i (busBytes n.bytes v)) ∨
    t = s := by
  unfold busWrite at h
  split at h
  case h_1 =>
    split at h
    case isFalse => cases h
    case isTrue haligned =>
      split at h
      case h_2 => cases h; exact .inr (.inr (.inr rfl))
      case h_1 r hr =>
        have hoff := eq_offset_of_regAt hr
        by_cases hcmd : r = .cmd
        · subst hcmd; exact .inl ⟨hoff, haligned.1, h⟩
        · exact .inr (.inl ⟨r, hcmd, hoff, haligned.1, h⟩)
  case h_2 b i hplace =>
    split at h
    case isTrue haligned => cases h; exact .inr (.inr (.inl ⟨b, i, hplace, haligned, rfl⟩))
    case isFalse => cases h
  case h_3 =>
    split at h <;> cases h
    exact .inr (.inr (.inr rfl))

/-- A host write keeps the binding, or is a 32-bit write of offset 0 that runs S_INIT and binds a station. -/
theorem busWrite_keepsBinding_or_binds {off : Nat} {n : Width} {v : Word} (h : busWrite off n v s = .next t) :
    KeepsBinding s t ∨
      (off = 0 ∧ n = .word ∧ ∃ dp src, decode (.command v) = .ok (.sInit dp src)) ∧ BindsStation s t := by
  rcases busWrite_next h with ⟨hoff, hn, h⟩ | ⟨r, hr, -, -, h⟩ | ⟨b, i, -, -, rfl⟩ | rfl
  · rcases runCommand_next h with ⟨i, hi, h⟩ | rfl
    · rcases exec_keepsBinding_or_binds h with hk | ⟨⟨dp, src, rfl⟩, hb⟩
      · exact .inl hk
      · exact .inr ⟨⟨hoff, hn, dp, src, hi⟩, hb⟩
    · exact .inl (.of_mem_eq rfl rfl rfl)
  · obtain ⟨hm, -⟩ := writeReg_keeps_memory_and_host hr h
    obtain ⟨hl, hi⟩ := writeReg_keeps_configuration hr h
    exact .inl (.of_mem_eq hm hl hi)
  · exact .inl (.of_writeAll rfl rfl rfl)
  · exact .inl (.of_mem_eq rfl rfl rfl)

/-- The arrival of a frame keeps the binding. -/
theorem receiveFrame_keepsBinding {dir : Direction} {bytes : List Byte} (h : receiveFrame dir bytes s = .next t) :
    KeepsBinding s t := by
  unfold receiveFrame at h
  split at h
  case h_1 i hi =>
    refine exec_keepsBinding ?_ h
    rintro dp src rfl
    cases isCommand_of_decode_frame hi
  case h_2 => cases h; exact .of_writeAll rfl rfl rfl

/-- A host action other than a reset keeps the binding, or is a 32-bit write of CMD that runs S_INIT and binds a station. -/
theorem perform_keepsBinding_or_binds {a : HostAction} (ha : a ≠ .reset) (h : perform a s = .next t) :
    KeepsBinding s t ∨
      (∃ w dp src, a = .write (0x400 * s.baseSlot) .word w ∧ decode (.command w) = .ok (.sInit dp src)) ∧ BindsStation s t := by
  cases a with
  | reset => exact absurd rfl ha
  | frame dir bytes => exact .inl (receiveFrame_keepsBinding h)
  | read addr n =>
    left
    simp only [perform] at h
    split at h
    · obtain ⟨_, -, h⟩ := andThen_eq_next h
      cases h
      exact .of_mem_eq rfl rfl rfl
    · cases h
      exact .of_mem_eq rfl rfl rfl
  | write addr n v =>
    simp only [perform] at h
    split at h
    case h_1 off hoff =>
      refine (busWrite_keepsBinding_or_binds h).imp_right ?_
      rintro ⟨⟨rfl, rfl, dp, src, hdec⟩, hb⟩
      obtain ⟨rfl, -⟩ := windowOffset_eq_some hoff
      exact ⟨⟨v, dp, src, rfl, hdec⟩, hb⟩
    case h_2 => cases h; exact .inl (.of_mem_eq rfl rfl rfl)

/-- A step other than a reset keeps the binding, or performs a 32-bit write of CMD that runs S_INIT and binds a station. -/
theorem step_keepsBinding_or_binds (hreset : ∀ rest, s.pending ≠ .reset :: rest) (h : step s = .next t) :
    KeepsBinding s t ∨
      (∃ w dp src rest, s.pending = .write (0x400 * s.baseSlot) .word w :: rest ∧ decode (.command w) = .ok (.sInit dp src)) ∧
        BindsStation s t := by
  simp only [step, performNext] at h
  split at h
  case h_1 => cases h; exact .inl (.of_mem_eq rfl rfl rfl)
  case h_2 a rest hpending =>
    have ha : a ≠ .reset := by rintro rfl; exact hreset rest hpending
    rcases perform_keepsBinding_or_binds ha h with hk | ⟨⟨w, dp, src, rfl, hdec⟩, hb⟩
    · exact .inl ⟨hk.written, hk.localAddr, hk.init⟩
    · exact .inr ⟨⟨w, dp, src, rest, hpending, hdec⟩, hb.written, hb.stationValid, hb.localAddr, hb.init⟩

end

/-! ## The statements about steps, and the free bits of a command -/

/-- Settles O47: a step that does not keep the binding runs a successful S_INIT. -/
theorem onlySInitConfigures : Obligations.OnlySInitConfigures := by
  intro s t a rest hpending ha h
  have hreset : ∀ rest, s.pending ≠ .reset :: rest := fun _ he => ha (List.cons.inj (hpending.symm.trans he)).1
  rcases step_keepsBinding_or_binds hreset h with hk | ⟨⟨w, dp, src, _, he, hdec⟩, hb⟩
  · refine ⟨hk.init.trans, fun hchanged => ?_⟩
    rcases hchanged with hl | hi
    · exact absurd hk.localAddr hl
    · exact absurd hk.init hi
  · obtain ⟨rfl, -⟩ := List.cons.inj (hpending.symm.trans he)
    exact ⟨fun _ => hb.init, fun _ => ⟨⟨w, dp, src, rfl, hdec⟩, hb.stationValid, hb.init, hb.localAddr⟩⟩

/-- Settles O54: whether a step keeps the binding or binds a station, the written bytes stay written. -/
theorem writtenBytesStayWritten : Obligations.WrittenBytesStayWritten := by
  intro s t hreset h
  rcases step_keepsBinding_or_binds hreset h with hk | ⟨-, hb⟩
  · exact hk.written
  · exact hb.written

/-- CRC16 of FRAME does not look at DP (R150, D13). -/
theorem execCrc16_frame_ignores_dp (dp dp' : Bool) (s : State) : execCrc16 dp true s = execCrc16 dp' true s := by
  simp [execCrc16]

/-- Settles O6: `exec` hands DP and SRC on to CRC16, BUILD and REQ_WMR alone, and CRC16 of FRAME does not look at DP. -/
theorem freeBitsAreIgnored : Obligations.FreeBitsAreIgnored := fun dp _ dp' _ s =>
  ⟨rfl, rfl, execCrc16_frame_ignores_dp dp dp' s, rfl, rfl, rfl, rfl, rfl, rfl, rfl, rfl, rfl, rfl, rfl⟩

end Sys2Proof.Machine
end

section
/-! PROOFS. Host accesses: what a read or write of each part of the window answers (20_memory.md R60 to R65), what one host action
does to the block (R66, R67), and what no action changes on the host's side. -/

namespace Sys2Proof.Machine

variable {s t : State}

/-! ## Register space -/

/-- An access to register space that is not 32 bits wide at a multiple of 4 is refused (R61). -/
theorem busAccess_register_refused {off : Nat} {n : Width} (hoff : off < 0x100) (hn : ¬ (n = .word ∧ off % 4 = 0)) (v : Word)
    (s : State) : busRead off n s = .refused .registerAccess ∧ busWrite off n v s = .refused .registerAccess := by
  simp only [busRead, busWrite, placeOf_register hoff, if_neg hn, and_self]

/-- A write of a reserved offset of register space is ignored (R61, D34). -/
theorem busWrite_reserved {off : Nat} (v : Word) (s : State) (hlo : 0x044 ≤ off) (hhi : off < 0x100) (ha : off % 4 = 0) :
    busWrite off .word v s = .next s := by
  simp [busWrite, placeOf_register hhi, regAt_reserved hlo, ha]

/-- The registers a host write does not change (R20). -/
def readOnlyRegisters : List Reg := [.status, .olen, .crc, .rlen, .localAddr, .need, .sfunc, .bcount]

/-- A write of a read-only register is ignored (R61, D35). -/
theorem writeReg_readOnly {r : Reg} (hr : r ∈ readOnlyRegisters) (v : Word) (s : State) : writeReg r v s = .next s := by
  cases r
  case status | olen | crc | rlen | localAddr | need | sfunc | bcount => rfl
  all_goals simp [readOnlyRegisters] at hr

/-- A CMD word that decodes runs its command (R120). -/
theorem runCommand_of_decode {w : Word} {i : Instr} (h : decode (.command w) = .ok i) (s : State) :
    runCommand w s = exec i s := by
  simp only [runCommand, h]

/-- Settles O12: register space by its offsets, aligned or not, named in the map or reserved. -/
theorem registerSpaceAccess : Obligations.RegisterSpaceAccess := by
  intro off n v s hoff
  refine ⟨fun hn => busAccess_register_refused hoff hn v s, ?_⟩
  rintro rfl ha
  refine ⟨?_, fun hro => ?_, fun hlo => ⟨busRead_reserved s hlo hoff ha, busWrite_reserved v s hlo hoff ha⟩, ?_⟩
  · rintro r rfl
    exact busRead_offset r s
  · obtain ⟨r, hr, rfl⟩ : ∃ r ∈ readOnlyRegisters, r.offset = off := List.mem_map.mp hro
    rw [busWrite_offset, writeReg_readOnly hr]
  · rintro rfl i hi
    exact (busWrite_offset .cmd v s).trans (runCommand_of_decode hi s)

/-! ## The buffers and the reserved window -/

theorem base_mod_four (b : Buffer) : b.base % 4 = 0 := by cases b <;> rfl

/-- Alignment does not see a multiple of 4 in front of the index. -/
theorem add_mod_bytes {a : Nat} (ha : a % 4 = 0) (i : Nat) (n : Width) : (a + i) % n.bytes = i % n.bytes := by
  cases n <;> simp only [Width.bytes] <;> omega

/-- An aligned access that begins in a buffer ends in it (R62). -/
theorem add_bytes_le_of_aligned {i : Nat} {n : Width} (hi : i < 256) (ha : i % n.bytes = 0) : i + n.bytes ≤ 256 := by
  cases n <;> simp only [Width.bytes] at * <;> omega

theorem placeOf_frame {i : Nat} (hi : i < 256) : placeOf (0x100 + i) = .buffer .frame i := by
  simp only [placeOf, Config.frameOffset, Config.dataOffset]
  rw [if_neg (by omega), if_pos (by omega), Nat.add_sub_cancel_left]

theorem placeOf_data {i : Nat} (hi : i < 256) : placeOf (0x200 + i) = .buffer .data i := by
  simp only [placeOf, Config.frameOffset, Config.dataOffset, Config.reservedOffset]
  rw [if_neg (by omega), if_neg (by omega), if_pos (by omega), Nat.add_sub_cancel_left]

/-- A buffer's base and an index name that byte of the buffer (R60). -/
theorem placeOf_base_add (b : Buffer) {i : Nat} (hi : i < 256) : placeOf (b.base + i) = .buffer b i := by
  cases b
  case frame => exact placeOf_frame hi
  case data => exact placeOf_data hi

/-- A place in a buffer is at the buffer's base and its index (R60). -/
theorem placeOf_eq_buffer {off : Nat} {b : Buffer} {i : Nat} (h : placeOf off = .buffer b i) : off = b.base + i ∧ i < 256 := by
  unfold placeOf at h
  split at h
  · cases h
  split at h
  · cases h; simp only [Buffer.base, Config.frameOffset, Config.dataOffset] at *; omega
  split at h
  · cases h; simp only [Buffer.base, Config.dataOffset, Config.reservedOffset] at *; omega
  · cases h

theorem placeOf_reservedWindow (i : Nat) : placeOf (0x300 + i) = .reserved := by
  simp only [placeOf, Config.frameOffset, Config.dataOffset, Config.reservedOffset]
  rw [if_neg (by omega), if_neg (by omega), if_neg (by omega)]

/-- A read of a buffer: the little-endian sum of its bytes when aligned, or refused (R62, R63). -/
theorem busRead_buffer (b : Buffer) {i : Nat} (hi : i < 256) (n : Width) (s : State) : busRead (b.base + i) n s =
    if i % n.bytes = 0 then andThen (readBytes s b i n.bytes) fun bs => .next (BitVec.ofNat 32 (busValue bs))
    else .refused .misalignedAccess := by
  simp only [busRead, placeOf_base_add b hi, add_mod_bytes (base_mod_four b)]

/-- A write of a buffer: the value's bytes stored when aligned, or refused (R62, R63). -/
theorem busWrite_buffer (b : Buffer) {i : Nat} (hi : i < 256) (n : Width) (v : Word) (s : State) : busWrite (b.base + i) n v s =
    if i % n.bytes = 0 then .next (s.storeBytes b i (busBytes n.bytes v)) else .refused .misalignedAccess := by
  simp only [busWrite, placeOf_base_add b hi, add_mod_bytes (base_mod_four b)]

/-- The window above the buffers reads 0, with the same alignment (R62). -/
theorem busRead_reservedWindow (i : Nat) (n : Width) (s : State) :
    busRead (0x300 + i) n s = if i % n.bytes = 0 then .next 0 else .refused .misalignedAccess := by
  simp only [busRead, placeOf_reservedWindow, add_mod_bytes (show 0x300 % 4 = 0 from rfl)]

/-- The window above the buffers ignores writes, with the same alignment (R62). -/
theorem busWrite_reservedWindow (i : Nat) (n : Width) (v : Word) (s : State) :
    busWrite (0x300 + i) n v s = if i % n.bytes = 0 then .next s else .refused .misalignedAccess := by
  simp only [busWrite, placeOf_reservedWindow, add_mod_bytes (show 0x300 % 4 = 0 from rfl)]

/-- An aligned read of held bytes gives their little-endian sum (R63). -/
theorem busRead_of_holds {b : Buffer} {i : Nat} {n : Width} {bs : List Byte} (hi : i < 256) (ha : i % n.bytes = 0)
    (hl : bs.length = n.bytes) (h : s.Holds b i bs) : busRead (b.base + i) n s = .next (BitVec.ofNat 32 (busValue bs)) := by
  rw [busRead_buffer b hi, if_pos ha, ← hl, readBytes_of_holds h, andThen_next]

/-- An aligned read with an unwritten byte is refused (R28, R63). -/
theorem busRead_of_someUnwritten {b : Buffer} {i : Nat} {n : Width} (hi : i < 256) (ha : i % n.bytes = 0)
    (h : s.SomeUnwritten b i n.bytes) : busRead (b.base + i) n s = .refused .unwrittenByte := by
  rw [busRead_buffer b hi, if_pos ha, readBytes_refused (add_bytes_le_of_aligned hi ha) h, andThen_refused]

/-- An aligned write stores the value's bytes (R63). -/
theorem busWrite_of_bytes {b : Buffer} {i : Nat} {n : Width} {v : Word} {bs : List Byte} (hi : i < 256) (ha : i % n.bytes = 0)
    (hbs : busBytes n.bytes v = bs) (s : State) : busWrite (b.base + i) n v s = .next (s.storeBytes b i bs) := by
  rw [busWrite_buffer b hi, if_pos ha, hbs]

/-- Byte `j` of a written value is its `j`-th digit to base 256 (R63). -/
theorem busBytes_eq_digits (k : Nat) (v : Word) :
    busBytes k v = (List.range k).map fun j => BitVec.ofNat 8 (v.toNat / 256 ^ j) := by
  refine List.map_congr_left fun j _ => BitVec.eq_of_toNat_eq ?_
  rw [BitVec.extractLsb'_toNat, BitVec.toNat_ofNat, Nat.shiftRight_eq_div_pow, pow_mul]
  rfl

/-- A read's value is the sum of its bytes, each times 256 to its place (R63). -/
theorem sum_zipIdx_eq_busValue (bs : List Byte) (k : Nat) :
    ((bs.zipIdx k).map fun p => p.1.toNat * 256 ^ p.2).sum = 256 ^ k * busValue bs := by
  induction bs generalizing k with
  | nil => simp [busValue]
  | cons b bs ih => simp only [List.zipIdx_cons, List.map_cons, List.sum_cons, ih, busValue]; ring

/-- The widths of a bus access with their numbers of bytes (R60). -/
theorem bytes_of_mem_widths {n : Width} {k : Nat} (h : (n, k) ∈ [(Width.byte, 1), (.half, 2), (.word, 4)]) : k = n.bytes := by
  cases n <;> simpa [Width.bytes] using h

/-- Settles O13: by the rules for the buffers and the reserved window, the access aligned or not. -/
theorem bufferAccessIsLittleEndian : Obligations.BufferAccessIsLittleEndian := by
  intro b i n k v s hk hi off
  obtain rfl := bytes_of_mem_widths hk
  rw [show off = b.base + i by cases b <;> rfl]
  refine ⟨fun ha => ?_, fun ha => ⟨?_, fun bytes hl h => ?_, busRead_of_someUnwritten hi ha⟩, fun ha => ?_, fun ha => ?_⟩
  · rw [busRead_buffer b hi, busWrite_buffer b hi, if_neg ha, if_neg ha]
    exact ⟨rfl, rfl⟩
  · exact ⟨_, busWrite_of_bytes hi ha (busBytes_eq_digits n.bytes v) s, Memory.stored_writeAll _ _ _⟩
  · rw [busRead_of_holds hi ha hl h, sum_zipIdx_eq_busValue, pow_zero, one_mul]
  · rw [busRead_reservedWindow, busWrite_reservedWindow, if_neg ha, if_neg ha]
    exact ⟨rfl, rfl⟩
  · rw [busRead_reservedWindow, busWrite_reservedWindow, if_pos ha, if_pos ha]
    exact ⟨rfl, rfl⟩

/-! ## Mixed widths -/

/-- Stored bytes are held (R28). -/
theorem holds_storeBytes (s : State) (b : Buffer) {i : Nat} {bs : List Byte} (hb : i + bs.length ≤ 256) :
    (s.storeBytes b i bs).Holds b i bs :=
  holds_of_stored (Memory.stored_writeAll _ _ _) hb

/-- A byte access is always aligned (R62). -/
theorem aligned_byte (i : Nat) : i % Width.byte.bytes = 0 := Nat.mod_one i

/-- A byte write stores its byte (R63). -/
theorem busWrite_byte (b : Buffer) {i : Nat} (hi : i < 256) (x : Byte) (s : State) :
    busWrite (b.base + i) .byte (x.zeroExtend 32) s = .next (s.storeBytes b i [x]) := by
  have hbytes : busBytes 1 (x.zeroExtend 32) = [x] := by
    simp only [busBytes_eq_digits, List.range_one, List.map_singleton, pow_zero, Nat.div_one]
    rw [BitVec.ofNat_toNat, BitVec.zeroExtend, BitVec.setWidth_setWidth_of_le x (by omega), BitVec.setWidth_eq]
  exact busWrite_of_bytes hi (aligned_byte i) hbytes s

/-- A byte read gives the byte that is held (R63). -/
theorem busRead_byte {b : Buffer} {i : Nat} {x : Byte} (h : s.byteAt b i = some x) :
    busRead (b.base + i) .byte s = .next (x.zeroExtend 32) := by
  rw [busRead_of_holds (bs := [x]) (byteAt_lt h) (aligned_byte i) rfl (holds_cons.mpr ⟨h, holds_nil s b (i + 1)⟩)]
  simp [busValue]

/-- The word of four bytes, the first the least significant (R63, R65). -/
def wordOfBytes (b0 b1 b2 b3 : Byte) : Word := b3 ++ (b2 ++ (b1 ++ b0))

/-- The four bytes read as one word (R63). -/
theorem busValue_wordOfBytes (b0 b1 b2 b3 : Byte) : BitVec.ofNat 32 (busValue [b0, b1, b2, b3]) = wordOfBytes b0 b1 b2 b3 := by
  apply BitVec.eq_of_toNat_eq
  simp only [wordOfBytes, toNat_append_eq_add, busValue, BitVec.toNat_ofNat]
  omega

/-- The word's bytes are the four (R63). -/
theorem busBytes_wordOfBytes (b0 b1 b2 b3 : Byte) : busBytes 4 (wordOfBytes b0 b1 b2 b3) = [b0, b1, b2, b3] := by
  have hsum : (wordOfBytes b0 b1 b2 b3).toNat = b0.toNat + 256 * (b1.toNat + 256 * (b2.toNat + 256 * b3.toNat)) := by
    simp only [wordOfBytes, toNat_append_eq_add]
    omega
  simp only [busBytes_eq_digits, hsum, List.range_succ, List.range_zero, List.nil_append, List.cons_append,
    List.map_cons, List.map_nil, List.cons.injEq, and_true]
  refine ⟨?_, ?_, ?_, ?_⟩ <;> apply BitVec.eq_of_toNat_eq <;> rw [BitVec.toNat_ofNat] <;> omega

/-- Settles O14: four byte writes and one word write leave the same four held bytes. -/
theorem mixedWidthsAgree : Obligations.MixedWidthsAgree := by
  intro b i b0 b1 b2 b3 s hi ha off w
  have hword : i % Width.word.bytes = 0 := ha
  have hheld : (s.storeBytes b i [b0, b1, b2, b3]).Holds b i [b0, b1, b2, b3] := holds_storeBytes s b (by simp; omega)
  refine ⟨⟨s.storeBytes b i [b0, b1, b2, b3], ?_, ?_⟩, s.storeBytes b i [b0, b1, b2, b3], ?_, ?_⟩
  · simp only [off, Nat.add_assoc]
    rw [busWrite_byte b hi, andThen_next, busWrite_byte b (by omega), andThen_next, busWrite_byte b (by omega), andThen_next,
      busWrite_byte b (by omega)]
    rfl
  · rw [busRead_of_holds hi hword rfl hheld, busValue_wordOfBytes]
    rfl
  · exact busWrite_of_bytes hi hword (busBytes_wordOfBytes b0 b1 b2 b3) s
  · simp only [holds_cons] at hheld
    obtain ⟨h0, h1, h2, h3, -⟩ := hheld
    exact ⟨busRead_byte h0, busRead_byte h1, busRead_byte h2, busRead_byte h3⟩

/-! ## One host action -/

/-- A step with a pending action performs the oldest (R67). -/
theorem step_of_pending {a : HostAction} {rest : List HostAction} (h : s.pending = a :: rest) :
    step s = perform a { s with pending := rest, performed := s.performed + 1 } := by
  simp only [step, performNext, h]

/-- An address in the window reaches its offset (R60). -/
theorem windowOffset_of_base_add {addr off : Nat} (hoff : off < 0x400) (h : addr = 0x400 * s.baseSlot + off) :
    s.windowOffset addr = some off := by
  subst h
  simp only [State.windowOffset, Config.windowSize]
  rw [if_pos (by omega)]
  congr 1; omega

/-- An address outside the window reaches no offset (R60; log 10). -/
theorem windowOffset_outside {addr : Nat} (h : addr < 0x400 * s.baseSlot ∨ 0x400 * s.baseSlot + 0x400 ≤ addr) :
    s.windowOffset addr = none := by
  simp only [State.windowOffset, Config.windowSize]
  rw [if_neg (by omega)]

theorem perform_read_inside {addr off : Nat} (h : s.windowOffset addr = some off) (n : Width) :
    perform (.read addr n) s = andThen (busRead off n s) fun v => .next { s with replies := s.replies ++ [v] } := by
  simp only [perform, h]

theorem perform_write_inside {addr off : Nat} (h : s.windowOffset addr = some off) (n : Width) (v : Word) :
    perform (.write addr n v) s = busWrite off n v s := by
  simp only [perform, h]

theorem perform_read_outside {addr : Nat} (h : s.windowOffset addr = none) (n : Width) : perform (.read addr n) s = .next s := by
  simp only [perform, h]

theorem perform_write_outside {addr : Nat} (h : s.windowOffset addr = none) (n : Width) (v : Word) :
    perform (.write addr n v) s = .next s := by
  simp only [perform, h]

/-- Every next state of a host read: at most a reply is added (R66). -/
theorem perform_read_next {addr : Nat} {n : Width} (h : perform (.read addr n) s = .next t) :
    ∃ vs : List Word, t = { s with replies := s.replies ++ vs } := by
  cases hoff : s.windowOffset addr with
  | none =>
    rw [perform_read_outside hoff] at h
    cases h
    exact ⟨[], by simp⟩
  | some off =>
    rw [perform_read_inside hoff] at h
    obtain ⟨v, -, h⟩ := andThen_eq_next h
    cases h
    exact ⟨[v], rfl⟩

/-! ## Reads and the host's side -/

/-- Inside a buffer a read depends on memory alone. -/
theorem readBytes_congr_inside (h : t.mem = s.mem) (b : Buffer) {i n : Nat} (hb : i + n ≤ 256) :
    readBytes t b i n = readBytes s b i n := by
  rcases readBytes_cases s b hb with ⟨bs, hs, hl, hheld⟩ | ⟨hs, k, hk, hun⟩
  · rw [hs, (readBytes_eq_next hb).mpr ⟨hl, (holds_congr h b i bs).mpr hheld⟩]
  · rw [hs, readBytes_refused hb ⟨k, hk, (byteAt_congr h b (i + k)).trans hun⟩]

/-- What a host read gives does not depend on what is still pending, nor on how much was performed. -/
theorem busRead_with_host (off : Nat) (n : Width) (s : State) (rest : List HostAction) (k : Nat) :
    busRead off n { s with pending := rest, performed := k } = busRead off n s := by
  cases hplace : placeOf off with
  | register =>
    have hreg : ∀ r : Reg, State.readReg { s with pending := rest, performed := k } r = s.readReg r := fun r => by cases r <;> rfl
    simp only [busRead, hplace, hreg]
  | buffer b i =>
    obtain ⟨rfl, hi⟩ := placeOf_eq_buffer hplace
    rw [busRead_buffer b hi, busRead_buffer b hi]
    split
    case isTrue ha => rw [readBytes_congr_inside (s := s) (by rfl) b (add_bytes_le_of_aligned hi ha)]
    case isFalse => rfl
  | reserved => simp only [busRead, hplace]

/-- Settles O16: an address in the window is decoded to its offset, one outside to none. -/
theorem windowIsAtBase : Obligations.WindowIsAtBase := by
  intro s addr n v rest s'
  refine ⟨fun off hoff haddr => ?_, fun hout => ?_⟩
  · have hin : s'.windowOffset addr = some off := windowOffset_of_base_add hoff haddr
    refine ⟨fun hp => by rw [step_of_pending hp, perform_write_inside hin], fun hp => ?_⟩
    have hread : step s = andThen (busRead off n s) fun x => .next { s' with replies := s.replies ++ [x] } := by
      rw [step_of_pending hp, perform_read_inside hin, busRead_with_host]
    exact ⟨fun x hx => by rw [hread, hx, andThen_next], fun q hq => by rw [hread, hq, andThen_refused]⟩
  · have hnone : s'.windowOffset addr = none := windowOffset_outside hout
    exact ⟨fun hp => by rw [step_of_pending hp, perform_write_outside hnone],
      fun hp => by rw [step_of_pending hp, perform_read_outside hnone]⟩

/-! ## Writes elsewhere than CMD -/

/-- STATUS, the result registers, the slave configuration and the replies are the same (R25). -/
def KeepsResults (s t : State) : Prop :=
  t.status = s.status ∧ t.olen = s.olen ∧ t.crc = s.crc ∧ t.rlen = s.rlen ∧ t.localAddr = s.localAddr ∧
    t.need = s.need ∧ t.sfunc = s.sfunc ∧ t.bcount = s.bcount ∧ t.replies = s.replies

/-- So it is where an update writes none of these fields. -/
theorem KeepsResults.refl (s : State) : KeepsResults s s := ⟨rfl, rfl, rfl, rfl, rfl, rfl, rfl, rfl, rfl⟩

/-- A write of a register other than CMD touches no result register (R25). -/
theorem writeReg_keepsResults {r : Reg} {v : Word} (hr : r ≠ .cmd) (h : writeReg r v s = .next t) : KeepsResults s t := by
  cases r
  case cmd => exact absurd rfl hr
  all_goals
    cases h
    exact .refl s

/-- A write elsewhere than CMD touches no result register (R25, R66). -/
theorem busWrite_keepsResults {off : Nat} {n : Width} {v : Word} (hoff : off ≠ 0) (h : busWrite off n v s = .next t) :
    KeepsResults s t := by
  rcases busWrite_next h with ⟨h0, -, -⟩ | ⟨r, hr, -, -, h⟩ | ⟨b, i, -, -, rfl⟩ | rfl
  · exact absurd h0 hoff
  · exact writeReg_keepsResults hr h
  · exact .refl s
  · exact .refl t

/-- A host write at another address than BASE + 0 touches no result register (R25, R66). -/
theorem perform_write_keepsResults {addr : Nat} {n : Width} {v : Word} (haddr : addr ≠ 0x400 * s.baseSlot)
    (h : perform (.write addr n v) s = .next t) : KeepsResults s t := by
  cases hoff : s.windowOffset addr with
  | none =>
    rw [perform_write_outside hoff] at h
    cases h
    exact .refl s
  | some off =>
    rw [perform_write_inside hoff] at h
    obtain ⟨he, -⟩ := windowOffset_eq_some hoff
    exact busWrite_keepsResults (by omega) h

/-- Settles O15: a read at most adds a reply, and a write elsewhere than CMD keeps the results. -/
theorem onlyCmdWritesRunCommands : Obligations.OnlyCmdWritesRunCommands := by
  intro s t addr n rest
  refine ⟨fun hp h => ?_, fun v hp haddr h => ?_⟩
  · rw [step_of_pending hp] at h
    obtain ⟨vs, rfl⟩ := perform_read_next h
    exact ⟨s.replies ++ vs, rfl⟩
  · rw [step_of_pending hp] at h
    exact perform_write_keepsResults (s := { s with pending := rest, performed := s.performed + 1 }) haddr h

/-! ## Arriving bytes -/

/-- Bytes that fit the buffers are all placed from F[0] on (R110; log 16). -/
theorem stored_fillFrame {bytes : List Byte} (h : bytes.length ≤ Config.reservedOffset - Config.frameOffset) (s : State) :
    Stored s.mem (fillFrame bytes s).mem 0x100 bytes := by
  rw [fillFrame_mem, List.take_of_length_le h]
  exact Memory.stored_writeAll _ _ _

/-- Settles O18: bytes that decode to no form are placed in FRAME like any others. -/
theorem anyBytesMayArrive : Obligations.AnyBytesMayArrive := by
  intro s d bytes e rest hp hdec hlen
  have hstep : step s = .next (fillFrame bytes { s with pending := rest, performed := s.performed + 1 }) := by
    simp only [step_of_pending hp, perform, receiveFrame, hdec]
  exact ⟨_, hstep, stored_fillFrame (hlen.trans (by decide)) { s with pending := rest, performed := s.performed + 1 }⟩

/-! ## The host's side -/

/-- The block's place, the pending actions, the replies and the counter are the same. -/
def KeepsHost (s t : State) : Prop :=
  t.baseSlot = s.baseSlot ∧ t.pending = s.pending ∧ t.replies = s.replies ∧ t.performed = s.performed

/-- So it is where an update writes none of these fields. -/
theorem KeepsHost.refl (s : State) : KeepsHost s s := ⟨rfl, rfl, rfl, rfl⟩

theorem KeepsHost.of_parseFails (h : ParseFails s t) : KeepsHost s t := by
  rcases h with ⟨c, -, rfl⟩ | ⟨ec, rfl⟩ <;> exact .refl s

/-- No instruction changes the host's side: its next states, case by case. -/
theorem exec_keepsHost {i : Instr} (h : exec i s = .next t) : KeepsHost s t := by
  cases i
  case crc16 => rcases execCrc16_next h with ⟨-, rfl⟩ | ⟨-, rfl⟩ | ⟨_, -, -, rfl⟩ <;> exact .refl s
  case build => rcases execBuild_next h with ⟨_, -, rfl⟩ | ⟨_, -, -, -, -, rfl⟩ <;> exact .refl s
  case buildExc => rcases execBuildExc_next h with rfl | ⟨-, rfl⟩ <;> exact .refl s
  case reqRhr => rcases execReqRhr_next h with ⟨_, -, rfl⟩ | ⟨-, -, -, rfl⟩ <;> exact .refl s
  case reqWsr => rcases execReqWsr_next h with rfl | ⟨-, rfl⟩ <;> exact .refl s
  case reqWmr => rcases execReqWmr_next h with ⟨_, -, rfl⟩ | ⟨_, -, -, -, -, -, rfl⟩ <;> exact .refl s
  case parse =>
    rcases execParse_next h with hfail | ⟨_, -, -, rfl⟩
    · exact .of_parseFails hfail
    · exact .refl s
  case rspRhr =>
    rcases execRspRhr_next h with hfail | ⟨_, _, -, -, -, rfl⟩
    · exact .of_parseFails hfail
    · exact .refl s
  case rspWsr =>
    rcases execRspWsr_next h with hfail | ⟨-, rfl⟩
    · exact .of_parseFails hfail
    · exact .refl s
  case rspWmr =>
    rcases execRspWmr_next h with hfail | ⟨-, rfl⟩
    · exact .of_parseFails hfail
    · exact .refl s
  case sInit => rcases execSInit_next h with ⟨-, rfl⟩ | ⟨-, rfl⟩ <;> exact .refl s
  case sHdr =>
    rcases execSHdr_next h with ⟨-, rfl⟩ | ⟨-, _, -, -, rfl⟩ | ⟨-, -, _, -, ⟨-, rfl⟩ | ⟨-, rfl⟩ | ⟨-, rfl⟩⟩ <;> exact .refl s
  case sCnt =>
    rcases execSCnt_next h with ⟨-, rfl⟩ | ⟨-, rfl⟩ | ⟨-, -, _, -, ⟨-, rfl⟩ | ⟨-, rfl⟩⟩ <;> exact .refl s
  case sBody =>
    rcases execSBody_next h with ⟨-, rfl⟩ | ⟨-, rfl⟩ |
      ⟨-, -, rfl | ⟨_, -, ⟨-, _, -, rfl⟩ | ⟨-, _, -, rfl⟩ | ⟨-, _, _, _, -, -, rfl⟩ | ⟨-, rfl⟩⟩⟩ <;> exact .refl s
  all_goals
    rw [exec_of_frame rfl] at h
    cases h
    exact .refl s

/-- A host write changes nothing on the host's side. -/
theorem busWrite_keepsHost {off : Nat} {n : Width} {v : Word} (h : busWrite off n v s = .next t) : KeepsHost s t := by
  rcases busWrite_next h with ⟨-, -, h⟩ | ⟨r, hr, -, -, h⟩ | ⟨b, i, -, -, rfl⟩ | rfl
  · rcases runCommand_next h with ⟨i, -, h⟩ | rfl
    · exact exec_keepsHost h
    · exact .refl s
  · exact (writeReg_keeps_memory_and_host hr h).2
  · exact .refl s
  · exact .refl t

/-- The arrival of bytes changes nothing on the host's side. -/
theorem receiveFrame_keepsHost {dir : Direction} {bytes : List Byte} (h : receiveFrame dir bytes s = .next t) :
    KeepsHost s t := by
  unfold receiveFrame at h
  split at h
  case h_1 => exact exec_keepsHost h
  case h_2 => cases h; exact .refl s

/-- A host action other than a read changes nothing on the host's side. -/
theorem perform_keepsHost {a : HostAction} (ha : ∀ addr n, a ≠ .read addr n) (h : perform a s = .next t) : KeepsHost s t := by
  cases a with
  | read addr n => exact absurd rfl (ha addr n)
  | frame dir bytes => exact receiveFrame_keepsHost h
  | reset => cases h; exact .refl s
  | write addr n v =>
    cases hoff : s.windowOffset addr with
    | none =>
      rw [perform_write_outside hoff] at h
      cases h
      exact .refl s
    | some off =>
      rw [perform_write_inside hoff] at h
      exact busWrite_keepsHost h

/-- A host action changes nothing on the host's side, but that a read may add a reply (R66, R67). -/
theorem perform_host {a : HostAction} (h : perform a s = .next t) :
    t.pending = s.pending ∧ t.baseSlot = s.baseSlot ∧ s.replies <+: t.replies ∧ t.performed = s.performed := by
  by_cases ha : ∃ addr n, a = .read addr n
  · obtain ⟨addr, n, rfl⟩ := ha
    obtain ⟨vs, rfl⟩ := perform_read_next h
    exact ⟨rfl, rfl, ⟨vs, rfl⟩, rfl⟩
  · obtain ⟨hslot, hpending, hreplies, hperformed⟩ := perform_keepsHost (fun addr n he => ha ⟨addr, n, he⟩) h
    exact ⟨hpending, hslot, ⟨[], by rw [hreplies, List.append_nil]⟩, hperformed⟩

/-- Settles O19: a step takes the oldest action, and performing it changes nothing else on the host's side but a reply added. -/
theorem actionsRunInOrder : Obligations.ActionsRunInOrder := by
  intro s t a rest hp h
  rw [step_of_pending hp] at h
  exact perform_host h

end Sys2Proof.Machine
end

section
/-! PROOFS. Encoding (30_encoding.md R80 to R102): decoding and encoding undo each other, for CMD words by their fields and for wire
frames by their function byte. -/

namespace Sys2Proof.Machine

/-! ## The fields of a CMD word -/

theorem toNat_commandWord (op : Byte) (dp src : Bool) :
    (commandWord op dp src).toNat = op.toNat + 0x100 * dp.toNat + 0x200 * src.toNat := by
  simp only [commandWord, toNat_append_eq_add, BitVec.toNat_ofBool, BitVec.toNat_ofNat]
  omega

theorem toNat_wordOp (w : Word) : (wordOp w).toNat = w.toNat % 256 := by
  simp [wordOp]

theorem toNat_wordDp (w : Word) : (wordDp w).toNat = w.toNat / 256 % 2 := Nat.toNat_testBit w.toNat 8

theorem toNat_wordSrc (w : Word) : (wordSrc w).toNat = w.toNat / 512 % 2 := Nat.toNat_testBit w.toNat 9

/-- The reserved bits are all zero exactly in the words below 1024 (R80). -/
theorem wordReserved_eq_zero_iff (w : Word) : wordReserved w = 0 ↔ w.toNat < 1024 := by
  rw [← BitVec.toNat_inj]
  simp [wordReserved, Nat.shiftRight_eq_div_pow]
  omega

theorem wordReserved_commandWord (op : Byte) (dp src : Bool) : wordReserved (commandWord op dp src) = 0 := by
  rw [wordReserved_eq_zero_iff, toNat_commandWord]
  have := dp.toNat_le
  have := src.toNat_le
  omega

theorem wordOp_commandWord (op : Byte) (dp src : Bool) : wordOp (commandWord op dp src) = op := by
  apply BitVec.eq_of_toNat_eq
  rw [toNat_wordOp, toNat_commandWord]
  omega

theorem wordDp_commandWord (op : Byte) (dp src : Bool) : wordDp (commandWord op dp src) = dp := by
  simp only [wordDp, commandWord, BitVec.getLsbD_append]
  simp

theorem wordSrc_commandWord (op : Byte) (dp src : Bool) : wordSrc (commandWord op dp src) = src := by
  simp only [wordSrc, commandWord, BitVec.getLsbD_append]
  simp

/-- A word with no reserved bit set is the command word of its fields (R80). -/
theorem commandWord_of_fields {w : Word} (h : wordReserved w = 0) : commandWord (wordOp w) (wordDp w) (wordSrc w) = w := by
  rw [wordReserved_eq_zero_iff] at h
  apply BitVec.eq_of_toNat_eq
  rw [toNat_commandWord, toNat_wordOp, toNat_wordDp, toNat_wordSrc]
  omega

/-! ## The opcode map -/

/-- The OP values of R81. -/
def listedOps : List Nat := [0x01, 0x02, 0x03, 0x04, 0x10, 0x11, 0x12, 0x13, 0x14, 0x15, 0x20, 0x21, 0x22, 0x23]

/-- What an OP value selects is a command, and its encoding is the word of that OP (R81). -/
theorem encode_of_opCommand {op : Byte} {dp src : Bool} {i : Instr} (h : opCommand op dp src = some i) :
    i.isCommand = true ∧ encode i = .command (commandWord op dp src) := by
  have hword : commandWord op dp src = commandWord (BitVec.ofNat 8 op.toNat) dp src := by simp
  unfold opCommand at h
  split at h
  case h_15 => cases h
  all_goals
    rename_i hop
    cases h
    rw [hword, hop]
    exact ⟨rfl, rfl⟩

/-- An OP value selects a command exactly when it is listed (R81, R83). -/
theorem opCommand_eq_none_iff {op : Byte} {dp src : Bool} : opCommand op dp src = none ↔ op.toNat ∉ listedOps := by
  unfold opCommand
  split <;> simp_all [listedOps]

/-- A command word decodes to what its OP selects (R80, R82). -/
theorem decode_commandWord {op : Byte} {dp src : Bool} {i : Instr} (h : opCommand op dp src = some i) :
    decode (.command (commandWord op dp src)) = .ok i := by
  simp only [decode, decodeCommand, wordReserved_commandWord, wordOp_commandWord, wordDp_commandWord, wordSrc_commandWord, h,
    ne_eq, not_true_eq_false, if_false]

/-- A command is decoded from its encoding. -/
theorem decode_encode_of_isCommand {i : Instr} (h : i.isCommand = true) : decode (encode i) = .ok i := by
  cases i
  case frameRhrReq | frameRhrRsp | frameWsrReq | frameWsrRsp | frameWmrReq | frameWmrRsp => cases h
  case frameExcRhr | frameExcWsr | frameExcWmr => cases h
  all_goals exact decode_commandWord rfl

/-- A word that decodes is the command word of its fields, and its OP selects the command (R80, R83). -/
theorem decode_command_eq_ok {w : Word} {i : Instr} (h : decode (.command w) = .ok i) :
    wordReserved w = 0 ∧ opCommand (wordOp w) (wordDp w) (wordSrc w) = some i := by
  simp only [decode, decodeCommand] at h
  split at h
  case isTrue => cases h
  case isFalse hreserved =>
    split at h
    case h_1 _ hop => cases h; exact ⟨not_not.mp hreserved, hop⟩
    case h_2 => cases h

/-- A word without reserved bits whose OP is listed decodes to a command (R81). -/
theorem exists_command_of_listed {w : Word} (hw : w.toNat < 1024) (hop : w.toNat % 256 ∈ listedOps) :
    ∃ i, decode (.command w) = .ok i ∧ i.isCommand = true := by
  have hsome : opCommand (wordOp w) (wordDp w) (wordSrc w) ≠ none := by
    rw [Ne, opCommand_eq_none_iff, toNat_wordOp]
    exact not_not.mpr hop
  obtain ⟨i, hi⟩ := Option.ne_none_iff_exists'.mp hsome
  have hdec := decode_commandWord hi
  rw [commandWord_of_fields ((wordReserved_eq_zero_iff w).mpr hw)] at hdec
  exact ⟨i, hdec, (encode_of_opCommand hi).1⟩

/-- A word that decodes has no reserved bit set and a listed OP (R83). -/
theorem listed_of_decode {w : Word} {i : Instr} (h : decode (.command w) = .ok i) :
    w.toNat < 1024 ∧ w.toNat % 256 ∈ listedOps := by
  obtain ⟨hreserved, hop⟩ := decode_command_eq_ok h
  refine ⟨(wordReserved_eq_zero_iff w).mp hreserved, ?_⟩
  by_contra hn
  rw [← toNat_wordOp, ← opCommand_eq_none_iff (dp := wordDp w) (src := wordSrc w), hop] at hn
  cases hn

/-- A CMD write of a word that decodes to nothing does the prologue and NotImplemented (R83). -/
theorem runCommand_of_not_decode {w : Word} (h : ∀ i, decode (.command w) ≠ .ok i) (s : State) :
    runCommand w s = .next (s.ended .notImplemented) := by
  unfold runCommand
  split
  case h_1 i hi => exact absurd hi (h i)
  case h_2 => exact finish_prologue _ s

/-! ## Wire frames that decode -/

/-- A request of 4 to 256 bytes is decoded by its function byte (R90, R101). -/
theorem decode_request {a f : Byte} {rest : List Byte} (h2 : 2 ≤ rest.length) (h254 : rest.length ≤ 254) :
    decode (.frame .request (a :: f :: rest)) = decodeRequest a f rest := by
  simp only [decode, decodeFrame, List.length_cons, Config.maxFrame, Config.minFrame]
  rw [if_neg (by omega), if_neg (by omega)]

/-- A response of 4 to 256 bytes is decoded by its function byte (R90, R101). -/
theorem decode_response {a f : Byte} {rest : List Byte} (h2 : 2 ≤ rest.length) (h254 : rest.length ≤ 254) :
    decode (.frame .response (a :: f :: rest)) = decodeResponse a f rest := by
  simp only [decode, decodeFrame, List.length_cons, Config.maxFrame, Config.minFrame]
  rw [if_neg (by omega), if_neg (by omega)]

/-- A frame that decodes has a station, a function byte and at most 254 bytes more, and is decoded by its function byte. -/
theorem decode_frame_eq_ok {d : Direction} {bytes : List Byte} {i : Instr} (h : decode (.frame d bytes) = .ok i) :
    ∃ (a f : Byte) (rest : List Byte), bytes = a :: f :: rest ∧ rest.length ≤ 254 ∧
      ((d = .request ∧ decodeRequest a f rest = .ok i) ∨ (d = .response ∧ decodeResponse a f rest = .ok i)) := by
  simp only [decode, decodeFrame] at h
  split at h
  case isTrue => cases h
  case isFalse hlong =>
    split at h
    case isTrue => cases h
    case isFalse =>
      split at h
      case h_2 => cases h
      case h_1 _ a f rest _ =>
        refine ⟨a, f, rest, rfl, by simp [Config.maxFrame] at hlong; omega, ?_⟩
        cases d
        case request => exact .inl ⟨rfl, h⟩
        case response => exact .inr ⟨rfl, h⟩

/-! ## The forms by their function byte -/

theorem asForm_eq_ok {o : Option Instr} {i : Instr} (h : asForm o = .ok i) : o = some i := by
  cases o <;> cases h
  rfl

/-- An 8-byte form was found in its two fields and its trailer. -/
theorem fields_of_splitPair {rest : List Byte} {g : Half × Half × Half → Instr} {i : Instr}
    (h : asForm ((splitPair rest).map g) = .ok i) :
    ∃ x y c : Half, rest = beBytes x ++ beBytes y ++ leBytes c ∧ g (x, y, c) = i := by
  obtain ⟨⟨x, y, c⟩, hrest, hi⟩ := Option.map_eq_some_iff.mp (asForm_eq_ok h)
  exact ⟨x, y, c, splitPair_eq_some hrest, hi⟩

/-- An exception response was found in its code and its trailer. -/
theorem fields_of_splitExc {rest : List Byte} {g : Byte × Half → Instr} {i : Instr}
    (h : asForm ((splitExc rest).map g) = .ok i) : ∃ (e : Byte) (c : Half), rest = e :: leBytes c ∧ g (e, c) = i := by
  obtain ⟨⟨e, c⟩, hrest, hi⟩ := Option.map_eq_some_iff.mp (asForm_eq_ok h)
  exact ⟨e, c, splitExc_eq_some hrest, hi⟩

/-- What a request decodes to is encoded as its bytes, and its fields fit when those fit a frame (R94, R96, R98). -/
theorem encode_of_decodeRequest {a f : Byte} {rest : List Byte} {i : Instr} (h : decodeRequest a f rest = .ok i)
    (hlen : rest.length ≤ 254) : encode i = .frame .request (a :: f :: rest) ∧ i.shaped = true := by
  unfold decodeRequest at h
  split at h
  case isTrue hf =>
    obtain ⟨s, n, c, rfl, rfl⟩ := fields_of_splitPair h
    exact ⟨by rw [hf]; rfl, rfl⟩
  split at h
  case isTrue hf =>
    obtain ⟨r, v, c, rfl, rfl⟩ := fields_of_splitPair h
    exact ⟨by rw [hf]; rfl, rfl⟩
  split at h
  case isFalse => cases h
  case isTrue hf =>
    split at h
    case h_2 => cases h
    case h_1 s1 s0 n1 n0 bc tail =>
      split at h
      case h_2 => cases h
      case h_1 vs c htail =>
        split at h
        case isFalse => cases h
        case isTrue hcount =>
          cases h
          obtain rfl := splitTail_eq_some htail
          refine ⟨by simp [encode, Instr.frameBytes, Instr.frameBody, Instr.trailer?, beBytes, hf], ?_⟩
          simp only [List.length_cons, List.length_append, length_wireRegs, length_leBytes] at hlen
          simp only [Instr.shaped, Config.maxFrame, Bool.and_eq_true, decide_eq_true_iff]
          omega

/-- What a response decodes to is encoded as its bytes, and its fields fit when those fit a frame (R95, R97, R99, R100). -/
theorem encode_of_decodeResponse {a f : Byte} {rest : List Byte} {i : Instr} (h : decodeResponse a f rest = .ok i)
    (hlen : rest.length ≤ 254) : encode i = .frame .response (a :: f :: rest) ∧ i.shaped = true := by
  unfold decodeResponse at h
  split at h
  case isTrue hf =>
    split at h
    case h_2 => cases h
    case h_1 bc tail =>
      obtain ⟨⟨vs, c⟩, htail, rfl⟩ := Option.map_eq_some_iff.mp (asForm_eq_ok h)
      obtain rfl := splitTail_eq_some htail
      refine ⟨by rw [hf]; rfl, ?_⟩
      simp only [List.length_cons, List.length_append, length_wireRegs, length_leBytes] at hlen
      simp only [Instr.shaped, Config.maxFrame, decide_eq_true_iff]
      omega
  split at h
  case isTrue hf =>
    obtain ⟨r, v, c, rfl, rfl⟩ := fields_of_splitPair h
    exact ⟨by rw [hf]; rfl, rfl⟩
  split at h
  case isTrue hf =>
    obtain ⟨s, n, c, rfl, rfl⟩ := fields_of_splitPair h
    exact ⟨by rw [hf]; rfl, rfl⟩
  split at h
  case isTrue hf =>
    obtain ⟨e, c, rfl, rfl⟩ := fields_of_splitExc h
    exact ⟨by rw [hf]; rfl, rfl⟩
  split at h
  case isTrue hf =>
    obtain ⟨e, c, rfl, rfl⟩ := fields_of_splitExc h
    exact ⟨by rw [hf]; rfl, rfl⟩
  split at h
  case isTrue hf =>
    obtain ⟨e, c, rfl, rfl⟩ := fields_of_splitExc h
    exact ⟨by rw [hf]; rfl, rfl⟩
  case isFalse => cases h

/-- The requests of a fixed length are read back from their fields (R94, R96). -/
theorem decodeRequest_pair (a : Byte) (x y c : Half) :
    decodeRequest a 0x03#8 (beBytes x ++ beBytes y ++ leBytes c) = .ok (.frameRhrReq a x y c) ∧
    decodeRequest a 0x06#8 (beBytes x ++ beBytes y ++ leBytes c) = .ok (.frameWsrReq a x y c) := by
  simp only [decodeRequest, splitPair_fields]
  exact ⟨rfl, rfl⟩

/-- A Write Multiple Registers request whose count is the number of its values is read back (R98, R102). -/
theorem decodeRequest_writeMultiple (a : Byte) {s n : Half} (bc : Byte) {vs : List Half} (c : Half) (h : vs.length = n.toNat) :
    decodeRequest a 0x10#8 (beBytes s ++ beBytes n ++ bc :: (wireRegs vs ++ leBytes c)) = .ok (.frameWmrReq a s n bc vs c) := by
  simp only [decodeRequest, beBytes, List.cons_append, List.nil_append, splitTail_fields, be16_hi8_lo8, if_pos h]
  rfl

/-- The responses of fixed length are read back from their fields (R97, R99). -/
theorem decodeResponse_pair (a : Byte) (x y c : Half) :
    decodeResponse a 0x06#8 (beBytes x ++ beBytes y ++ leBytes c) = .ok (.frameWsrRsp a x y c) ∧
    decodeResponse a 0x10#8 (beBytes x ++ beBytes y ++ leBytes c) = .ok (.frameWmrRsp a x y c) := by
  simp only [decodeResponse, splitPair_fields]
  exact ⟨rfl, rfl⟩

theorem decodeResponse_readHolding (a bc : Byte) (vs : List Half) (c : Half) :
    decodeResponse a 0x03#8 (bc :: (wireRegs vs ++ leBytes c)) = .ok (.frameRhrRsp a bc vs c) := by
  simp only [decodeResponse, splitTail_fields]
  rfl

/-- The exception responses are read back from their fields (R100). -/
theorem decodeResponse_exception (a e : Byte) (c : Half) :
    decodeResponse a 0x83#8 (e :: leBytes c) = .ok (.frameExcRhr a e c) ∧
    decodeResponse a 0x86#8 (e :: leBytes c) = .ok (.frameExcWsr a e c) ∧
    decodeResponse a 0x90#8 (e :: leBytes c) = .ok (.frameExcWmr a e c) := by
  simp only [decodeResponse, splitExc_fields]
  exact ⟨rfl, rfl, rfl⟩

/-- A wire-frame form whose fields fit is decoded from its encoding. -/
theorem decode_encode_of_frame {i : Instr} (hi : i.isCommand = false) (hs : i.shaped = true) : decode (encode i) = .ok i := by
  cases i
  case frameRhrReq a s n c => exact (decode_request (by simp) (by simp)).trans (decodeRequest_pair a s n c).1
  case frameWsrReq a r v c => exact (decode_request (by simp) (by simp)).trans (decodeRequest_pair a r v c).2
  case frameWmrReq a s n bc vs c =>
    simp only [Instr.shaped, Config.maxFrame, Bool.and_eq_true, decide_eq_true_iff] at hs
    obtain ⟨hcount, hlen⟩ := hs
    have hbytes : encode (.frameWmrReq a s n bc vs c) =
        .frame .request (a :: 0x10#8 :: (beBytes s ++ beBytes n ++ bc :: (wireRegs vs ++ leBytes c))) := rfl
    rw [hbytes, decode_request (by simp) (by simp; omega), decodeRequest_writeMultiple a bc c hcount]
  case frameRhrRsp a bc vs c =>
    simp only [Instr.shaped, Config.maxFrame, decide_eq_true_iff] at hs
    have hbytes : encode (.frameRhrRsp a bc vs c) = .frame .response (a :: 0x03#8 :: bc :: (wireRegs vs ++ leBytes c)) := rfl
    rw [hbytes, decode_response (by simp) (by simp; omega), decodeResponse_readHolding]
  case frameWsrRsp a r v c => exact (decode_response (by simp) (by simp)).trans (decodeResponse_pair a r v c).1
  case frameWmrRsp a s n c => exact (decode_response (by simp) (by simp)).trans (decodeResponse_pair a s n c).2
  case frameExcRhr a e c => exact (decode_response (by simp) (by simp)).trans (decodeResponse_exception a e c).1
  case frameExcWsr a e c => exact (decode_response (by simp) (by simp)).trans (decodeResponse_exception a e c).2.1
  case frameExcWmr a e c => exact (decode_response (by simp) (by simp)).trans (decodeResponse_exception a e c).2.2
  all_goals cases hi

/-! ## The statements about encoding -/

/-- Settles O4: commands by the fields of their words, wire-frame forms by their function byte. -/
theorem decodeEncodeAgree : Obligations.DecodeEncodeAgree := by
  intro i hs
  cases hi : i.isCommand with
  | true => exact decode_encode_of_isCommand hi
  | false => exact decode_encode_of_frame hi hs

/-- Settles O2: a word that decodes is the command word of its fields, and a command word decodes. -/
theorem commandWordsDecodeExactly : Obligations.CommandWordsDecodeExactly := by
  intro w i
  refine ⟨fun h => ?_, fun ⟨hi, hw⟩ => hw ▸ decode_encode_of_isCommand hi⟩
  obtain ⟨hreserved, hop⟩ := decode_command_eq_ok h
  rw [← commandWord_of_fields hreserved]
  exact encode_of_opCommand hop

/-- Settles O3: the words that decode are those below 1024 with a listed OP. -/
theorem otherWordsAreNotCommands : Obligations.OtherWordsAreNotCommands := by
  intro w s listed
  refine ⟨fun hother => ?_, exists_command_of_listed⟩
  refine (busWrite_offset .cmd w s).trans (runCommand_of_not_decode (fun i hi => ?_) s)
  obtain ⟨hlow, hop⟩ := listed_of_decode hi
  rcases hother with hhigh | hop'
  · omega
  · exact hop' hop

/-- Settles O5: request and response forms by their function byte, each read back as its bytes. -/
theorem frameBytesDecodeExactly : Obligations.FrameBytesDecodeExactly := by
  intro d bytes i h
  obtain ⟨a, f, rest, rfl, hlen, ⟨rfl, hdec⟩ | ⟨rfl, hdec⟩⟩ := decode_frame_eq_ok h
  · exact encode_of_decodeRequest hdec hlen
  · exact encode_of_decodeResponse hdec hlen

/-- Settles O1: each word's decoding is computed. -/
theorem listedWordsDecode : Obligations.ListedWordsDecode := by
  unfold Obligations.ListedWordsDecode
  decide

end Sys2Proof.Machine
end

section
/-! PROOFS. Arriving frames and the master's answers (R94 to R101, R205 to R215): what the arrival of a wire-frame form leaves in
FRAME, and that the RSP_* commands accept a received answer and report a received exception. -/

namespace Sys2Proof.Machine

variable {s t u : State}

/-! ## Arrival of a wire-frame form -/

/-- A wire-frame form whose fields fit is at most 256 bytes long (R90). -/
theorem length_frameBytes_le {i : Instr} (hi : i.isCommand = false) (hs : i.shaped = true) : i.frameBytes.length ≤ 256 := by
  cases i
  case frameRhrReq => exact (Laws.EncodedSize.frameRhrReq _ _ _ _ hs).2
  case frameRhrRsp => exact (Laws.EncodedSize.frameRhrRsp _ _ _ _ hs).2
  case frameWsrReq => exact (Laws.EncodedSize.frameWsrReq _ _ _ _ hs).2
  case frameWsrRsp => exact (Laws.EncodedSize.frameWsrRsp _ _ _ _ hs).2
  case frameWmrReq => exact (Laws.EncodedSize.frameWmrReq _ _ _ _ _ _ hs).2
  case frameWmrRsp => exact (Laws.EncodedSize.frameWmrRsp _ _ _ _ hs).2
  case frameExcRhr => exact (Laws.EncodedSize.frameExcRhr _ _ _ hs).2
  case frameExcWsr => exact (Laws.EncodedSize.frameExcWsr _ _ _ hs).2
  case frameExcWmr => exact (Laws.EncodedSize.frameExcWmr _ _ _ hs).2
  all_goals cases hi

/-- A form whose fields fit arrives as its bytes in FRAME, and nothing else changes (R110; log 4). -/
theorem exec_frame_stored {i : Instr} (hi : i.isCommand = false) (hs : i.shaped = true) (s : State) :
    ∃ m, exec i s = .next { s with mem := m } ∧ Stored s.mem m 0x100 i.frameBytes :=
  ⟨_, exec_of_frame hi s, stored_fillFrame ((length_frameBytes_le hi hs).trans (by decide)) s⟩

/-- A form is well formed when its fields fit, its counts agree, and its station and its CRC are right. -/
theorem wellFormed_iff (i : Instr) : i.wellFormed = true ↔
    i.shaped = true ∧ i.countsAgree = true ∧ i.stationValid = true ∧ i.crcValid = true := by
  simp only [Instr.wellFormed, Bool.and_eq_true, and_assoc]

/-- The bytes of a form with a right CRC are `Frame` of its fields (R126). -/
theorem frameBytes_of_crcValid {i : Instr} {a f : Byte} {p : List Byte} (hc : i.crcValid = true)
    (hbody : i.frameBody = a :: f :: p) : i.frameBytes = wireFrame a f p := by
  unfold Instr.crcValid at hc
  unfold Instr.frameBytes
  cases htrailer : i.trailer? with
  | some c =>
    rw [htrailer] at hc
    have hcrc : crc16 i.frameBody = c := by simpa using hc
    rw [wireFrame_eq, ← hbody, hcrc]
  | none =>
    exfalso
    cases i <;> cases htrailer <;> cases hbody

/-- After the arrival of a well-formed form, `Frame` of its fields stands in FRAME. -/
theorem holds_of_arrival {i : Instr} {a f : Byte} {p : List Byte} (hi : i.isCommand = false) (hw : i.wellFormed = true)
    (hbody : i.frameBody = a :: f :: p) : (fillFrame i.frameBytes s).Holds .frame 0 (wireFrame a f p) := by
  obtain ⟨hs, -, -, hc⟩ := (wellFormed_iff i).mp hw
  have hlen := length_frameBytes_le hi hs
  rw [← frameBytes_of_crcValid hc hbody]
  exact holds_of_stored (stored_fillFrame (hlen.trans (by decide)) s) (by omega)

/-- A well-formed form that arrives from the station ADDR, its length in LEN, is received (R127). -/
theorem received_of_arrival {i : Instr} {f : Byte} {p : List Byte} (hi : i.isCommand = false) (hw : i.wellFormed = true)
    (hbody : i.frameBody = s.addr :: f :: p) (hlen : s.len.toNat = p.length + 4) (h : exec i s = .next t) :
    t.regAddr = s.regAddr ∧ t.count = s.count ∧ t.value = s.value ∧ t.Received f p := by
  have hheld := holds_of_arrival (s := s) hi hw hbody
  rw [exec_of_frame hi] at h
  cases h
  have := holds_bound hheld (by simp [wireFrame])
  exact ⟨rfl, rfl, rfl, hlen.symm, by simp at this ⊢; omega, hheld⟩

/-! ## What the RSP_* commands do with a received frame -/

/-- What the PARSE family leaves after an exception response with this code (R129). -/
def State.reportedException (s : State) (e : Byte) : State :=
  { s.endedParse .exception with
    status := { s.status with code := .exception, isExc := true, excp := true }
    exc := e }

/-- The family's common path reports a received exception response with its code. -/
theorem parsePath_exception {ef e : Byte} {p : List Byte} (k : List Byte → Result State)
    (hr : s.Received (ef ||| 0x80#8) (e :: p)) :
    parsePath s ef k = .next (s.reportedException e) := by
  obtain ⟨-, -, -, hexc, -⟩ := parsePath_ends s ef k
  exact hexc _ hr

/-- A command goes on with an admitted count. -/
theorem if_countWithin {limit : Nat} (h1 : 1 ≤ s.count.toNat) (hmax : s.count.toNat ≤ limit) (x y : Result State) :
    (if countWithin limit s = false then x else y) = y :=
  if_neg (by simp [countWithin_false_iff]; omega)

/-- RSP_RHR stores the values of a received response that answers COUNT (R205). -/
theorem execRspRhr_of_received {bc : Byte} {vs : List Half} (h1 : 1 ≤ s.count.toNat) (h125 : s.count.toNat ≤ 125)
    (hcount : s.count.toNat = vs.length) (hbc : bc.toNat = 2 * vs.length) (hr : s.Received 0x03#8 (bc :: wireRegs vs)) :
    execRspRhr s = .next { s.endedParse .success with
      olen := BitVec.ofNat 9 (2 * s.count.toNat), mem := Memory.writeAll s.mem 0x200 (viewRegs vs) } := by
  rw [execRspRhr_eq, if_countWithin h1 h125, parsePath_payload _ (by decide) hr, if_neg (by simp [hcount]; omega),
    if_neg (by simp [hcount, hbc]), List.drop_one, List.tail_cons, beValues_wireRegs]
  rfl

/-- RSP_WSR compares a received payload with the sent address and value (R210). -/
theorem execRspWsr_of_received {p : List Byte} (hr : s.Received 0x06#8 p) :
    execRspWsr s = .next (s.endedParse (if p = beBytes s.regAddr ++ beBytes s.value then .success else .invalidResponse)) := by
  rw [execRspWsr_eq, parsePath_payload _ (by decide) hr]
  simp only [ne_eq, ite_not]
  split <;> rfl

/-- RSP_WMR with an admitted count compares a received payload with the sent address and count (R215). -/
theorem execRspWmr_of_received {p : List Byte} (h1 : 1 ≤ s.count.toNat) (h123 : s.count.toNat ≤ 123) (hr : s.Received 0x10#8 p) :
    execRspWmr s = .next (s.endedParse (if p = beBytes s.regAddr ++ beBytes s.count then .success else .invalidResponse)) := by
  rw [execRspWmr_eq, if_countWithin h1 h123, parsePath_payload _ (by decide) hr]
  simp only [ne_eq, ite_not]
  split <;> rfl

/-- RSP_RHR with an admitted count reports a received exception response (R205). -/
theorem execRspRhr_of_exception {e : Byte} {p : List Byte} (h1 : 1 ≤ s.count.toNat) (h125 : s.count.toNat ≤ 125)
    (hr : s.Received 0x83#8 (e :: p)) : execRspRhr s = .next (s.reportedException e) := by
  rw [execRspRhr_eq, if_countWithin h1 h125]
  exact parsePath_exception _ hr

/-- RSP_WMR with an admitted count reports a received exception response (R215). -/
theorem execRspWmr_of_exception {e : Byte} {p : List Byte} (h1 : 1 ≤ s.count.toNat) (h123 : s.count.toNat ≤ 123)
    (hr : s.Received 0x90#8 (e :: p)) : execRspWmr s = .next (s.reportedException e) := by
  rw [execRspWmr_eq, if_countWithin h1 h123]
  exact parsePath_exception _ hr

/-! ## What a builder left -/

/-- A frame that a builder stored stands in FRAME (R130). -/
theorem holds_built (s : State) (f : Byte) {p : List Byte} (rl : Len) (hp : p.length + 4 ≤ 256) :
    (s.built f p rl).Holds .frame 0 (wireFrame s.addr f p) :=
  holds_of_stored (s := s) (Memory.stored_writeAll _ _ _) (by simpa using hp)

/-- Blocks with the same bytes in a buffer hold the same there. -/
theorem holds_of_same_bytes {b : Buffer} {i : Nat} {bs : List Byte} (hsame : ∀ i, u.byteAt b i = t.byteAt b i)
    (h : t.Holds b i bs) : u.Holds b i bs := fun k hk => (hsame _).trans (h k hk)

/-! ## The statements about arriving frames -/

/-- Settles O55: each request form arrives as its bytes. -/
theorem requestFormsArrive : Obligations.RequestFormsArrive := fun s _ _ _ _ _ _ =>
  ⟨exec_frame_stored rfl rfl s, exec_frame_stored rfl rfl s, fun hs => exec_frame_stored rfl hs s⟩

/-- Settles O56: each response form arrives as its bytes. -/
theorem responseFormsArrive : Obligations.ResponseFormsArrive := fun s _ _ _ _ _ _ _ =>
  ⟨fun hs => exec_frame_stored rfl hs s, exec_frame_stored rfl rfl s, exec_frame_stored rfl rfl s, exec_frame_stored rfl rfl s,
    exec_frame_stored rfl rfl s, exec_frame_stored rfl rfl s⟩

/-- Settles O37: the frame REQ_WSR left is a received response, and its payload is compared with the operands. -/
theorem echoOfTheRequestIsAccepted : Obligations.EchoOfTheRequestIsAccepted := by
  intro dp src dp' src' s t u h hcode hlen haddr hreg hsame
  rcases execReqWsr_next h with rfl | ⟨-, rfl⟩
  case inl => cases hcode
  have hheld : u.Holds .frame 0 (wireFrame u.addr 0x06#8 (beBytes s.regAddr ++ beBytes s.value)) :=
    holds_of_same_bytes hsame (haddr ▸ holds_built s 0x06#8 8 (by simp))
  have hlen8 : u.len.toNat = 8 := by rw [hlen]; rfl
  have hr : u.Received 0x06#8 (beBytes s.regAddr ++ beBytes s.value) := ⟨by simp [hlen8], by omega, hheld⟩
  have hecho : beBytes s.regAddr ++ beBytes s.value = beBytes u.regAddr ++ beBytes u.value ↔ u.value = s.value := by
    rw [hreg, List.append_cancel_left_eq]
    exact ⟨fun he => (beBytes_injective he).symm, fun he => he ▸ rfl⟩
  refine (execRspWsr_of_received hr).trans ?_
  simp only [hecho]

/-- Settles O58: a form that arrived is received, and the RSP_* commands do their part with a received frame. -/
theorem arrivedResponseIsAccepted : Obligations.ArrivedResponseIsAccepted := by
  rintro s t a bc e x y c vs dp src rfl
  refine ⟨fun hw hcount hlen h => ?_, ?_, ?_, ?_, ?_, ?_⟩
  · obtain ⟨-, hcounts, -, -⟩ := (wellFormed_iff _).mp hw
    simp only [Instr.countsAgree, Bool.and_eq_true, decide_eq_true_iff, Config.maxReadCount] at hcounts
    obtain ⟨⟨h1, h125⟩, hbc⟩ := hcounts
    obtain ⟨-, hc, -, hr⟩ := received_of_arrival rfl hw rfl (by simp; omega) h
    have hcount' : t.count.toNat = vs.length := hc ▸ hcount
    refine ⟨_, execRspRhr_of_received (by omega) (by omega) hcount' hbc hr, rfl, ?_⟩
    exact holds_of_stored (s := t) (Memory.stored_writeAll _ _ _) (by simp; omega)
  · rintro hw rfl rfl hlen h
    obtain ⟨hreg, -, hv, hr⟩ := received_of_arrival rfl hw rfl hlen h
    exact ⟨_, execRspWsr_of_received hr, by rw [hreg, hv]; exact if_pos rfl⟩
  · rintro hw rfl rfl hlen h
    obtain ⟨-, hcounts, -, -⟩ := (wellFormed_iff _).mp hw
    simp only [Instr.countsAgree, Bool.and_eq_true, decide_eq_true_iff, Config.maxWriteCount] at hcounts
    obtain ⟨h1, h123⟩ := hcounts
    obtain ⟨hreg, hc, -, hr⟩ := received_of_arrival rfl hw rfl hlen h
    exact ⟨_, execRspWmr_of_received (hc ▸ h1) (hc ▸ h123) hr, by rw [hreg, hc]; exact if_pos rfl⟩
  · intro hw h1 h125 hlen h
    obtain ⟨-, hc, -, hr⟩ := received_of_arrival rfl hw rfl hlen h
    exact ⟨_, execRspRhr_of_exception (hc ▸ h1) (hc ▸ h125) hr, rfl, rfl, rfl⟩
  · intro hw hlen h
    obtain ⟨-, -, -, hr⟩ := received_of_arrival rfl hw rfl hlen h
    exact ⟨_, parsePath_exception _ hr, rfl, rfl, rfl⟩
  · intro hw h1 h123 hlen h
    obtain ⟨-, hc, -, hr⟩ := received_of_arrival rfl hw rfl hlen h
    exact ⟨_, execRspWmr_of_exception (hc ▸ h1) (hc ▸ h123) hr, rfl, rfl, rfl⟩

end Sys2Proof.Machine
end

section
/-! PROOFS. The slave's cycle on a request held in FRAME (R233, R236, R240): what S_HDR, S_CNT and S_BODY answer on the bound station's
own frame, and the whole cycle for each of the three functions. -/

namespace Sys2Proof.Machine

variable {s : State}

/-! ## The parts of a held frame -/

/-- A held frame's station, function and payload stand at their places (R90). -/
theorem parts_of_held_frame {b : Buffer} {a f : Byte} {p : List Byte} (h : s.Holds b 0 (wireFrame a f p)) :
    s.byteAt b 0 = some a ∧ s.byteAt b 1 = some f ∧ s.Holds b 2 p := by
  obtain ⟨hbody, -⟩ := holds_append.mp h
  obtain ⟨ha, hbody⟩ := holds_cons.mp hbody
  obtain ⟨hf, hp⟩ := holds_cons.mp hbody
  exact ⟨ha, hf, hp⟩

/-! ## The commands on the bound station's frame -/

/-- The block in a cycle that awaits the body of a frame of `need` bytes (R233, R236). -/
def State.awaitingBody (s : State) (f : Byte) (need : Len) : State :=
  { s.endedIn .success .awaitBody with sfunc := f, need := need }

/-- The block in a cycle that awaits the count of a Write Multiple Registers request (R233). -/
def State.awaitingCount (s : State) : State :=
  { s.endedIn .success .awaitCount with sfunc := 0x10#8, need := 6 }

/-- S_HDR on the bound station's frame of a fixed length (R233). -/
theorem execSHdr_fixed {f : Byte} {p : List Byte} (hinit : s.status.init = true) (hf : f = 0x03#8 ∨ f = 0x06#8)
    (hh : s.Holds .frame 0 (wireFrame s.localAddr f p)) :
    execSHdr s = .next (s.awaitingBody f 8) := by
  obtain ⟨ha, hfunc, -⟩ := parts_of_held_frame hh
  simp only [execSHdr, prologue_status, StatusReg.cleared, hinit, reduceCtorEq, if_false]
  rw [readByte_congr (s := s) (by rfl), readByte_of_byteAt ha, andThen_next, if_neg (by simp [State.setPhase]),
    readByte_congr (s := s) (by rfl), readByte_of_byteAt hfunc, andThen_next, if_pos (by exact hf)]
  rfl

/-- S_HDR on the bound station's Write Multiple Registers request (R233). -/
theorem execSHdr_writeMultiple {p : List Byte} (hinit : s.status.init = true)
    (hh : s.Holds .frame 0 (wireFrame s.localAddr 0x10#8 p)) :
    execSHdr s = .next s.awaitingCount := by
  obtain ⟨ha, hfunc, -⟩ := parts_of_held_frame hh
  simp only [execSHdr, prologue_status, StatusReg.cleared, hinit, reduceCtorEq, if_false]
  rw [readByte_congr (s := s) (by rfl), readByte_of_byteAt ha, andThen_next, if_neg (by simp [State.setPhase]),
    readByte_congr (s := s) (by rfl), readByte_of_byteAt hfunc, andThen_next, if_neg (by decide), if_pos rfl]
  rfl

/-- S_CNT on an admitted count (R236). -/
theorem execSCnt_of_holds {n : Half} (hinit : s.status.init = true) (hphase : s.status.sphase = .awaitCount)
    (hn : s.Holds .frame 4 (beBytes n)) (h123 : n.toNat ≤ 123) :
    execSCnt s = .next { s.endedIn .success .awaitBody with need := BitVec.ofNat 9 (9 + 2 * n.toNat) } := by
  simp only [execSCnt, prologue_status, StatusReg.cleared, hinit, hphase, reduceCtorEq, ne_eq, not_true_eq_false, if_false]
  rw [readField_congr (s := s) (by rfl), (readField_eq_next (by omega)).mpr hn, andThen_next,
    if_neg (by simp [Config.maxWriteCount]; omega)]
  rfl

/-- After S_HDR, S_CNT on an admitted count awaits the body (R236). -/
theorem execSCnt_awaitingCount {n : Half} (hinit : s.status.init = true) (hn : s.Holds .frame 4 (beBytes n)) (h123 : n.toNat ≤ 123) :
    execSCnt s.awaitingCount = .next (s.awaitingBody 0x10#8 (BitVec.ofNat 9 (9 + 2 * n.toNat))) :=
  execSCnt_of_holds (s := s.awaitingCount) hinit rfl hn h123

/-- S_BODY on a held frame with a right CRC decodes it (R240). -/
theorem execSBody_awaitingBody {a f : Byte} {p : List Byte} {need : Len} (hinit : s.status.init = true)
    (hneed : need.toNat = p.length + 4) (hh : s.Holds .frame 0 (wireFrame a f p)) :
    execSBody (s.awaitingBody f need) = decodeRequestBody ((s.awaitingBody f need).prologue.setPhase .idle) := by
  rw [execSBody_of_holds (s := s.awaitingBody f need) (body := a :: f :: p) hinit rfl (by simp [State.awaitingBody, hneed]) hh,
    if_neg (not_not.mpr rfl)]

/-! ## The cycle -/

/-- The slave's cycle for a request of a fixed length: S_HDR, S_BODY. -/
def shortCycle (dp src : Bool) (s : State) : Result State :=
  andThen (exec (.sHdr dp src) s) (exec (.sBody dp src))

/-- The slave's cycle for a Write Multiple Registers request: S_HDR, S_CNT, S_BODY. -/
def longCycle (dp src : Bool) (s : State) : Result State :=
  andThen (exec (.sHdr dp src) s) fun s => andThen (exec (.sCnt dp src) s) (exec (.sBody dp src))

theorem andThen_of_eq_next {α β : Type} {r : Result α} {a : α} (h : r = .next a) (k : α → Result β) : andThen r k = k a := by
  rw [h, andThen_next]

/-- The cycle on the bound station's read request (R94, R240). -/
theorem shortCycle_readHolding {x y : Half} (dp src : Bool) (hinit : s.status.init = true)
    (hh : s.Holds .frame 0 (wireFrame s.localAddr 0x03#8 (beBytes x ++ beBytes y))) :
    shortCycle dp src s = .next { s.endedIn .success .idle with
      sfunc := 0x03#8, need := 8, regAddr := x, count := y, value := 0, bcount := 0 } := by
  obtain ⟨-, -, hfields⟩ := parts_of_held_frame hh
  refine (andThen_of_eq_next (execSHdr_fixed hinit (.inl rfl) hh) _).trans ?_
  refine (execSBody_awaitingBody hinit (by simp) hh).trans ?_
  exact (decodeRequestBody_of_holds (s := (s.awaitingBody 0x03#8 8).prologue.setPhase .idle) hfields).1 rfl

/-- The cycle on the bound station's single-write request (R96, R240). -/
theorem shortCycle_writeSingle {x y : Half} (dp src : Bool) (hinit : s.status.init = true)
    (hh : s.Holds .frame 0 (wireFrame s.localAddr 0x06#8 (beBytes x ++ beBytes y))) :
    shortCycle dp src s = .next { s.endedIn .success .idle with
      sfunc := 0x06#8, need := 8, regAddr := x, value := y, count := 0, bcount := 0 } := by
  obtain ⟨-, -, hfields⟩ := parts_of_held_frame hh
  refine (andThen_of_eq_next (execSHdr_fixed hinit (.inr rfl) hh) _).trans ?_
  refine (execSBody_awaitingBody hinit (by simp) hh).trans ?_
  exact (decodeRequestBody_of_holds (s := (s.awaitingBody 0x06#8 8).prologue.setPhase .idle) hfields).2.1 rfl

/-- The cycle on the bound station's Write Multiple Registers request of an admitted count (R98, R236, R240). -/
theorem longCycle_writeMultiple {x n : Half} {bc : Byte} {vs : List Half} (dp src : Bool) (hinit : s.status.init = true)
    (hcount : vs.length = n.toNat) (h123 : n.toNat ≤ 123)
    (hh : s.Holds .frame 0 (wireFrame s.localAddr 0x10#8 (beBytes x ++ beBytes n ++ [bc] ++ wireRegs vs))) :
    longCycle dp src s = .next { s.endedIn .success .idle with
      sfunc := 0x10#8, need := BitVec.ofNat 9 (9 + 2 * n.toNat), regAddr := x, count := n, value := 0, bcount := bc,
      olen := BitVec.ofNat 9 (2 * n.toNat), mem := Memory.writeAll s.mem 0x200 (viewRegs vs) } := by
  obtain ⟨-, -, hp⟩ := parts_of_held_frame hh
  obtain ⟨hfields, hvalues⟩ := holds_append.mp hp
  obtain ⟨hfields, hbc⟩ := holds_append.mp hfields
  obtain ⟨-, hn⟩ := holds_append.mp hfields
  obtain ⟨hbc, -⟩ := holds_cons.mp hbc
  refine (andThen_of_eq_next (execSHdr_writeMultiple hinit hh) _).trans ?_
  refine (andThen_of_eq_next (execSCnt_awaitingCount hinit hn h123) _).trans ?_
  refine (execSBody_awaitingBody hinit ?_ hh).trans ?_
  · simp
    omega
  obtain ⟨-, -, hdecode⟩ := decodeRequestBody_of_holds
    (s := (s.awaitingBody 0x10#8 (BitVec.ofNat 9 (9 + 2 * n.toNat))).prologue.setPhase .idle) hfields
  exact (hdecode rfl).2 bc vs (by omega) hbc (finds_of_holds hvalues)

/-! ## The statements about the cycle -/

/-- Settles O57: a well-formed request that arrived is held in FRAME, and the cycle decodes a held request. -/
theorem arrivedRequestIsDecoded : Obligations.ArrivedRequestIsDecoded := by
  rintro s a bc x y c vs dp src hinit rfl
  refine ⟨fun hw => ?_, fun hw => ?_, fun hw => ?_⟩
  · refine ⟨_, (andThen_of_eq_next (exec_of_frame rfl s) (shortCycle dp src)).trans
      (shortCycle_readHolding dp src hinit (holds_of_arrival rfl hw rfl)), ?_⟩
    exact ⟨rfl, rfl, rfl, rfl, rfl, rfl, rfl⟩
  · refine ⟨_, (andThen_of_eq_next (exec_of_frame rfl s) (shortCycle dp src)).trans
      (shortCycle_writeSingle dp src hinit (holds_of_arrival rfl hw rfl)), ?_⟩
    exact ⟨rfl, rfl, rfl, rfl, rfl, rfl, rfl⟩
  · obtain ⟨hs, hcounts, -, -⟩ := (wellFormed_iff _).mp hw
    simp only [Instr.shaped, Bool.and_eq_true, decide_eq_true_iff] at hs
    simp only [Instr.countsAgree, Bool.and_eq_true, decide_eq_true_iff, Config.maxWriteCount] at hcounts
    obtain ⟨hcount, -⟩ := hs
    obtain ⟨⟨-, h123⟩, -⟩ := hcounts
    have hlen : (viewRegs vs).length ≤ 256 := by rw [length_viewRegs]; omega
    refine ⟨_, (andThen_of_eq_next (exec_of_frame rfl s) (longCycle dp src)).trans
      (longCycle_writeMultiple dp src hinit hcount h123 (holds_of_arrival rfl hw rfl)), ?_⟩
    refine ⟨rfl, rfl, rfl, rfl, rfl, rfl, rfl, ?_, ?_⟩
    · exact Nat.mod_eq_of_lt (by omega)
    · exact holds_of_stored (s := fillFrame (Instr.frameWmrReq s.localAddr x y bc vs c).frameBytes s)
        (Memory.stored_writeAll _ _ _) (by omega)

/-- Settles O59: the frame REQ_WMR left is held by the other block, whose cycle decodes it. -/
theorem builtWriteReachesTheSlave : Obligations.BuiltWriteReachesTheSlave := by
  intro dp src dp' src' s t u vs h hcode hcount hvals hinit haddr hsame
  rcases execReqWmr_next h with ⟨c, hc, rfl⟩ | ⟨vs', -, h1, h123, hcount', hvals', rfl⟩
  case inl =>
    obtain rfl : c = .success := hcode
    simp at hc
  have hview : viewRegs vs' = viewRegs vs := holds_unique hvals' hvals (by simp [hcount, hcount'])
  obtain rfl : vs' = vs := by rw [← leValues_viewRegs vs', hview, leValues_viewRegs]
  have hheld : u.Holds .frame 0 (wireFrame u.localAddr 0x10#8 (writeMultiplePayload s.regAddr s.count vs')) :=
    holds_of_same_bytes hsame (haddr ▸ holds_built s 0x10#8 8 (by simp [writeMultiplePayload]; omega))
  refine ⟨_, longCycle_writeMultiple dp' src' hinit hcount' h123 hheld, rfl, rfl, rfl, rfl, ?_, ?_, ?_⟩
  · exact Nat.mod_eq_of_lt (by omega)
  · exact Nat.mod_eq_of_lt (by omega)
  · exact holds_of_stored (s := u) (Memory.stored_writeAll _ _ _) (by simp; omega)

end Sys2Proof.Machine
end

section
/-! PROOFS. The output length: no step but an S_BODY with a rewritten count leaves OLEN above 256 (R90, R240, R311; log 8). -/

namespace Sys2Proof.Machine

variable {s t : State}

/-- A length of at most 256 is its own OLEN value (R20). -/
theorem toNat_olen_le {n : Nat} (h : n ≤ 256) : (BitVec.ofNat 9 n).toNat ≤ 256 := by
  rw [BitVec.toNat_ofNat]
  omega

/-- A builder's OLEN is the length of its frame (R130). -/
theorem olen_built_le (s : State) (f : Byte) {p : List Byte} (rl : Len) (hp : p.length + 4 ≤ 256) :
    (s.built f p rl).olen.toNat ≤ 256 := toNat_olen_le hp

theorem olen_le_of_parseFails (h : ParseFails s t) : t.olen.toNat ≤ 256 := by
  rcases h with ⟨c, -, rfl⟩ | ⟨ec, rfl⟩ <;> exact Nat.zero_le _

/-- S_BODY has found a count above 128 in F[4..6), and OLEN is the low 9 bits of twice that count (R240, R311; log 8). -/
def OverlongCount (s t : State) : Prop :=
  ∃ n : Half, s.status.sphase = .awaitBody ∧ s.sfunc = 0x10#8 ∧ s.Holds .frame 4 (beBytes n) ∧ 128 < n.toNat ∧
    t.olen.toNat = 2 * n.toNat % 512

/-- OLEN after S_BODY (R240). -/
theorem execSBody_olen (h : execSBody s = .next t) : t.olen.toNat ≤ 256 ∨ OverlongCount s t := by
  rcases execSBody_next h with ⟨-, rfl⟩ | ⟨-, rfl⟩ |
    ⟨-, hphase, rfl | ⟨_, -, ⟨-, _, -, rfl⟩ | ⟨-, _, -, rfl⟩ | ⟨hf, n, bc, vs, hn, -, rfl⟩ | ⟨-, rfl⟩⟩⟩
  case inr.inr.inr.inr.inr.inl =>
    by_cases h128 : n.toNat ≤ 128
    · exact .inl (toNat_olen_le (by omega))
    · exact .inr ⟨n, hphase, hf, hn, by omega, BitVec.toNat_ofNat _ _⟩
  all_goals exact .inl (Nat.zero_le _)

/-- OLEN after a command: within a buffer, or after S_BODY with an overlong count. -/
theorem exec_olen {i : Instr} (hs : s.olen.toNat ≤ 256) (h : exec i s = .next t) :
    t.olen.toNat ≤ 256 ∨ (∃ dp src, i = .sBody dp src) ∧ OverlongCount s t := by
  cases i
  case sBody dp src => exact (execSBody_olen h).imp_right (.intro ⟨dp, src, rfl⟩)
  all_goals left
  case crc16 => rcases execCrc16_next h with ⟨-, rfl⟩ | ⟨-, rfl⟩ | ⟨_, -, -, rfl⟩ <;> exact Nat.zero_le _
  case build =>
    rcases execBuild_next h with ⟨_, -, rfl⟩ | ⟨p, -, hcap, hp, -, rfl⟩
    · exact Nat.zero_le _
    · exact olen_built_le s _ _ (hp ▸ hcap.trans (Nat.min_le_right _ _))
  case buildExc =>
    rcases execBuildExc_next h with rfl | ⟨-, rfl⟩
    · exact Nat.zero_le _
    · exact olen_built_le s _ _ (by simp)
  case reqRhr =>
    rcases execReqRhr_next h with ⟨_, -, rfl⟩ | ⟨-, -, -, rfl⟩
    · exact Nat.zero_le _
    · exact olen_built_le s _ _ (by simp)
  case reqWsr =>
    rcases execReqWsr_next h with rfl | ⟨-, rfl⟩
    · exact Nat.zero_le _
    · exact olen_built_le s _ _ (by simp)
  case reqWmr =>
    rcases execReqWmr_next h with ⟨_, -, rfl⟩ | ⟨vs, -, -, h123, hl, -, rfl⟩
    · exact Nat.zero_le _
    · exact olen_built_le s _ _ (by simp [writeMultiplePayload]; omega)
  case parse =>
    rcases execParse_next h with hfail | ⟨p, -, hcap, rfl⟩
    · exact olen_le_of_parseFails hfail
    · exact toNat_olen_le (hcap.trans (Nat.min_le_right _ _))
  case rspRhr =>
    rcases execRspRhr_next h with hfail | ⟨_, _, h125, -, -, rfl⟩
    · exact olen_le_of_parseFails hfail
    · exact toNat_olen_le (by omega)
  case rspWsr =>
    rcases execRspWsr_next h with hfail | ⟨-, rfl⟩
    · exact olen_le_of_parseFails hfail
    · exact Nat.zero_le _
  case rspWmr =>
    rcases execRspWmr_next h with hfail | ⟨-, rfl⟩
    · exact olen_le_of_parseFails hfail
    · exact Nat.zero_le _
  case sInit => rcases execSInit_next h with ⟨-, rfl⟩ | ⟨-, rfl⟩ <;> exact Nat.zero_le _
  case sHdr =>
    rcases execSHdr_next h with ⟨-, rfl⟩ | ⟨-, _, -, -, rfl⟩ | ⟨-, -, _, -, ⟨-, rfl⟩ | ⟨-, rfl⟩ | ⟨-, rfl⟩⟩ <;>
      exact Nat.zero_le _
  case sCnt =>
    rcases execSCnt_next h with ⟨-, rfl⟩ | ⟨-, rfl⟩ | ⟨-, -, _, -, ⟨-, rfl⟩ | ⟨-, rfl⟩⟩ <;> exact Nat.zero_le _
  all_goals
    rw [exec_of_frame rfl] at h
    cases h
    exact hs

/-- A write of a register other than CMD keeps OLEN (R25). -/
theorem writeReg_olen {r : Reg} {v : Word} (hr : r ≠ .cmd) (h : writeReg r v s = .next t) : t.olen = s.olen := by
  obtain ⟨-, holen, -⟩ := writeReg_keepsResults hr h
  exact holen

/-- OLEN after a host write: within a buffer, or the write ran S_BODY with an overlong count. -/
theorem busWrite_olen {off : Nat} {n : Width} {v : Word} (hs : s.olen.toNat ≤ 256) (h : busWrite off n v s = .next t) :
    t.olen.toNat ≤ 256 ∨
      (off = 0 ∧ n = .word ∧ ∃ dp src, decode (.command v) = .ok (.sBody dp src)) ∧ OverlongCount s t := by
  rcases busWrite_next h with ⟨hoff, hn, h⟩ | ⟨r, hr, -, -, h⟩ | ⟨b, i, -, -, rfl⟩ | rfl
  · rcases runCommand_next h with ⟨i, hi, h⟩ | rfl
    · rcases exec_olen hs h with hle | ⟨⟨dp, src, rfl⟩, hover⟩
      · exact .inl hle
      · exact .inr ⟨⟨hoff, hn, dp, src, hi⟩, hover⟩
    · exact .inl (Nat.zero_le _)
  · exact .inl (writeReg_olen hr h ▸ hs)
  · exact .inl hs
  · exact .inl hs

/-- The arrival of bytes leaves OLEN within a buffer. -/
theorem receiveFrame_olen {d : Direction} {bytes : List Byte} (hs : s.olen.toNat ≤ 256) (h : receiveFrame d bytes s = .next t) :
    t.olen.toNat ≤ 256 := by
  unfold receiveFrame at h
  split at h
  case h_1 i hi =>
    rw [exec_of_frame (isCommand_of_decode_frame hi)] at h
    cases h
    exact hs
  case h_2 => cases h; exact hs

/-- OLEN after a host action: within a buffer, or the action wrote CMD and ran S_BODY with an overlong count. -/
theorem perform_olen {a : HostAction} (hs : s.olen.toNat ≤ 256) (h : perform a s = .next t) :
    t.olen.toNat ≤ 256 ∨
      (∃ w dp src, a = .write (0x400 * s.baseSlot) .word w ∧ decode (.command w) = .ok (.sBody dp src)) ∧ OverlongCount s t := by
  cases a with
  | reset => cases h; exact .inl (Nat.zero_le _)
  | frame d bytes => exact .inl (receiveFrame_olen hs h)
  | read addr n =>
    obtain ⟨vs, rfl⟩ := perform_read_next h
    exact .inl hs
  | write addr n v =>
    cases hoff : s.windowOffset addr with
    | none =>
      rw [perform_write_outside hoff] at h
      cases h
      exact .inl hs
    | some off =>
      rw [perform_write_inside hoff] at h
      refine (busWrite_olen hs h).imp_right ?_
      rintro ⟨⟨rfl, rfl, dp, src, hdec⟩, hover⟩
      obtain ⟨rfl, -⟩ := windowOffset_eq_some hoff
      exact ⟨⟨v, dp, src, rfl, hdec⟩, hover⟩

/-- Settles O46: a step performs the oldest action, if there is one, on a state with the same OLEN. -/
theorem outputLengthFitsAFrame : Obligations.OutputLengthFitsAFrame := by
  intro s t hs h
  cases hp : s.pending with
  | nil =>
    simp only [step, performNext, hp] at h
    cases h
    exact .inl hs
  | cons a rest =>
    rw [step_of_pending hp] at h
    refine (perform_olen (s := { s with pending := rest, performed := s.performed + 1 }) hs h).imp_right ?_
    rintro ⟨⟨w, dp, src, rfl, hdec⟩, n, hphase, hf, hn, h128, holen⟩
    exact ⟨rest, w, dp, src, n, rfl, hdec, hphase, hf, hn, h128, holen⟩

end Sys2Proof.Machine
end

section
/-! PROOFS. A step runs the decoded instruction (40_command_model.md R120), and any change within one byte of a frame is detected
(41_crc.md R145; 40_command_model.md R127, R128). -/

namespace Sys2Proof.Machine

/-! ## The step -/

/-- A 32-bit write to BASE + 0 is a CMD write (R20, R61). -/
theorem perform_cmdWrite (w : Word) (s : State) : perform (.write (0x400 * s.baseSlot) .word w) s = runCommand w s := by
  have hin : s.windowOffset (0x400 * s.baseSlot) = some Reg.cmd.offset := windowOffset_of_base_add (by decide) rfl
  exact (perform_write_inside hin .word w).trans (busWrite_offset .cmd w s)

/-- Settles O17: a CMD write runs the decoded command, and an arriving frame the decoded form. -/
theorem stepRunsDecodedInstruction : Obligations.StepRunsDecodedInstruction := by
  intro s i rest
  refine ⟨fun w hp hdec => ?_, fun d bytes hp hdec => ?_⟩
  · rw [step_of_pending hp]
    exact (perform_cmdWrite w { s with pending := rest, performed := s.performed + 1 }).trans (runCommand_of_decode hdec _)
  · simp only [step_of_pending hp, perform, receiveFrame, hdec]

/-! ## The CRC update loses nothing -/

/-- The bit shifted out comes in again as the polynomial's highest bit (R140). -/
theorem getLsbD_crcBit_top (c : Half) : (crcBit c).getLsbD 15 = c.getLsbD 0 := by
  unfold crcBit
  split
  case isTrue hlow => rw [hlow]; simp [Config.crcPolynomial]
  case isFalse hlow => simpa using hlow

/-- One bit update is reversible: its highest bit says whether the polynomial was added. -/
theorem crcBit_injective : Function.Injective crcBit := by
  intro c d h
  have hlow : c.getLsbD 0 = d.getLsbD 0 := by rw [← getLsbD_crcBit_top, h, getLsbD_crcBit_top]
  have hshift : c >>> 1 = d >>> 1 := by
    unfold crcBit at h
    rw [hlow] at h
    split at h
    · exact (BitVec.xor_left_inj _).mp h
    · exact h
  apply BitVec.eq_of_getLsbD_eq
  intro i hi
  cases i with
  | zero => exact hlow
  | succ i =>
    have hbit : (c >>> 1).getLsbD i = (d >>> 1).getLsbD i := by rw [hshift]
    simpa [Nat.add_comm] using hbit

theorem crcBits_injective (n : Nat) : Function.Injective (crcBits n) := by
  induction n with
  | zero => exact fun _ _ h => h
  | succ n ih => exact ih.comp crcBit_injective

/-- One byte's update loses nothing of the register. -/
theorem crcByte_injective_register (b : Byte) : Function.Injective (crcByte · b) :=
  fun _ _ h => (BitVec.xor_left_inj _).mp (crcBits_injective 8 h)

/-- One byte's update loses nothing of the byte. -/
theorem crcByte_injective_byte (c : Half) : Function.Injective (crcByte c) := by
  intro b b' h
  have hwide : b.zeroExtend 16 = b'.zeroExtend 16 := (BitVec.xor_right_inj _).mp (crcBits_injective 8 h)
  have hvalue := congrArg BitVec.toNat hwide
  simp only [BitVec.zeroExtend, BitVec.toNat_setWidth] at hvalue
  apply BitVec.eq_of_toNat_eq
  omega

/-- The update over any sequence loses nothing of the register. -/
theorem crcRun_injective (bs : List Byte) : Function.Injective (crcRun · bs) := by
  induction bs with
  | nil => exact fun _ _ h => h
  | cons b bs ih => exact ih.comp (crcByte_injective_register b)

/-- Another value in one byte leaves another register: up to it the registers agree, after it they differ, and no later byte
brings them together again. -/
theorem crcRun_set_ne {bs : List Byte} {k : Nat} {v : Byte} (hk : k < bs.length) (hv : v ≠ bs.getD k 0) (c : Half) :
    crcRun c (bs.set k v) ≠ crcRun c bs := by
  induction bs generalizing c k with
  | nil => simp at hk
  | cons b bs ih =>
    cases k with
    | zero => exact fun h => hv (crcByte_injective_byte c (crcRun_injective bs h))
    | succ k => exact ih (by simpa using hk) (by simpa using hv) (crcByte c b)

/-- CRC16 changes with any one byte (R145). -/
theorem crc16_set_ne {bs : List Byte} {k : Nat} {v : Byte} (hk : k < bs.length) (hv : v ≠ bs.getD k 0) :
    crc16 (bs.set k v) ≠ crc16 bs := by
  cases bs with
  | nil => simp at hk
  | cons b bs =>
    have hne := crcRun_set_ne hk hv Config.crcInitial
    cases k <;> exact hne

/-! ## A changed byte of a frame -/

/-- A trailer with one byte changed is the trailer of another CRC. -/
theorem trailer_set_ne {c : Half} {k : Nat} {v : Byte} (hk : k < 2) (hv : v ≠ (leBytes c).getD k 0) :
    ∃ d, (leBytes c).set k v = leBytes d ∧ c ≠ d := by
  match k, hk with
  | 0, _ => exact ⟨le16 v (hi8 c), by simp [leBytes], fun hd => hv (by rw [hd]; simp [leBytes])⟩
  | 1, _ => exact ⟨le16 (lo8 c) v, by simp [leBytes], fun hd => hv (by rw [hd]; simp [leBytes])⟩

/-- A body and its trailer with one byte changed are a body and a trailer that no longer agree. -/
theorem badCrc_of_set {body : List Byte} {k : Nat} {v : Byte} (hk : k < body.length + 2)
    (hv : v ≠ (body ++ leBytes (crc16 body)).getD k 0) :
    ∃ body' c, (body ++ leBytes (crc16 body)).set k v = body' ++ leBytes c ∧ body'.length = body.length ∧
      (k ≠ 0 → body'.head? = body.head?) ∧ crc16 body' ≠ c := by
  by_cases hbody : k < body.length
  · refine ⟨body.set k v, crc16 body, List.set_append_left _ _ hbody, List.length_set, fun h0 => ?_, crc16_set_ne hbody ?_⟩
    · rw [List.head?_eq_getElem?, List.getElem?_set_ne h0, List.head?_eq_getElem?]
    · rwa [List.getD_append _ _ _ _ hbody] at hv
  · rw [List.getD_append_right _ _ _ _ (by omega)] at hv
    obtain ⟨c, hset, hne⟩ := trailer_set_ne (by omega) hv
    exact ⟨body, c, by rw [List.set_append_right _ _ (by omega), hset], rfl, fun _ => rfl, hne⟩

/-- A flipped bit changes its byte. -/
theorem xor_twoPow_ne {j : Nat} (hj : j < 8) (x : Byte) : x ^^^ BitVec.twoPow 8 j ≠ x := by
  intro h
  have hbit := congrArg (BitVec.getLsbD · j) h
  simp [hj] at hbit

/-- Settles O25: a changed address byte fails the address check, and any other changed byte the CRC check. -/
theorem singleBitFlipIsDetected : Obligations.SingleBitFlipIsDetected := by
  intro dp src s f p k j hlen hmax hk hj fr hheld
  obtain ⟨-, -, hends, -, -⟩ : DeframeEnds (execParse s) s s.func := execParse_eq s ▸ parsePath_ends s s.func _
  obtain ⟨hother, -, -, hcrc⟩ := hends (by omega) hmax
  have hflip := xor_twoPow_ne hj (fr.getD k 0)
  by_cases h0 : k = 0
  · subst h0
    rw [if_pos rfl]
    exact hother _ (holds_cons.mp hheld).1 hflip
  · obtain ⟨body, c, hset, hl, hhead, hne⟩ := badCrc_of_set (body := s.addr :: f :: p) (by simpa using hk) hflip
    rw [if_neg h0]
    exact hcrc body c (by simpa [hl] using hlen) (hhead h0) (hset ▸ hheld) hne

end Sys2Proof.Machine
end

section
/-! PROOFS. The frames of the commands (40_command_model.md R122): the registers each end of a command leaves unchanged, the bytes
it writes on Success, and from them what each command leaves unchanged. -/

namespace Sys2Proof.Machine

variable {s t : State} {W : List Field}

/-! ## The registers an end leaves unchanged -/

/-- Every register is the same but those the prologue and `finish` write (R121) and those in `W`. -/
def KeepsRegisters (W : List Field) (s t : State) : Prop :=
  ∀ f : Field, f ∉ [.code, .isExc, .excp, .olen] → f ∉ W → f.Same s t

/-- An end right after the prologue writes no other register. -/
theorem keepsRegisters_ended (s : State) (c : Status) : KeepsRegisters W s (s.ended c) := by
  intro f hbase _
  cases f
  case code | isExc | excp | olen => simp at hbase
  all_goals rfl

/-- An end of CRC16 writes CRC as well. -/
theorem keepsRegisters_ended_crc (s : State) (c : Status) (x : Half) (hcrc : .crc ∈ W := by simp [registersWritten]) :
    KeepsRegisters W s { s.ended c with crc := x } := by
  intro f hbase hw
  cases f
  case code | isExc | excp | olen => simp at hbase
  case crc => exact absurd hcrc hw
  all_goals rfl

/-- A REQ_* command that builds no frame writes RLEN as well. -/
theorem keepsRegisters_endedRequest (s : State) (c : Status) (hrlen : .rlen ∈ W := by simp [registersWritten]) :
    KeepsRegisters W s (s.endedRequest c) := by
  intro f hbase hw
  cases f
  case code | isExc | excp | olen => simp at hbase
  case rlen => exact absurd hrlen hw
  all_goals rfl

/-- A builder writes CRC as well, and RLEN where it sets another one. -/
theorem keepsRegisters_built (s : State) (g : Byte) (p : List Byte) {rl : Len} (hcrc : .crc ∈ W)
    (hrlen : .rlen ∈ W ∨ rl = s.rlen) : KeepsRegisters W s (s.built g p rl) := by
  intro f hbase hw
  cases f
  case code | isExc | excp | olen => simp at hbase
  case crc => exact absurd hcrc hw
  case rlen => exact hrlen.resolve_left hw
  all_goals rfl

/-- A command of the PARSE family writes EXC as well, whatever it leaves in STATUS's exception flags, OLEN and memory. -/
theorem keepsRegisters_endedParse (s : State) {c : Status} {ie ep : Bool} {e : Byte} {o : Len} {m : List Host.Cell}
    (hexc : .exc ∈ W := by simp [registersWritten]) :
    KeepsRegisters W s { s.endedParse c with
      status := { s.status with code := c, isExc := ie, excp := ep }, exc := e, olen := o, mem := m } := by
  intro f hbase hw
  cases f
  case code | isExc | excp | olen => simp at hbase
  case exc => exact absurd hexc hw
  all_goals rfl

/-- S_HDR and S_CNT write SPHASE and NEED, and S_HDR may write SFUNC. -/
theorem keepsRegisters_endedIn_need (s : State) (c : Status) (p : Phase) {g : Byte} (n : Len)
    (hphase : .sphase ∈ W := by simp [registersWritten]) (hneed : .need ∈ W := by simp [registersWritten])
    (hsfunc : .sfunc ∈ W ∨ g = s.sfunc := by simp [registersWritten]) :
    KeepsRegisters W s { s.endedIn c p with sfunc := g, need := n } := by
  intro f hbase hw
  cases f
  case code | isExc | excp | olen => simp at hbase
  case sphase => exact absurd hphase hw
  case need => exact absurd hneed hw
  case sfunc => exact hsfunc.resolve_left hw
  all_goals rfl

/-- S_BODY writes SPHASE and the fields of the decoded request (R240). -/
theorem keepsRegisters_request (s : State) {c : Status} {p : Phase} {a n v : Half} {bc : Byte} {o : Len} {m : List Host.Cell} :
    KeepsRegisters [.sphase, .regAddr, .count, .value, .bcount, .olen] s { s.endedIn c p with
      regAddr := a, count := n, value := v, bcount := bc, olen := o, mem := m } := by
  intro f hbase hw
  cases f
  case code | isExc | excp | olen => simp at hbase
  case sphase | regAddr | count | value | bcount => simp at hw
  all_goals rfl

/-- S_INIT writes the binding and starts no cycle (R231). -/
theorem keepsRegisters_bound (s : State) :
    KeepsRegisters [.localAddr, .init, .sphase, .need] s { s.ended .success with
      status := { code := .success, isExc := false, excp := false, init := true, sphase := .idle }
      localAddr := s.addr, need := 0 } := by
  intro f hbase hw
  cases f
  case code | isExc | excp | olen => simp at hbase
  case localAddr | init | sphase | need => simp at hw
  all_goals rfl

/-! ## The frame of an end -/

/-- An end that leaves memory as it was. -/
theorem FrameHolds.of_mem_eq {i : Instr} (hm : t.mem = s.mem) (hhost : KeepsHost s t)
    (hr : KeepsRegisters (registersWritten i) s t) : FrameHolds i s t where
  registers := hr
  onFailure _ x := by rw [hm]
  otherBytes x _ := by rw [hm]
  hostSide := hhost

/-- A successful end that stores exactly the bytes the command writes on Success. -/
theorem FrameHolds.of_writeAll {i : Instr} {a : Nat} {bs : List Byte} (hc : t.status.code = .success)
    (hm : t.mem = Memory.writeAll s.mem a bs) (hb : bytesWritten i s = (a, bs.length)) (hhost : KeepsHost s t)
    (hr : KeepsRegisters (registersWritten i) s t) : FrameHolds i s t where
  registers := hr
  onFailure hfail := absurd hc hfail
  otherBytes x hx := by
    rw [hb] at hx
    rw [hm, (Memory.stored_writeAll s.mem a bs).2 x hx]
  hostSide := hhost

/-- A builder's success stores its frame (R130). -/
theorem FrameHolds.of_built {i : Instr} {g : Byte} {p : List Byte} {rl : Len} (hb : bytesWritten i s = (0x100, p.length + 4))
    (hcrc : .crc ∈ registersWritten i := by simp [registersWritten])
    (hrlen : .rlen ∈ registersWritten i ∨ rl = s.rlen := by simp [registersWritten]) : FrameHolds i s (s.built g p rl) :=
  .of_writeAll (bs := wireFrame s.addr g p) rfl rfl (by rw [hb, length_wireFrame]) (.refl s) (keepsRegisters_built s g p hcrc hrlen)

/-- An end of the PARSE family that uses no payload leaves memory as it was. -/
theorem FrameHolds.of_parseFails {i : Instr} (h : ParseFails s t)
    (hexc : .exc ∈ registersWritten i := by simp [registersWritten]) : FrameHolds i s t := by
  rcases h with ⟨c, -, rfl⟩ | ⟨ec, rfl⟩
  · exact .of_mem_eq rfl (.refl s) (keepsRegisters_endedParse s hexc)
  · exact .of_mem_eq rfl (.refl s) (keepsRegisters_endedParse s hexc)

/-! ## CRC16 and the builders -/

/-- Settles O48: each end of the six commands leaves memory as it was, or is Success with the frame stored. -/
theorem buildersFrame : Obligations.BuildersFrame := by
  intro dp src s t i hi h
  simp only [List.mem_cons, List.not_mem_nil, or_false] at hi
  rcases hi with rfl | rfl | rfl | rfl | rfl | rfl
  · rcases execCrc16_next h with ⟨-, rfl⟩ | ⟨-, rfl⟩ | ⟨bs, -, -, rfl⟩ <;>
      exact .of_mem_eq rfl (.refl s) (keepsRegisters_ended_crc s _ _)
  · rcases execBuild_next h with ⟨c, -, rfl⟩ | ⟨p, -, -, hp, -, rfl⟩
    · exact .of_mem_eq rfl (.refl s) (keepsRegisters_ended s c)
    · exact .of_built (by rw [hp]; rfl)
  · rcases execBuildExc_next h with rfl | ⟨-, rfl⟩
    · exact .of_mem_eq rfl (.refl s) (keepsRegisters_ended s _)
    · exact .of_built rfl
  · rcases execReqRhr_next h with ⟨c, -, rfl⟩ | ⟨-, -, -, rfl⟩
    · exact .of_mem_eq rfl (.refl s) (keepsRegisters_endedRequest s c)
    · exact .of_built rfl
  · rcases execReqWsr_next h with rfl | ⟨-, rfl⟩
    · exact .of_mem_eq rfl (.refl s) (keepsRegisters_endedRequest s _)
    · exact .of_built rfl
  · rcases execReqWmr_next h with ⟨c, -, rfl⟩ | ⟨vs, -, -, -, hl, -, rfl⟩
    · exact .of_mem_eq rfl (.refl s) (keepsRegisters_endedRequest s c)
    · exact .of_built (by simp [bytesWritten, writeMultiplePayload, hl]; omega)

/-! ## The PARSE family -/

/-- Settles O49: each end of the four commands leaves memory as it was, or is Success with the payload or its values stored. -/
theorem parseFamilyFrame : Obligations.ParseFamilyFrame := by
  intro dp src s t i hi h
  simp only [List.mem_cons, List.not_mem_nil, or_false] at hi
  rcases hi with rfl | rfl | rfl | rfl
  · rcases execParse_next h with hfail | ⟨p, ⟨hlen, -, -⟩, -, rfl⟩
    · exact .of_parseFails hfail
    · exact .of_writeAll rfl rfl (by simp [bytesWritten, ← hlen]) (.refl s) (keepsRegisters_endedParse s)
  · rcases execRspRhr_next h with hfail | ⟨bc, vs, -, hl, -, rfl⟩
    · exact .of_parseFails hfail
    · exact .of_writeAll rfl rfl (by simp [bytesWritten, hl]) (.refl s) (keepsRegisters_endedParse s)
  · rcases execRspWsr_next h with hfail | ⟨-, rfl⟩
    · exact .of_parseFails hfail
    · exact .of_mem_eq rfl (.refl s) (keepsRegisters_endedParse s)
  · rcases execRspWmr_next h with hfail | ⟨-, rfl⟩
    · exact .of_parseFails hfail
    · exact .of_mem_eq rfl (.refl s) (keepsRegisters_endedParse s)

/-! ## The slave commands -/

/-- The bytes S_BODY writes for function 0x10: the register view of the count F[4..6), up to D[255] (R122; logs 8 and 21). -/
theorem bytesWritten_sBody {dp src : Bool} {n : Half} (hf : s.sfunc = 0x10#8) (hn : s.Holds .frame 4 (beBytes n)) :
    bytesWritten (.sBody dp src) s = (0x200, 2 * min n.toNat 128) := by
  obtain ⟨hhi, htail⟩ := holds_cons.mp hn
  obtain ⟨hlo, -⟩ := holds_cons.mp htail
  have hvalue : 256 * (hi8 n).toNat + (lo8 n).toNat = n.toNat := by
    conv_rhs => rw [← be16_hi8_lo8 n]
    exact (toNat_append_eq_add (hi8 n) (lo8 n)).symm
  simp only [bytesWritten, hhi, hlo, hf, if_true, hvalue, Prod.mk.injEq, true_and]
  omega

/-- Each end of S_BODY leaves memory as it was, or is Success with the register view stored (R122, R240). -/
theorem execSBody_frame {dp src : Bool} (h : execSBody s = .next t) : FrameHolds (.sBody dp src) s t := by
  rcases execSBody_next h with ⟨-, rfl⟩ | ⟨-, rfl⟩ |
    ⟨-, -, rfl | ⟨a, -, ⟨-, n, -, rfl⟩ | ⟨-, v, -, rfl⟩ | ⟨hf, n, bc, vs, hn, hl, rfl⟩ | ⟨-, rfl⟩⟩⟩
  · exact .of_mem_eq rfl (.refl s) (keepsRegisters_ended s _)
  · exact .of_mem_eq rfl (.refl s) (keepsRegisters_ended s _)
  · exact .of_mem_eq rfl (.refl s) (keepsRegisters_request s)
  · exact .of_mem_eq rfl (.refl s) (keepsRegisters_request s)
  · exact .of_mem_eq rfl (.refl s) (keepsRegisters_request s)
  · exact .of_writeAll rfl rfl (by rw [bytesWritten_sBody hf hn, length_viewRegs, hl]) (.refl s) (keepsRegisters_request s)
  · exact .of_mem_eq rfl (.refl s) (keepsRegisters_request s)

/-- Settles O50: each end of S_INIT, S_HDR and S_CNT leaves memory as it was, and S_BODY has the frame of its own ends. -/
theorem slaveFrame : Obligations.SlaveFrame := by
  intro dp src s t i hi h
  simp only [List.mem_cons, List.not_mem_nil, or_false] at hi
  rcases hi with rfl | rfl | rfl | rfl
  · rcases execSInit_next h with ⟨-, rfl⟩ | ⟨-, rfl⟩
    · exact .of_mem_eq rfl (.refl s) (keepsRegisters_ended s _)
    · exact .of_mem_eq rfl (.refl s) (keepsRegisters_bound s)
  · have hneed (c : Status) (p : Phase) (g : Byte) (n : Len) :
        FrameHolds (.sHdr dp src) s { s.endedIn c p with sfunc := g, need := n } :=
      .of_mem_eq rfl (.refl s) (keepsRegisters_endedIn_need s c p n)
    rcases execSHdr_next h with ⟨-, rfl⟩ | ⟨-, _, -, -, rfl⟩ | ⟨-, -, f, -, ⟨-, rfl⟩ | ⟨-, rfl⟩ | ⟨-, rfl⟩⟩
    · exact .of_mem_eq rfl (.refl s) (keepsRegisters_ended s _)
    · exact hneed .invalidAddress .idle s.sfunc 0
    · exact hneed .success .awaitBody f 8
    · exact hneed .success .awaitCount f 6
    · exact hneed .invalidFunctionCode .idle f 0
  · have hneed (c : Status) (p : Phase) (n : Len) : FrameHolds (.sCnt dp src) s { s.endedIn c p with need := n } :=
      .of_mem_eq rfl (.refl s) (keepsRegisters_endedIn_need s c p n (hsfunc := .inr rfl))
    rcases execSCnt_next h with ⟨-, rfl⟩ | ⟨-, rfl⟩ | ⟨-, -, n, -, ⟨-, rfl⟩ | ⟨-, rfl⟩⟩
    · exact .of_mem_eq rfl (.refl s) (keepsRegisters_ended s _)
    · exact .of_mem_eq rfl (.refl s) (keepsRegisters_ended s _)
    · exact hneed .invalidParam .idle 0
    · exact hneed .success .awaitBody _
  · exact execSBody_frame h

end Sys2Proof.Machine
end

section
/-! PROOFS. When a command is refused (40_command_model.md R123; 60_exceptions.md R276 item 3): for each command, the bytes it reads on
its path are exactly those whose being unwritten refuses it. -/

namespace Sys2Proof.Machine

variable {α : Type} {s u : State} {P Q : Buffer → Nat → Prop} {b : Buffer} {i n : Nat} {r r' : Result α}

/-! ## Refusals for a set of bytes -/

/-- One of the bytes `P` is unwritten (R28). -/
def State.UnwrittenAmong (s : State) (P : Buffer → Nat → Prop) : Prop := ∃ b j, j < 256 ∧ P b j ∧ s.byteAt b j = none

/-- All of the bytes `P` are written. -/
def State.WrittenAll (s : State) (P : Buffer → Nat → Prop) : Prop := ∀ b j, j < 256 → P b j → s.byteAt b j ≠ none

/-- The answer is a refusal exactly when one of the bytes `P` is unwritten, and the refusal is that of an unwritten byte. -/
def RefusedFor (r : Result α) (s : State) (P : Buffer → Nat → Prop) : Prop :=
  ∀ q, r = .refused q ↔ q = .unwrittenByte ∧ s.UnwrittenAmong P

theorem RefusedFor.of_written (hr : ∀ q, r ≠ .refused q) (h : s.WrittenAll P) : RefusedFor r s P := by
  refine fun q => ⟨fun he => absurd he (hr q), ?_⟩
  rintro ⟨-, b, j, hj, hP, hn⟩
  exact absurd hn (h b j hj hP)

theorem RefusedFor.of_unwritten (hr : r = .refused .unwrittenByte) (h : s.UnwrittenAmong P) : RefusedFor r s P := by
  subst hr
  exact fun q => ⟨fun he => by cases he; exact ⟨rfl, h⟩, fun he => he.1 ▸ rfl⟩

/-- What reads no byte is never refused (R123). -/
theorem RefusedFor.of_no_reads (hr : ∀ q, r ≠ .refused q) (h : ∀ b j, ¬ P b j) : RefusedFor r s P :=
  .of_written hr fun b j _ hP => absurd hP (h b j)

/-- A command that ends is refused for none of the bytes. -/
theorem RefusedFor.finish {c : Status} (h : s.WrittenAll P) : RefusedFor (finish c u) s P := .of_written nofun h

/-- Bytes that are written may be left out. -/
theorem RefusedFor.extend (h : RefusedFor r s Q) (hQP : ∀ b j, Q b j → P b j)
    (hPQ : ∀ b j, j < 256 → P b j → Q b j ∨ s.byteAt b j ≠ none) : RefusedFor r s P := by
  refine fun q => (h q).trans (and_congr_right fun _ => ⟨?_, ?_⟩)
  · rintro ⟨b, j, hj, hQ, hn⟩
    exact ⟨b, j, hj, hQP b j hQ, hn⟩
  · rintro ⟨b, j, hj, hP, hn⟩
    exact ⟨b, j, hj, (hPQ b j hj hP).resolve_right (not_not.mpr hn), hn⟩

theorem RefusedFor.ite {c : Prop} [Decidable c] (ht : c → RefusedFor r s P) (he : ¬ c → RefusedFor r' s P) :
    RefusedFor (if c then r else r') s P := by
  split
  case isTrue hc => exact ht hc
  case isFalse hc => exact he hc

/-- Go on after a part that is refused only for an unwritten byte of the set. -/
theorem RefusedFor.andThen {β : Type} {r : Result β} {k : β → Result α}
    (hr : ∀ q, r = .refused q → q = .unwrittenByte ∧ s.UnwrittenAmong P)
    (hk : ∀ a, r = .next a → RefusedFor (k a) s P) : RefusedFor (andThen r k) s P := by
  cases r with
  | next a => exact hk a rfl
  | fault f => cases f
  | refused q =>
    obtain ⟨rfl, hun⟩ := hr q rfl
    exact .of_unwritten rfl hun

/-- Read a byte of the set, and go on with what is found. -/
theorem RefusedFor.readByte {k : Byte → Result α} (hm : u.mem = s.mem) (hp : u.performed = s.performed) (hP : i < 256 → P b i)
    (hk : ∀ v, s.foundAt b i = some v → RefusedFor (k v) s P) : RefusedFor (Machine.andThen (readByte u b i) k) s P := by
  rw [readByte_congr hm b i hp]
  refine .andThen (fun q hq => ?_) fun v hv => hk v (readByte_eq_found.mp hv)
  obtain ⟨hq, hi, hn⟩ := readByte_eq_refused.mp hq
  exact ⟨hq, b, i, hi, hP hi, hn⟩

/-- Read bytes of the set, and go on with what is found. -/
theorem RefusedFor.readBytes {k : List Byte → Result α} (hm : u.mem = s.mem) (hp : u.performed = s.performed)
    (hP : ∀ j, i ≤ j → j < i + n → P b j) (hk : ∀ bs, bs.length = n → s.Finds b i bs → RefusedFor (k bs) s P) :
    RefusedFor (Machine.andThen (readBytes u b i n) k) s P := by
  rw [readBytes_congr hm b i n hp]
  refine .andThen (fun q hq => ?_) fun bs hbs => ?_
  · obtain ⟨hq, j, hj, hi, hn⟩ := readBytes_eq_refused.mp hq
    exact ⟨hq, b, i + j, hi, hP _ (by omega) (by omega), hn⟩
  · obtain ⟨hl, hf⟩ := readBytes_eq_found.mp hbs
    exact hk bs hl hf

theorem andThen_assoc {β γ : Type} (r : Result β) (f : β → Result γ) (g : γ → Result α) :
    andThen (andThen r f) g = andThen r fun a => andThen (f a) g := by
  cases r <;> rfl

/-- Read a field of the set, and go on with its value. -/
theorem RefusedFor.readField {k : Half → Result α} (hm : u.mem = s.mem) (hp : u.performed = s.performed) (hi : i + 2 ≤ 256)
    (h0 : P .frame i) (h1 : P .frame (i + 1)) (hk : ∀ v, s.Holds .frame i (beBytes v) → RefusedFor (k v) s P) :
    RefusedFor (Machine.andThen (readField i u) k) s P := by
  simp only [Machine.readField, andThen_assoc]
  refine .readByte hm hp (fun _ => h0) fun x hx => .readByte hm hp (fun _ => h1) fun y hy => hk _ ?_
  rw [foundAt_of_lt (by omega)] at hx hy
  simpa [beBytes, holds_cons] using ⟨hx, hy⟩

/-! ## Written bytes -/

theorem written_of_byteAt {v : Byte} (h : s.byteAt b i = some v) : s.byteAt b i ≠ none := by simp [h]

theorem written_of_found {v : Byte} (hi : i < 256) (h : s.foundAt b i = some v) : s.byteAt b i ≠ none :=
  written_of_byteAt (foundAt_of_lt hi ▸ h)

/-- Bytes that were found are written, as far as the buffer goes. -/
theorem written_of_finds {bs : List Byte} {j : Nat} (h : s.Finds b i bs) (hlo : i ≤ j) (hhi : j < i + bs.length) (hj : j < 256) :
    s.byteAt b j ≠ none := by
  have hfound := h (j - i) (by omega)
  rw [Nat.add_sub_cancel' hlo, List.getElem?_eq_getElem (by omega)] at hfound
  exact written_of_found hj hfound

/-- The bytes of a held field are written. -/
theorem written_of_field {v : Half} {j : Nat} (h : s.Holds b i (beBytes v)) (hj : j = i ∨ j = i + 1) : s.byteAt b j ≠ none := by
  obtain ⟨hhi, htail⟩ := holds_cons.mp h
  obtain ⟨hlo, -⟩ := holds_cons.mp htail
  rcases hj with rfl | rfl
  · exact written_of_byteAt hhi
  · exact written_of_byteAt hlo

/-! ## CRC16 and the builders -/

theorem execCrc16_refusedFor (dp src : Bool) (s : State) : RefusedFor (execCrc16 dp src s) s (readsOnPath (.crc16 dp src) s) := by
  simp only [execCrc16]
  refine .ite (fun habsent => .finish ?_) fun hpresent => .ite (fun hlong => .finish ?_) fun hlen => .readBytes rfl rfl ?_ ?_
  · rintro b j - ⟨-, hpresent, -, hj⟩
    rcases habsent with ⟨rfl, rfl⟩ | h0
    · simp at hpresent
    · exact absurd hj (by simp at h0; omega)
  · rintro b j - ⟨-, -, hmax, -⟩
    exact absurd hmax (Nat.not_le.mpr hlong)
  · refine fun j _ hj => ⟨rfl, ?_, Nat.not_lt.mp hlen, by simpa using hj⟩
    by_contra hno
    simp only [not_or, Bool.not_eq_true] at hno
    exact hpresent (.inl hno)
  · refine fun bs hl hf => .finish ?_
    rintro b j hj ⟨rfl, -, -, hread⟩
    exact written_of_finds hf (Nat.zero_le j) (by simpa [hl] using hread) hj

theorem execBuild_refusedFor (dp src : Bool) (s : State) : RefusedFor (execBuild dp s) s (readsOnPath (.build dp src) s) := by
  simp only [execBuild]
  refine .ite (fun haddr => .finish ?_) fun haddr => .ite (fun hnull => .finish ?_) fun hdata => .ite (fun hcap => .finish ?_)
    fun hcap => .readBytes rfl rfl ?_ ?_
  · rintro b j - ⟨-, hvalid, -⟩
    exact absurd hvalid ((validAddr_false_iff _).mp haddr)
  · rintro b j - ⟨-, -, hdp, -⟩
    simp [hdp] at hnull
  · rintro b j - ⟨-, -, -, hfits, -⟩
    exact absurd hfits (Nat.not_le.mpr hcap)
  · intro j _ hj
    have hread : j < s.len.toNat := by simpa using hj
    refine ⟨rfl, (validAddr_iff _).mp (by simpa using haddr), ?_, Nat.not_lt.mp hcap, hread⟩
    by_contra hdp
    exact hdata ⟨Nat.zero_lt_of_lt hread, by simpa using hdp⟩
  · refine fun bs hl hf => .finish ?_
    rintro b j hj ⟨rfl, -, -, -, hread⟩
    exact written_of_finds hf (Nat.zero_le j) (by simpa [hl] using hread) hj

theorem execReqWmr_refusedFor (dp src : Bool) (s : State) : RefusedFor (execReqWmr dp s) s (readsOnPath (.reqWmr dp src) s) := by
  simp only [execReqWmr, readRegs, andThen_assoc]
  refine .ite (fun haddr => .finish ?_) fun haddr => .ite (fun hnull => .finish ?_) fun hdata => .ite (fun hcount => .finish ?_)
    fun hcount => .readBytes rfl rfl ?_ ?_
  · rintro b j - ⟨-, hvalid, -⟩
    exact absurd hvalid ((validAddr_false_iff _).mp haddr)
  · rintro b j - ⟨-, -, hdp, -⟩
    simp [hdp] at hnull
  · rintro b j - ⟨-, -, -, h1, h123, -⟩
    exact nomatch hcount.symm.trans ((countWithin_iff _ _).mpr ⟨h1, h123⟩)
  · intro j _ hj
    obtain ⟨h1, h123⟩ := (countWithin_iff _ _).mp (by simpa using hcount)
    exact ⟨rfl, (validAddr_iff _).mp (by simpa using haddr), by simpa using hdata, h1, h123, by simpa using hj⟩
  · refine fun bs hl hf => .finish ?_
    rintro b j hj ⟨rfl, -, -, -, -, hread⟩
    exact written_of_finds hf (Nat.zero_le j) (by simpa [hl] using hread) hj

/-! ## The PARSE family -/

/-- The family's common path is refused for the bytes Deframe reads, where the use of a payload is never refused (R127). -/
theorem parsePath_refusedFor (s : State) (ef : Byte) {k : List Byte → Result State} (hk : ∀ p q, k p ≠ .refused q) :
    RefusedFor (parsePath s ef k) s s.deframeReads := by
  obtain ⟨hlong, hshort, hends, -, -⟩ := parsePath_ends s ef k
  by_cases hmax : 256 < s.len.toNat
  · rw [hlong hmax]
    refine .of_no_reads nofun ?_
    rintro b j ⟨-, -, hle, -⟩
    exact absurd hmax (Nat.not_lt.mpr hle)
  by_cases hmin : s.len.toNat < 4
  · rw [hshort hmin]
    refine .of_no_reads nofun ?_
    rintro b j ⟨-, hle, -⟩
    exact absurd hmin (Nat.not_lt.mpr hle)
  rw [Nat.not_lt] at hmax hmin
  obtain ⟨hother, hnone, hsome, -⟩ := hends hmin hmax
  cases h0 : s.byteAt .frame 0 with
  | none =>
    exact .of_unwritten (hnone h0) ⟨.frame, 0, by omega, ⟨rfl, hmin, hmax, by omega, nofun⟩, h0⟩
  | some f0 =>
    by_cases hf0 : f0 = s.addr
    · subst hf0
      by_cases hun : s.SomeUnwritten .frame 0 s.len.toNat
      · obtain ⟨j, hj, hn⟩ := id hun
        rw [Nat.zero_add] at hn
        exact .of_unwritten (hsome h0 hun) ⟨.frame, j, by omega, ⟨rfl, hmin, hmax, hj, fun _ => h0⟩, hn⟩
      · refine .of_written (fun q hq => ?_) ?_
        · rcases parsePath_refused hq with ⟨-, -, hun'⟩ | ⟨p, hp⟩
          · exact hun hun'
          · exact hk p q hp
        · rintro b j - ⟨rfl, -, -, hj, -⟩ hn
          exact hun ⟨j, hj, by rwa [Nat.zero_add]⟩
    · rw [hother f0 h0 hf0]
      refine .of_written nofun ?_
      rintro b j - ⟨rfl, -, -, -, haddr⟩
      rcases Nat.eq_zero_or_pos j with rfl | hj
      · exact written_of_byteAt h0
      · rw [haddr hj] at h0
        exact absurd (Option.some.inj h0).symm hf0

/-- A command of the family that checks COUNT first is refused for those bytes where COUNT is admitted. -/
theorem refusedFor_of_count {limit : Nat} {r r' : Result State} (hr' : ∀ q, r' ≠ .refused q) (hr : RefusedFor r s s.deframeReads) :
    RefusedFor (if countWithin limit s = false then r' else r) s
      fun b j => 1 ≤ s.count.toNat ∧ s.count.toNat ≤ limit ∧ s.deframeReads b j := by
  refine .ite (fun hcount => .of_no_reads hr' ?_) fun hcount => hr.extend ?_ ?_
  · rintro b j ⟨h1, hmax, -⟩
    exact nomatch hcount.symm.trans ((countWithin_iff _ _).mpr ⟨h1, hmax⟩)
  · obtain ⟨h1, hmax⟩ := (countWithin_iff _ _).mp (by simpa using hcount)
    exact fun b j hj => ⟨h1, hmax, hj⟩
  · rintro b j - ⟨-, -, hj⟩
    exact .inl hj

theorem ite_ne_refused {c : Prop} [Decidable c] (hr : ∀ q, r ≠ .refused q) (hr' : ∀ q, r' ≠ .refused q) (q : Refusal) :
    (if c then r else r') ≠ .refused q := by
  split
  · exact hr q
  · exact hr' q

theorem execParse_refusedFor (s : State) : RefusedFor (execParse s) s s.deframeReads :=
  execParse_eq s ▸ parsePath_refusedFor s _ fun _ => ite_ne_refused nofun nofun

theorem execRspWsr_refusedFor (s : State) : RefusedFor (execRspWsr s) s s.deframeReads :=
  execRspWsr_eq s ▸ parsePath_refusedFor s _ fun _ => ite_ne_refused nofun nofun

theorem execRspRhr_refusedFor (dp src : Bool) (s : State) : RefusedFor (execRspRhr s) s (readsOnPath (.rspRhr dp src) s) :=
  execRspRhr_eq s ▸
    refusedFor_of_count nofun (parsePath_refusedFor s _ fun _ => ite_ne_refused nofun (ite_ne_refused nofun nofun))

theorem execRspWmr_refusedFor (dp src : Bool) (s : State) : RefusedFor (execRspWmr s) s (readsOnPath (.rspWmr dp src) s) :=
  execRspWmr_eq s ▸ refusedFor_of_count nofun (parsePath_refusedFor s _ fun _ => ite_ne_refused nofun nofun)

/-! ## S_HDR and S_CNT -/

theorem execSHdr_refusedFor (dp src : Bool) (s : State) : RefusedFor (execSHdr s) s (readsOnPath (.sHdr dp src) s) := by
  simp only [execSHdr]
  refine .ite (fun hinit => .finish ?_) fun hinit => ?_
  · rintro b j - ⟨-, hinit', -⟩
    exact nomatch hinit.symm.trans hinit'
  have hinit : s.status.init = true := by simpa using hinit
  refine .readByte rfl rfl (fun _ => ⟨rfl, hinit, .inl rfl⟩) fun f0 hf0 => ?_
  rw [foundAt_of_lt (by omega)] at hf0
  refine .ite (fun hother => .finish ?_) fun hown => ?_
  · rintro b j - ⟨rfl, -, rfl | ⟨-, hown⟩⟩
    · exact written_of_byteAt hf0
    · exact absurd (Option.some.inj (hf0.symm.trans hown)) hother
  have haddr : s.byteAt .frame 0 = some s.localAddr := hf0.trans (congrArg some (not_not.mp hown))
  refine .readByte rfl rfl (fun _ => ⟨rfl, hinit, .inr ⟨rfl, haddr⟩⟩) fun f1 hf1 =>
    .of_written (ite_ne_refused nofun (ite_ne_refused nofun nofun)) ?_
  rintro b j hj ⟨rfl, -, rfl | ⟨rfl, -⟩⟩
  · exact written_of_byteAt hf0
  · exact written_of_found hj hf1

theorem execSCnt_refusedFor (dp src : Bool) (s : State) : RefusedFor (execSCnt s) s (readsOnPath (.sCnt dp src) s) := by
  simp only [execSCnt]
  refine .ite (fun hinit => .finish ?_) fun hinit => .ite (fun hphase => .finish ?_) fun hphase => ?_
  · rintro b j - ⟨-, hinit', -⟩
    exact nomatch hinit.symm.trans hinit'
  · rintro b j - ⟨-, -, hphase', -⟩
    exact absurd hphase' hphase
  have hinit : s.status.init = true := by simpa using hinit
  have hphase : s.status.sphase = .awaitCount := not_not.mp hphase
  refine .readField rfl rfl (by omega) ⟨rfl, hinit, hphase, .inl rfl⟩ ⟨rfl, hinit, hphase, .inr rfl⟩ fun n hn =>
    .of_written (ite_ne_refused nofun nofun) ?_
  rintro b j - ⟨rfl, -, -, hj⟩
  exact written_of_field hn hj

/-! ## S_BODY -/

/-- The bytes the decoding of a request reads (R240; log 8). -/
def State.decodingReads (s : State) (b : Buffer) (j : Nat) : Prop :=
  b = .frame ∧
    (j = 2 ∨ j = 3 ∨ (s.sfunc ∈ [0x03#8, 0x06#8, 0x10#8] ∧ (j = 4 ∨ j = 5)) ∨
      (s.sfunc = 0x10#8 ∧ (j = 6 ∨ ∃ n : Half, s.Holds .frame 4 (beBytes n) ∧ 7 ≤ j ∧ j < 7 + 2 * n.toNat)))

/-- A request of two fields is refused for the second one, the first being read (R240). -/
theorem secondField_refusedFor {a : Half} (hm : u.mem = s.mem) (hp : u.performed = s.performed)
    (ha : s.Holds .frame 2 (beBytes a)) (hf : s.sfunc ∈ [0x03#8, 0x06#8]) (v : Half → State) :
    RefusedFor (andThen (readField 4 u) fun n => finish .success (v n)) s s.decodingReads := by
  have hf' : s.sfunc ∈ [0x03#8, 0x06#8, 0x10#8] := List.mem_append_left [0x10#8] hf
  refine .readField hm hp (by omega) ⟨rfl, .inr (.inr (.inl ⟨hf', .inl rfl⟩))⟩ ⟨rfl, .inr (.inr (.inl ⟨hf', .inr rfl⟩))⟩
    fun n hn => .finish ?_
  rintro b j - ⟨rfl, h2 | h3 | ⟨-, h45⟩ | ⟨h10, -⟩⟩
  · exact written_of_field ha (.inl h2)
  · exact written_of_field ha (.inr h3)
  · exact written_of_field hn h45
  · exact absurd (h10 ▸ hf) (by decide)

/-- The decoding of a request is refused for the bytes it reads (R240). -/
theorem decodeRequestBody_refusedFor (hm : u.mem = s.mem) (hp : u.performed = s.performed) (hsfunc : u.sfunc = s.sfunc) :
    RefusedFor (decodeRequestBody u) s s.decodingReads := by
  unfold decodeRequestBody
  refine .readField hm hp (by omega) ⟨rfl, .inl rfl⟩ ⟨rfl, .inr (.inl rfl)⟩ fun a ha => ?_
  simp only [hsfunc]
  refine .ite (fun h3 => secondField_refusedFor hm hp ha (by simp [h3]) _) fun h3 =>
    .ite (fun h6 => secondField_refusedFor hm hp ha (by simp [h6]) _) fun h6 => .ite (fun h10 => ?_) fun h10 => .finish ?_
  · have hf : s.sfunc ∈ [0x03#8, 0x06#8, 0x10#8] := by simp [h10]
    refine .readField hm hp (by omega) ⟨rfl, .inr (.inr (.inl ⟨hf, .inl rfl⟩))⟩ ⟨rfl, .inr (.inr (.inl ⟨hf, .inr rfl⟩))⟩
      fun n hn => .readByte hm hp (fun _ => ⟨rfl, .inr (.inr (.inr ⟨h10, .inl rfl⟩))⟩) fun bc hbc => ?_
    simp only [readFields, andThen_assoc]
    refine .readBytes hm hp (fun j hlo hhi => ⟨rfl, .inr (.inr (.inr ⟨h10, .inr ⟨n, hn, hlo, by omega⟩⟩))⟩)
      fun bs hl hfinds => .finish ?_
    rintro b j hj ⟨rfl, h2 | h3 | ⟨-, h45⟩ | ⟨-, rfl | ⟨n', hn', hlo, hhi⟩⟩⟩
    · exact written_of_field ha (.inl h2)
    · exact written_of_field ha (.inr h3)
    · exact written_of_field hn h45
    · exact written_of_found hj hbc
    · obtain rfl := beBytes_injective (holds_unique hn hn' rfl)
      exact written_of_finds hfinds hlo (by simp only [hl, Config.dataRegisters]; omega) hj
  · rintro b j - ⟨rfl, h2 | h3 | ⟨hf, -⟩ | ⟨h10', -⟩⟩
    · exact written_of_field ha (.inl h2)
    · exact written_of_field ha (.inr h3)
    · simp only [List.mem_cons, List.not_mem_nil, or_false] at hf
      exact absurd hf (not_or.mpr ⟨h3, not_or.mpr ⟨h6, h10⟩⟩)
    · exact absurd h10' h10

/-- The trailer's indices of NEED, counted in its nine bits, name bytes of FRAME only below NEED (log 9). -/
theorem trailer_index_lt {n : Len} :
    ((n - 2).toNat < 256 → (n - 2).toNat < n.toNat) ∧ ((n - 1).toNat < 256 → (n - 1).toNat < n.toNat) := by
  constructor <;> bv_omega

/-- A byte of `F[0..NEED)` is one of the body, or the trailer's first or second. -/
theorem body_or_trailer {n : Len} {j : Nat} (h : j < n.toNat) : j < n.toNat - 2 ∨ j = (n - 2).toNat ∨ j = (n - 1).toNat := by
  bv_omega

theorem execSBody_refusedFor (dp src : Bool) (s : State) : RefusedFor (execSBody s) s (readsOnPath (.sBody dp src) s) := by
  by_cases hinit : s.status.init = true
  case neg =>
    rw [execSBody, if_pos (by simpa using hinit)]
    refine .finish ?_
    rintro b j - ⟨hinit', -⟩
    exact absurd hinit' hinit
  by_cases hphase : s.status.sphase = .awaitBody
  case neg =>
    rw [execSBody, if_neg (by simpa using hinit), if_pos (by exact hphase)]
    refine .finish ?_
    rintro b j - ⟨-, hphase', -⟩
    exact absurd hphase' hphase
  rw [execSBody_eq hinit hphase]
  obtain ⟨h2, h1⟩ := trailer_index_lt (n := s.need)
  refine .readBytes rfl rfl (fun j _ hj => ⟨hinit, hphase, rfl, .inl (by omega)⟩) fun body hl hbody =>
    .readByte rfl rfl (fun hi => ⟨hinit, hphase, rfl, .inl (h2 hi)⟩) fun lo hlo =>
    .readByte rfl rfl (fun hi => ⟨hinit, hphase, rfl, .inl (h1 hi)⟩) fun hi hhi => ?_
  have hneed (j : Nat) (hj : j < 256) (hjn : j < s.need.toNat) : s.byteAt .frame j ≠ none := by
    rcases body_or_trailer hjn with hjb | rfl | rfl
    · exact written_of_finds hbody (Nat.zero_le j) (by omega) hj
    · exact written_of_found hj hlo
    · exact written_of_found hj hhi
  refine .ite (fun hbad => .of_written nofun ?_) fun hgood =>
    (decodeRequestBody_refusedFor (by rfl) (by rfl) (by rfl)).extend ?_ ?_
  · rintro b j hj ⟨-, -, rfl, hjn | ⟨⟨body', lo', hi', hl', hbody', hlo', hhi', hcrc⟩, -⟩⟩
    · exact hneed j hj hjn
    · obtain rfl := finds_unique hbody hbody' (hl.trans hl'.symm)
      obtain rfl := Option.some.inj (hlo.symm.trans hlo')
      obtain rfl := Option.some.inj (hhi.symm.trans hhi')
      exact absurd hcrc hbad
  · rintro b j ⟨hb, hj⟩
    exact ⟨hinit, hphase, hb, .inr ⟨⟨body, lo, hi, hl, hbody, hlo, hhi, not_not.mp hgood⟩, hj⟩⟩
  · rintro b j hj ⟨-, -, rfl, hjn | ⟨-, hread⟩⟩
    · exact .inr (hneed j hj hjn)
    · exact .inl ⟨rfl, hread⟩

/-! ## The statement about refusals -/

/-- Settles O53: command by command, and a wire-frame form reads nothing. -/
theorem refusedExactlyForUnwrittenOnPath : Obligations.RefusedExactlyForUnwrittenOnPath := by
  intro i s
  show RefusedFor (exec i s) s (readsOnPath i s)
  cases i
  case crc16 dp src => exact execCrc16_refusedFor dp src s
  case build dp src => exact execBuild_refusedFor dp src s
  case reqWmr dp src => exact execReqWmr_refusedFor dp src s
  case parse => exact execParse_refusedFor s
  case rspWsr => exact execRspWsr_refusedFor s
  case rspRhr dp src => exact execRspRhr_refusedFor dp src s
  case rspWmr dp src => exact execRspWmr_refusedFor dp src s
  case sHdr dp src => exact execSHdr_refusedFor dp src s
  case sCnt dp src => exact execSCnt_refusedFor dp src s
  case sBody dp src => exact execSBody_refusedFor dp src s
  case buildExc | reqWsr | sInit => exact .of_no_reads (ite_ne_refused nofun nofun) fun _ _ h => h
  case reqRhr => exact .of_no_reads (ite_ne_refused nofun (ite_ne_refused nofun nofun)) fun _ _ h => h
  all_goals exact .of_no_reads nofun fun _ _ h => h

end Sys2Proof.Machine
end

section
/-! PROOFS. The CRC16 engine (41_crc.md): on natural numbers it is the bit-serial procedure of R140; it is linear over XOR and only
shifts zero bits out, which gives the properties of R145 and the table-driven form of R141; and the CRC16 command (R150). -/

namespace Sys2Proof.Machine

/-! ## The bit-serial procedure on natural numbers -/

/-- One bit update on natural numbers: halve, and XOR the polynomial in when the bit shifted out is 1 (R140). -/
def crcBitNat (x : Nat) : Nat := if x % 2 = 1 then (x / 2) ^^^ 0xA001 else x / 2

theorem toNat_crcBit (c : Half) : (crcBit c).toNat = crcBitNat c.toNat := by
  have hodd : c.getLsbD 0 = true ↔ c.toNat % 2 = 1 := by simp [BitVec.getLsbD]
  simp only [crcBit, crcBitNat, hodd]
  split <;> simp [Config.crcPolynomial, Nat.shiftRight_one]

theorem crcBits_eq_iterate (n : Nat) (c : Half) : crcBits n c = crcBit^[n] c := by
  induction n generalizing c with
  | zero => rfl
  | succ n ih => exact ih (crcBit c)

theorem toNat_crcByte (c : Half) (b : Byte) : (crcByte c b).toNat = crcBitNat^[8] (c.toNat ^^^ b.toNat) := by
  have hsemi : Function.Semiconj BitVec.toNat crcBit crcBitNat := toNat_crcBit
  have hwide : (b.zeroExtend 16).toNat = b.toNat := BitVec.toNat_setWidth_of_le (by decide)
  rw [crcByte, crcBits_eq_iterate, hsemi.iterate_right 8 _, BitVec.toNat_xor, hwide]

theorem crc16_of_ne_nil {bs : List Byte} (h : bs ≠ []) : crc16 bs = crcRun Config.crcInitial bs := by
  cases bs with
  | nil => exact absurd rfl h
  | cons b bs => rfl

/-- Settles O20: `toNat` carries each byte's update to natural numbers, and so the fold over the bytes. -/
theorem crcIsTheBitSerialProcedure : Obligations.CrcIsTheBitSerialProcedure := by
  refine ⟨rfl, fun bytes hne => ?_⟩
  rw [crc16_of_ne_nil hne]
  exact (List.foldl_hom BitVec.toNat fun c b => (toNat_crcByte c b).symm).symm

/-- Settles O22 by computation. -/
theorem crcCheckValues : Obligations.CrcCheckValues := by
  unfold Obligations.CrcCheckValues
  decide +kernel

/-! ## The update is linear over XOR -/

/-- One bit update is linear: the shift is, and the polynomial enters both sides or neither, twice being not at all. -/
theorem crcBit_xor (c d : Half) : crcBit (c ^^^ d) = crcBit c ^^^ crcBit d := by
  have hshift : (c ^^^ d) >>> 1 = c >>> 1 ^^^ d >>> 1 := BitVec.ushiftRight_xor_distrib ..
  simp only [crcBit, BitVec.getLsbD_xor, hshift]
  cases c.getLsbD 0 <;> cases d.getLsbD 0
  case false.false => rfl
  case false.true => exact BitVec.xor_assoc ..
  case true.false =>
    show c >>> 1 ^^^ d >>> 1 ^^^ Config.crcPolynomial = (c >>> 1 ^^^ Config.crcPolynomial) ^^^ d >>> 1
    ac_rfl
  case true.true =>
    have htwice : Config.crcPolynomial ^^^ Config.crcPolynomial = 0#16 := BitVec.xor_self
    calc c >>> 1 ^^^ d >>> 1
      _ = c >>> 1 ^^^ d >>> 1 ^^^ (Config.crcPolynomial ^^^ Config.crcPolynomial) := by rw [htwice, BitVec.xor_zero]
      _ = (c >>> 1 ^^^ Config.crcPolynomial) ^^^ (d >>> 1 ^^^ Config.crcPolynomial) := by ac_rfl

theorem crcBits_xor (n : Nat) (c d : Half) : crcBits n (c ^^^ d) = crcBits n c ^^^ crcBits n d := by
  induction n generalizing c d with
  | zero => rfl
  | succ n ih => simp only [crcBits, crcBit_xor, ih]

theorem crcByte_xor (c d : Half) (a b : Byte) : crcByte (c ^^^ d) (a ^^^ b) = crcByte c a ^^^ crcByte d b := by
  have hwide : (a ^^^ b).zeroExtend 16 = a.zeroExtend 16 ^^^ b.zeroExtend 16 := BitVec.setWidth_xor
  simp only [crcByte, hwide, ← crcBits_xor]
  ac_rfl

/-- The registers after two sequences of equal length differ by the update of their difference over the bytewise XOR. -/
theorem crcRun_xor {s t : List Byte} (h : s.length = t.length) (c d : Half) :
    crcRun c s ^^^ crcRun d t = crcRun (c ^^^ d) (List.zipWith (· ^^^ ·) s t) := by
  induction s generalizing t c d with
  | nil =>
    obtain rfl : t = [] := List.length_eq_zero_iff.mp h.symm
    rfl
  | cons a s ih =>
    cases t with
    | nil => simp at h
    | cons b t =>
      have hrest := ih (by simpa using h) (crcByte c a) (crcByte d b)
      rwa [← crcByte_xor] at hrest

/-- Two CRCs of equal-length sequences differ by the update of the bytewise XOR from 0: the start values cancel (R145 property 1). -/
theorem crc16_xor {s t : List Byte} (h : s.length = t.length) :
    crc16 s ^^^ crc16 t = crcRun 0#16 (List.zipWith (· ^^^ ·) s t) := by
  cases s with
  | nil =>
    obtain rfl : t = [] := List.length_eq_zero_iff.mp h.symm
    rfl
  | cons a s =>
    have ht : t ≠ [] := List.ne_nil_of_length_eq_add_one h.symm
    rw [crc16_of_ne_nil (List.cons_ne_nil a s), crc16_of_ne_nil ht, crcRun_xor h, BitVec.xor_self]

/-- Settles O24: both differences are the update of the same bytewise XOR from 0. -/
theorem crcDifferenceDependsOnXorOnly : Obligations.CrcDifferenceDependsOnXorOnly := by
  intro s t s' t' h h' hxor
  rw [crc16_xor h, crc16_xor h', hxor]

/-! ## Zero bits are only shifted out -/

/-- While the bits shifted out are 0, the polynomial never enters. -/
theorem crcBits_of_low_zero {n : Nat} {c : Half} (h : ∀ i < n, c.getLsbD i = false) : crcBits n c = c >>> n := by
  induction n generalizing c with
  | zero => exact (BitVec.ushiftRight_zero c).symm
  | succ n ih =>
    have hbit : crcBit c = c >>> 1 := by rw [crcBit, h 0 n.succ_pos]; rfl
    have hrest : ∀ i < n, (c >>> 1).getLsbD i = false := fun i hi => by
      rw [BitVec.getLsbD_ushiftRight]
      exact h (1 + i) (by omega)
    rw [crcBits, hbit, ih hrest, ← BitVec.shiftRight_add, Nat.add_comm]

/-- A byte enters the low half of the register only. -/
theorem xor_zeroExtend_ushiftRight (c : Half) (b : Byte) : (c ^^^ b.zeroExtend 16) >>> 8 = c >>> 8 := by
  have hbyte : b.zeroExtend 16 >>> 8 = 0#16 := by
    apply BitVec.eq_of_toNat_eq
    simp [Nat.shiftRight_eq_div_pow]
    omega
  rw [BitVec.ushiftRight_xor_distrib, hbyte, BitVec.xor_zero]

theorem ushiftRight_eq_hi8 (c : Half) : c >>> 8 = (hi8 c).zeroExtend 16 := by
  apply BitVec.eq_of_toNat_eq
  simp [hi8, Nat.shiftRight_eq_div_pow]
  omega

/-- The register's own low byte cancels, and its high byte moves down. -/
theorem crcByte_lo8 (c : Half) : crcByte c (lo8 c) = (hi8 c).zeroExtend 16 := by
  have hlow : ∀ i < 8, (c ^^^ (lo8 c).zeroExtend 16).getLsbD i = false := fun i hi => by
    have h16 : i < 16 := by omega
    simp [lo8, hi, h16]
  rw [crcByte, crcBits_of_low_zero hlow, xor_zeroExtend_ushiftRight, ushiftRight_eq_hi8]

/-- A register run over its own trailer is cleared. -/
theorem crcRun_leBytes_self (c : Half) : crcRun c (leBytes c) = 0#16 := by
  show crcByte (crcByte c (lo8 c)) (hi8 c) = 0#16
  rw [crcByte_lo8, crcByte, BitVec.xor_self]
  rfl

/-- Settles O23: after the message the register is its CRC, which its own bytes clear. -/
theorem crcResidueIsZero : Obligations.CrcResidueIsZero := by
  intro m hm
  calc crc16 (m ++ leBytes (crc16 m))
    _ = crcRun Config.crcInitial (m ++ leBytes (crc16 m)) := crc16_of_ne_nil (List.append_ne_nil_of_left_ne_nil hm _)
    _ = crcRun (crcRun Config.crcInitial m) (leBytes (crc16 m)) := List.foldl_append
    _ = 0#16 := by rw [← crc16_of_ne_nil hm, crcRun_leBytes_self]

/-! ## The table-driven form -/

/-- The table of R142 lists 8 bit updates of every index. -/
theorem crcTable_eq : crcTable = (List.range 256).map fun i => crcBits 8 (BitVec.ofNat 16 i) := by decide +kernel

theorem getElem?_crcTable {i : Nat} (h : i < 256) : crcTable[i]? = some (crcBits 8 (BitVec.ofNat 16 i)) := by
  simp [crcTable_eq, h]

/-- Eight bit updates split, being linear: the high byte moves down, and the low byte is updated by itself (R141). -/
theorem crcBits_eight (x : Half) : crcBits 8 x = x >>> 8 ^^^ crcBits 8 (x &&& 0x00FF#16) := by
  have hlow : ∀ i < 8, (x ^^^ (x &&& 0x00FF#16)).getLsbD i = false := fun i hi => by
    have hmask : ∀ i < 8, (0x00FF#16).getLsbD i = true := by decide
    rw [BitVec.getLsbD_xor, BitVec.getLsbD_and, hmask i hi, Bool.and_true, Bool.xor_self]
  have hshift : (x ^^^ (x &&& 0x00FF#16)) >>> 8 = x >>> 8 := by
    have hmask : 0x00FF#16 >>> 8 = 0#16 := by decide
    rw [BitVec.ushiftRight_xor_distrib, BitVec.ushiftRight_and_distrib, hmask, BitVec.and_zero, BitVec.xor_zero]
  calc crcBits 8 x
    _ = crcBits 8 (x ^^^ (x &&& 0x00FF#16) ^^^ (x &&& 0x00FF#16)) := by rw [BitVec.xor_assoc, BitVec.xor_self, BitVec.xor_zero]
    _ = x >>> 8 ^^^ crcBits 8 (x &&& 0x00FF#16) := by rw [crcBits_xor, crcBits_of_low_zero hlow, hshift]

/-- One lookup makes the update of one byte (R141). -/
theorem crcByte_eq_crcByteTable (c : Half) (b : Byte) : crcByte c b = crcByteTable c b := by
  have hindex : ((c ^^^ b.zeroExtend 16) &&& 0x00FF#16).toNat < 256 := Nat.lt_of_le_of_lt Nat.and_le_right (by decide)
  rw [crcByte, crcBits_eight, xor_zeroExtend_ushiftRight, crcByteTable, List.getD_eq_getElem?_getD, getElem?_crcTable hindex,
    Option.getD_some, BitVec.ofNat_toNat, BitVec.setWidth_eq]

/-- Settles O21: the table by computation, one lookup by linearity, and the whole form byte by byte. -/
theorem tableFormEqualsBitSerial : Obligations.TableFormEqualsBitSerial := by
  refine ⟨by simp [crcTable_eq], fun i => getElem?_crcTable, crcByte_eq_crcByteTable, fun bytes => ?_⟩
  cases bytes with
  | nil => rfl
  | cons b bs => exact (List.foldl_ext _ _ _ fun c b _ => crcByte_eq_crcByteTable c b).symm

/-! ## The CRC16 command -/

variable {dp src : Bool} {s : State}

/-- CRC16 of absent or empty input (R144, R150). -/
theorem execCrc16_of_no_input (h : (src = false ∧ dp = false) ∨ s.len.toNat = 0) :
    execCrc16 dp src s = .next { s.ended .success with crc := 0 } := if_pos h

/-- CRC16 of present input past the 256 bound (R150). -/
theorem execCrc16_of_too_long (hpresent : ¬ (src = false ∧ dp = false)) (hlong : 256 < s.len.toNat) :
    execCrc16 dp src s = .next { s.ended .invalidParam with crc := 0 } :=
  (if_neg (not_or.mpr ⟨hpresent, Nat.ne_zero_of_lt hlong⟩)).trans (if_pos hlong)

/-- CRC16 of present input within the bound reads its `LEN` bytes (R150). -/
theorem execCrc16_of_input (hpresent : ¬ (src = false ∧ dp = false)) (hpos : 0 < s.len.toNat) (hmax : s.len.toNat ≤ 256) :
    execCrc16 dp src s = andThen (readBytes s (crcSource src) 0 s.len.toNat) fun bs =>
      .next { s.ended .success with crc := crc16 bs } := by
  rw [← readBytes_congr (s := s) (t := s.prologue) rfl]
  exact (if_neg (not_or.mpr ⟨hpresent, hpos.ne'⟩)).trans (if_neg (Nat.not_lt.mpr hmax))

/-- Settles O26: the command's word, then one case for each end of its meaning. -/
theorem crc16CommandRule : Obligations.Crc16CommandRule := by
  intro dp src s b absent
  refine ⟨commandWordIs_of_decode ?_, execCrc16_of_no_input, execCrc16_of_too_long, fun hpresent hpos hmax => ⟨?_, ?_⟩⟩
  · cases dp <;> cases src <;> rfl
  · intro bytes hl hheld
    have hread := readBytes_of_holds hheld
    rw [hl] at hread
    exact (execCrc16_of_input hpresent hpos hmax).trans (andThen_of_eq_next hread _)
  · intro hun
    have hread : readBytes s (crcSource src) 0 s.len.toNat = .refused .unwrittenByte := readBytes_refused (by omega) hun
    refine (execCrc16_of_input hpresent hpos hmax).trans ?_
    rw [hread, andThen_refused]

end Sys2Proof.Machine
end

section
/-! PROOFS. The frame codec (42_framer.md): the answer of BUILD, BUILD_EXC and PARSE in each case of their rules, and that PARSE gives
back what BUILD framed. -/

namespace Sys2Proof.Machine

variable {s t u : State} {dp : Bool} {p : List Byte}

/-- The words with this OP are the command it selects (R80, R81). -/
theorem commandWordIs_of_opCommand {op : Byte} {src : Bool} {i : Instr} (h : opCommand op dp src = some i) :
    CommandWordIs op.toNat dp src i := by
  intro w hw
  rw [← toNat_commandWord] at hw
  rw [BitVec.eq_of_toNat_eq hw]
  exact decode_commandWord h

/-- With an empty payload or with DP set, the data are not null (R160). -/
theorem not_nullData (h : s.len.toNat = 0 ∨ dp = true) : ¬ (0 < s.len.toNat ∧ dp = false) := by
  rintro ⟨hpos, rfl⟩
  rcases h with h0 | hdp
  · exact hpos.ne' h0
  · cases hdp

/-! ## BUILD and BUILD_EXC -/

/-- BUILD checks the station address first (R160). -/
theorem execBuild_of_bad_station (haddr : ¬ StationValid s.addr) :
    execBuild dp s = .next (s.ended .invalidAddress) :=
  if_pos ((validAddr_false_iff _).mpr haddr)

/-- Past the station address BUILD checks the data, the capacity, and reads the payload (R160). -/
theorem execBuild_of_station (haddr : StationValid s.addr) :
    execBuild dp s =
      if 0 < s.len.toNat ∧ dp = false then .next (s.ended .nullPointer)
      else if s.effCap < s.len.toNat + 4 then .next (s.ended .invalidParam)
      else andThen (readBytes s .data 0 s.len.toNat) fun p => .next (s.built s.func p s.rlen) := by
  simp only [← finish_storeFrame, ← readBytes_congr (s := s) (t := s.prologue) rfl]
  exact if_neg fun hf => (validAddr_false_iff _).mp hf haddr

/-- BUILD with data and room for the frame reads its payload and frames it (R160). -/
theorem execBuild_of_fits (haddr : StationValid s.addr) (hdata : s.len.toNat = 0 ∨ dp = true)
    (hfits : s.len.toNat + 4 ≤ s.effCap) :
    execBuild dp s = andThen (readBytes s .data 0 s.len.toNat) fun p => .next (s.built s.func p s.rlen) := by
  rw [execBuild_of_station haddr, if_neg (not_nullData hdata), if_neg (Nat.not_lt.mpr hfits)]

/-- What a builder leaves on Success is the frame of its payload (R130). -/
theorem buildsFrame_built (s : State) (f : Byte) (p : List Byte) (rl : Len) :
    BuildsFrame (.next (s.built f p rl)) s s.addr f p rl := ⟨_, rfl, Memory.stored_writeAll _ _ _⟩

/-- BUILD_EXC with a valid station frames the exception response (R165). -/
theorem execBuildExc_of_station (haddr : StationValid s.addr) :
    execBuildExc s = .next (s.built (s.func ||| 0x80#8) [s.exc] s.rlen) := by
  rw [← finish_storeFrame]
  exact if_neg fun hf => (validAddr_false_iff _).mp hf haddr

/-- Settles O27: one case for each check of BUILD, then the read of its payload. -/
theorem buildRule : Obligations.BuildRule := by
  intro dp src s
  refine ⟨commandWordIs_of_opCommand (op := 0x02) rfl, execBuild_of_bad_station, fun haddr hpos hdp => ?_,
    fun haddr hdata hroom => ?_, fun haddr hdata hfits => ⟨fun p hlen hheld => ?_, fun hun => ?_⟩⟩
  · exact (execBuild_of_station haddr).trans (if_pos ⟨hpos, hdp⟩)
  · exact (execBuild_of_station haddr).trans ((if_neg (not_nullData hdata)).trans (if_pos hroom))
  · have hread := readBytes_of_holds hheld
    rw [hlen] at hread
    have hbuilt : exec (.build dp src) s = .next (s.built s.func p s.rlen) :=
      (execBuild_of_fits haddr hdata hfits).trans (by rw [hread, andThen_next])
    exact hbuilt ▸ buildsFrame_built s s.func p s.rlen
  · have hread : readBytes s .data 0 s.len.toNat = .refused .unwrittenByte := readBytes_refused (by omega) hun
    exact (execBuild_of_fits haddr hdata hfits).trans (by rw [hread, andThen_refused])

/-- Settles O28: the address check, then the exception response. -/
theorem buildExcRule : Obligations.BuildExcRule := by
  intro dp src s
  refine ⟨commandWordIs_of_opCommand (op := 0x03) rfl, fun haddr => if_pos ((validAddr_false_iff _).mpr haddr), fun haddr => ?_⟩
  have hbuilt : exec (.buildExc dp src) s = .next (s.built (s.func ||| 0x80#8) [s.exc] s.rlen) := execBuildExc_of_station haddr
  exact hbuilt ▸ buildsFrame_built s _ _ s.rlen

/-! ## PARSE -/

/-- PARSE stores a received payload when it fits the capacity, and reports InvalidParam otherwise (R170). -/
theorem execParse_of_received (hf : s.func.toNat < 0x80) (hr : s.Received s.func p) :
    execParse s =
      if s.effCap < p.length then .next (s.endedParse .invalidParam)
      else .next { s.endedParse .success with olen := BitVec.ofNat 9 p.length, mem := Memory.writeAll s.mem 0x200 p } := by
  rw [execParse_eq, parsePath_payload _ (ne_flagged hf) hr]
  rfl

/-- Settles O29: the ends that Deframe decides, then the capacity check of a received payload. -/
theorem parseRule : Obligations.ParseRule := by
  intro dp src s
  refine ⟨commandWordIs_of_opCommand (op := 0x04) rfl, parsePath_ends s s.func _, fun p hf hr => ⟨fun hlong => ?_, fun hfits => ?_⟩⟩
  · exact (execParse_of_received hf hr).trans (if_pos hlong)
  · exact ⟨_, (execParse_of_received hf hr).trans (if_neg (Nat.not_lt.mpr hfits)), Memory.stored_writeAll _ _ _⟩

/-! ## PARSE after BUILD -/

/-- The length of a frame or payload fits OLEN and LEN (R90, R20). -/
theorem toNat_len {n : Nat} (h : n ≤ 256) : (BitVec.ofNat 9 n).toNat = n :=
  Nat.mod_eq_of_lt (by omega)

/-- A function byte that already has the exception flag is itself with the flag set (R92). -/
theorem flagged_eq_self {f : Byte} (h : 0x80 ≤ f.toNat) : f ||| 0x80#8 = f := by
  have hflag : f.getLsbD 7 = true := by
    rw [← BitVec.msb_eq_getLsbD_last, BitVec.msb_eq_decide]
    simpa using h
  refine BitVec.eq_of_getLsbD_eq fun i _ => ?_
  rw [BitVec.getLsbD_or, show 0x80#8 = BitVec.twoPow 8 7 from rfl, BitVec.getLsbD_twoPow]
  by_cases hi : i = 7
  · rw [hi, hflag, Bool.true_or]
  · simp [Ne.symm hi]

/-- After a successful BUILD of the held payload, its frame is received wherever FRAME, ADDR and LEN agree (R160, R127). -/
theorem received_of_build (h : execBuild dp s = .next t) (hcode : t.status.code = .success) (hlen : p.length = s.len.toNat)
    (hheld : s.Holds .data 0 p) (hl : u.len = t.olen) (ha : u.addr = s.addr) (hsame : ∀ i, u.byteAt .frame i = t.byteAt .frame i) :
    u.Received s.func p := by
  rcases execBuild_next h with ⟨c, hc, rfl⟩ | ⟨q, -, hfits, hq, hqheld, rfl⟩
  case inl =>
    obtain rfl : c = .success := hcode
    simp at hc
  have hqp : q = p := holds_unique hqheld hheld (hq.trans hlen.symm)
  subst hqp
  have hcap : s.effCap ≤ 256 := Nat.min_le_right _ _
  have hlen' : u.len.toNat = q.length + 4 := hl ▸ toNat_len (by omega)
  refine ⟨hlen'.symm, by omega, holds_of_same_bytes hsame ?_⟩
  rw [ha]
  exact holds_built s s.func s.rlen (by omega)

/-- Settles O30: the frame BUILD left is received, so PARSE stores its payload, or reports it when the function byte has the
exception flag. -/
theorem buildThenParseGivesPayload : Obligations.BuildThenParseGivesPayload := by
  intro dp src dp' src' s t u p h hcode hlen hheld hl ha hf hcap hsame
  have hr : u.Received u.func p := hf ▸ received_of_build h hcode hlen hheld hl ha hsame
  have ⟨hframe, hmax, _⟩ := hr
  rw [← hf]
  rcases Nat.lt_or_ge u.func.toNat 0x80 with hlow | hhigh
  · have hfits : ¬ u.effCap < p.length := Nat.not_lt.mpr (le_min hcap (show p.length ≤ 256 by omega))
    refine ⟨_, (execParse_of_received hlow hr).trans (if_neg hfits), fun _ => ⟨rfl, ?_, toNat_len (by omega)⟩, fun hhigh => by omega⟩
    exact holds_of_stored (s := u) (Memory.stored_writeAll _ _ _) (by omega)
  · obtain ⟨-, -, -, hexc, -⟩ := parsePath_ends u u.func _
    exact ⟨_, hexc p ((flagged_eq_self hhigh).symm ▸ hr), fun hlow => by omega, fun _ => rfl⟩

end Sys2Proof.Machine
end

section
/-! PROOFS. The master side's payload codecs (43_master_payload.md): the answer of each REQ_* and RSP_* command in each case of its
rule. -/

namespace Sys2Proof.Machine

variable {s : State} {dp : Bool} {p : List Byte}

/-- A command that checks the station address first goes on with a valid one. -/
theorem if_validAddr (haddr : StationValid s.addr) (x y : Result State) : (if validAddr s.addr = false then x else y) = y :=
  if_neg fun hf => (validAddr_false_iff _).mp hf haddr

/-- A command that checks the station address first ends with one that is not valid. -/
theorem if_not_validAddr (haddr : ¬ StationValid s.addr) (x y : Result State) :
    (if validAddr s.addr = false then x else y) = x :=
  if_pos ((validAddr_false_iff _).mpr haddr)

/-- A command ends with a count outside its range. -/
theorem if_not_countWithin {limit : Nat} (hcount : s.count.toNat < 1 ∨ limit < s.count.toNat) (x y : Result State) :
    (if countWithin limit s = false then x else y) = x :=
  if_pos ((countWithin_false_iff _ _).mpr hcount)

/-- A command that answers `built` builds its frame (R130). -/
theorem buildsFrame_of_eq {r : Result State} {f : Byte} {rl : Len} (h : r = .next (s.built f p rl)) :
    BuildsFrame r s s.addr f p rl := h ▸ buildsFrame_built s f p rl

/-- A command that takes the PARSE family's common path has the ends that Deframe decides (R127). -/
theorem deframeEnds_of_eq {r : Result State} {ef : Byte} {k : List Byte → Result State} (h : r = parsePath s ef k) :
    DeframeEnds r s ef := h ▸ parsePath_ends s ef k

/-! ## The requests -/

/-- REQ_RHR is its two checks and the frame of the request (R190). -/
theorem execReqRhr_eq (s : State) : execReqRhr s =
    if validAddr s.addr = false then .next (s.endedRequest .invalidAddress)
    else if countWithin 125 s = false then .next (s.endedRequest .invalidParam)
    else .next (s.built 0x03#8 (beBytes s.regAddr ++ beBytes s.count) (BitVec.ofNat 9 (5 + 2 * s.count.toNat))) := by
  rw [← finish_storeFrame]
  rfl

/-- REQ_WSR is its check and the frame of the request (R195). -/
theorem execReqWsr_eq (s : State) : execReqWsr s =
    if validAddr s.addr = false then .next (s.endedRequest .invalidAddress)
    else .next (s.built 0x06#8 (beBytes s.regAddr ++ beBytes s.value) 8#9) := by
  rw [← finish_storeFrame]
  rfl

/-- REQ_WMR is its three checks, the read of the register values, and the frame of the request (R200). -/
theorem execReqWmr_eq (dp : Bool) (s : State) : execReqWmr dp s =
    if validAddr s.addr = false then .next (s.endedRequest .invalidAddress)
    else if dp = false then .next (s.endedRequest .nullPointer)
    else if countWithin 123 s = false then .next (s.endedRequest .invalidParam)
    else andThen (readRegs s.count.toNat s) fun vs =>
      .next (s.built 0x10#8 (writeMultiplePayload s.regAddr s.count vs) 8#9) := by
  simp only [← finish_storeFrame, ← readRegs_congr (s := s) (t := s.requestStart) rfl]
  rfl

/-- REQ_WMR with its checks passed reads the register values and frames them (R200). -/
theorem execReqWmr_of_checks (haddr : StationValid s.addr) (hdp : dp = true) (h1 : 1 ≤ s.count.toNat)
    (h123 : s.count.toNat ≤ 123) :
    execReqWmr dp s = andThen (readRegs s.count.toNat s) fun vs =>
      .next (s.built 0x10#8 (writeMultiplePayload s.regAddr s.count vs) 8#9) := by
  rw [execReqWmr_eq, if_validAddr haddr, if_neg (by simp [hdp]), if_countWithin h1 h123]

/-- Register values with an unwritten byte among theirs are refused. -/
theorem readRegs_refused {n : Nat} (hn : n ≤ 128) (hun : s.SomeUnwritten .data 0 (2 * n)) :
    readRegs n s = .refused .unwrittenByte := by
  rw [readRegs, readBytes_refused (by omega) hun, andThen_refused]

/-- Settles O31: the two checks of REQ_RHR, then its frame. -/
theorem reqRhrRule : Obligations.ReqRhrRule := by
  intro dp src s
  refine ⟨commandWordIs_of_opCommand (op := 0x10) rfl, fun haddr => ?_, fun haddr hcount => ?_, fun haddr h1 h125 => ?_⟩
  · exact (execReqRhr_eq s).trans (if_not_validAddr haddr _ _)
  · exact (execReqRhr_eq s).trans ((if_validAddr haddr _ _).trans (if_not_countWithin hcount _ _))
  · exact buildsFrame_of_eq ((execReqRhr_eq s).trans ((if_validAddr haddr _ _).trans (if_countWithin h1 h125 _ _)))

/-- Settles O32: the check of REQ_WSR, then its frame. -/
theorem reqWsrRule : Obligations.ReqWsrRule := by
  intro dp src s
  refine ⟨commandWordIs_of_opCommand (op := 0x11) rfl, fun haddr => ?_, fun haddr => ?_⟩
  · exact (execReqWsr_eq s).trans (if_not_validAddr haddr _ _)
  · exact buildsFrame_of_eq ((execReqWsr_eq s).trans (if_validAddr haddr _ _))

/-- Settles O33: the three checks of REQ_WMR in their order, then the read of the register values. -/
theorem reqWmrRule : Obligations.ReqWmrRule := by
  intro dp src s
  refine ⟨commandWordIs_of_opCommand (op := 0x12) rfl, fun haddr => ?_, fun haddr hdp => ?_, fun haddr hdp hcount => ?_,
    fun haddr hdp h1 h123 => ⟨fun vs hlen hheld => ?_, fun hun => ?_⟩⟩
  · exact (execReqWmr_eq dp s).trans (if_not_validAddr haddr _ _)
  · exact (execReqWmr_eq dp s).trans ((if_validAddr haddr _ _).trans (if_pos hdp))
  · exact (execReqWmr_eq dp s).trans ((if_validAddr haddr _ _).trans
      ((if_neg (by simp [hdp])).trans (if_not_countWithin hcount _ _)))
  · have hread : readRegs s.count.toNat s = .next vs := (readRegs_eq_next (by omega)).mpr ⟨hlen, hheld⟩
    exact buildsFrame_of_eq ((execReqWmr_of_checks haddr hdp h1 h123).trans (andThen_of_eq_next hread _))
  · refine (execReqWmr_of_checks haddr hdp h1 h123).trans ?_
    rw [readRegs_refused (by omega) hun, andThen_refused]

/-! ## The responses -/

/-- RSP_RHR with an admitted count refuses a received payload whose length or byte-count does not answer COUNT (R205). -/
theorem execRspRhr_of_mismatch (h1 : 1 ≤ s.count.toNat) (h125 : s.count.toNat ≤ 125) (hr : s.Received 0x03#8 p)
    (hp : p.length ≠ 1 + 2 * s.count.toNat ∨ (p.getD 0 0).toNat ≠ 2 * s.count.toNat) :
    execRspRhr s = .next (s.endedParse .invalidResponse) := by
  rw [execRspRhr_eq, if_countWithin h1 h125, parsePath_payload _ (by decide) hr]
  split
  case isTrue => rfl
  case isFalse hlen => exact if_pos (hp.resolve_left hlen)

/-- Settles O34: the count, the ends that Deframe decides, then the length and byte-count of a received payload. -/
theorem rspRhrRule : Obligations.RspRhrRule := by
  intro dp src s
  refine ⟨commandWordIs_of_opCommand (op := 0x13) rfl, fun hcount => ?_, fun h1 h125 => ⟨?_, fun p hr => ⟨fun hlen => ?_, ?_, ?_⟩⟩⟩
  · exact (execRspRhr_eq s).trans (if_not_countWithin hcount _ _)
  · exact deframeEnds_of_eq ((execRspRhr_eq s).trans (if_countWithin h1 h125 _ _))
  · exact execRspRhr_of_mismatch h1 h125 hr (.inl hlen)
  · rintro bc rest rfl - hbc
    exact execRspRhr_of_mismatch h1 h125 hr (.inr hbc)
  · rintro bc vs rfl hlen hbc
    exact ⟨_, execRspRhr_of_received h1 h125 hlen.symm (hlen ▸ hbc) hr, Memory.stored_writeAll _ _ _⟩

/-- Settles O35: the ends that Deframe decides, then the comparison of a received payload with the operands. -/
theorem rspWsrRule : Obligations.RspWsrRule := by
  intro dp src s
  refine ⟨commandWordIs_of_opCommand (op := 0x14) rfl, parsePath_ends s _ _, fun p hr => ⟨fun hne => ?_, fun heq => ?_⟩⟩
  · exact (execRspWsr_of_received hr).trans (by rw [if_neg hne])
  · exact (execRspWsr_of_received hr).trans (by rw [if_pos heq])

/-- Settles O36: the count, the ends that Deframe decides, then the comparison of a received payload with the operands. -/
theorem rspWmrRule : Obligations.RspWmrRule := by
  intro dp src s
  refine ⟨commandWordIs_of_opCommand (op := 0x15) rfl, fun hcount => ?_, fun h1 h123 =>
    ⟨?_, fun p hr => ⟨fun hne => ?_, fun heq => ?_⟩⟩⟩
  · exact (execRspWmr_eq s).trans (if_not_countWithin hcount _ _)
  · exact deframeEnds_of_eq ((execRspWmr_eq s).trans (if_countWithin h1 h123 _ _))
  · exact (execRspWmr_of_received h1 h123 hr).trans (by rw [if_neg hne])
  · exact (execRspWmr_of_received h1 h123 hr).trans (by rw [if_pos heq])

end Sys2Proof.Machine
end

section
/-! PROOFS. Every step keeps the invariant (44_slave.md R245; 10_state.md R23, R26, R29; 30_encoding.md R86): which parts of the state
it looks at, what an end of a command leaves of it, and from them each command, each host action and the step. -/

namespace Sys2Proof.Machine

variable {s t : State} {c : Status}

/-! ## Memory -/

/-- Memory in canonical form and inside the buffers (R26). -/
def MemoryInv (m : List Host.Cell) : Prop := Memory.wf m = true ∧ Memory.inBuffers m

theorem Inv.memory (h : Inv s) : MemoryInv s.mem := ⟨h.memWf, h.memInBuffers⟩

/-- Bytes stored inside the buffers keep memory so. -/
theorem MemoryInv.writeAll {m : List Host.Cell} {a : Nat} {bs : List Byte} (h : MemoryInv m) (ha : 0x100 ≤ a)
    (hb : a + bs.length ≤ 0x300) : MemoryInv (Memory.writeAll m a bs) :=
  ⟨Memory.wf_writeAll a bs h.1, Memory.inBuffers_writeAll h.2 ha hb⟩

/-! ## The parts the invariant looks at -/

/-- The cycle invariant looks at INIT, SPHASE, LOCAL, NEED and SFUNC. -/
theorem CycleInv.congr (h : CycleInv s) (hinit : t.status.init = s.status.init) (hphase : t.status.sphase = s.status.sphase)
    (hlocal : t.localAddr = s.localAddr) (hneed : t.need = s.need) (hsfunc : t.sfunc = s.sfunc) : CycleInv t where
  awaitCount := by rw [hphase, hsfunc, hneed]; exact h.awaitCount
  awaitBody := by rw [hphase, hsfunc, hneed]; exact h.awaitBody
  configured := by rw [hphase, hinit]; exact h.configured
  boundValid := by rw [hinit, hlocal]; exact h.boundValid

/-- STATUS, LOCAL, NEED and SFUNC are the same. -/
def KeepsStatusAndCycle (s t : State) : Prop :=
  t.status = s.status ∧ t.localAddr = s.localAddr ∧ t.need = s.need ∧ t.sfunc = s.sfunc

/-- So it is where an update writes none of these fields. -/
theorem KeepsStatusAndCycle.refl (s : State) : KeepsStatusAndCycle s s := ⟨rfl, rfl, rfl, rfl⟩

/-- An update of the other fields keeps the invariant when memory and RLEN stay in bounds. -/
theorem Inv.update (h : Inv s) (hkeep : KeepsStatusAndCycle s t) (hmem : MemoryInv t.mem) (hrlen : t.rlen.toNat ≤ 255) :
    Inv t := by
  obtain ⟨hstatus, hlocal, hneed, hsfunc⟩ := hkeep
  refine ⟨hmem.1, hmem.2, h.cycle.congr (by rw [hstatus]) (by rw [hstatus]) hlocal hneed hsfunc, ?_, hrlen⟩
  exact ⟨hstatus ▸ h.status.excFlag, hstatus ▸ h.status.codePresent, hstatus ▸ h.status.neverInstance,
    hstatus ▸ h.status.neverTimeout⟩

/-! ## The ends of a command -/

/-- A code that a command ends with when it reports no exception (R86, R129). -/
abbrev PlainCode (c : Status) : Prop := c ∉ [Status.exception, .invalidInstance, .timeout]

/-- Codes of a list of plain codes are plain. -/
theorem plainCode_of_mem {cs : List Status} (hc : c ∈ cs) (hcs : ∀ c ∈ cs, PlainCode c := by decide) : PlainCode c := hcs c hc

theorem plainCode_success : PlainCode .success := by decide

/-- A plain code with the exception flags cleared (R121). -/
theorem statusInv_of_plain (hisExc : t.status.isExc = false) (hexcp : t.status.excp = false) (hc : PlainCode t.status.code) :
    StatusInv t := by
  simp only [PlainCode, List.mem_cons, List.not_mem_nil, or_false, not_or] at hc
  obtain ⟨hexc, hinst, htimeout⟩ := hc
  exact ⟨by simp [hisExc, hexc], by simp [hexcp], hinst, htimeout⟩

/-- An end that only moves the slave's cycle keeps the rest of the invariant. -/
theorem Inv.of_cycle (h : Inv s) (hcycle : CycleInv t) (hstatus : StatusInv t) (hmem : t.mem = s.mem := by rfl)
    (hrlen : t.rlen = s.rlen := by rfl) : Inv t :=
  ⟨hmem ▸ h.memWf, hmem ▸ h.memInBuffers, hcycle, hstatus, hrlen ▸ h.rlenBound⟩

/-- An end right after the prologue with a plain code. -/
theorem Inv.ended (h : Inv s) (hc : PlainCode c := by decide) : Inv (s.ended c) :=
  h.of_cycle (h.cycle.congr rfl rfl rfl rfl rfl) (statusInv_of_plain rfl rfl hc)

/-- A REQ_* command that builds no frame. -/
theorem Inv.endedRequest (h : Inv s) (hc : PlainCode c := by decide) : Inv (s.endedRequest c) :=
  (h.ended hc).update (.refl _) h.memory (Nat.zero_le _)

/-- A builder's success: the frame is inside FRAME, and RLEN within a frame (R102, R130). -/
theorem Inv.built (h : Inv s) {f : Byte} {p : List Byte} {rl : Len} (hp : p.length + 4 ≤ 256) (hrl : rl.toNat ≤ 255) :
    Inv (s.built f p rl) :=
  h.ended.update (.refl _) (h.memory.writeAll (by decide) (by rw [length_wireFrame]; omega)) hrl

/-- An end of the PARSE family with a plain code. -/
theorem Inv.endedParse (h : Inv s) (hc : PlainCode c := by decide) : Inv (s.endedParse c) :=
  (h.ended hc).update (.refl _) h.memory h.rlenBound

/-- An end of the PARSE family that uses no payload, an exception's among them (R129). -/
theorem Inv.of_parseFails (h : Inv s) (hfail : ParseFails s t) : Inv t := by
  rcases hfail with ⟨c, hc, rfl⟩ | ⟨ec, rfl⟩
  · exact h.endedParse (plainCode_of_mem hc)
  · exact h.of_cycle (h.cycle.congr rfl rfl rfl rfl rfl) ⟨by simp, by simp, by simp, by simp⟩

/-- A success of the PARSE family that stores bytes inside DATA. -/
theorem Inv.storedPayload (h : Inv s) {bs : List Byte} {o : Len} (hb : bs.length ≤ 256) :
    Inv { s.endedParse .success with olen := o, mem := Memory.writeAll s.mem 0x200 bs } :=
  h.endedParse.update (.refl _) (h.memory.writeAll (by decide) (by omega)) h.rlenBound

/-! ## The slave's cycle -/

/-- No cycle runs, and a bound station is valid. -/
theorem cycleInv_of_idle (hphase : t.status.sphase = .idle) (hbound : t.status.init = true → StationValid t.localAddr) :
    CycleInv t where
  awaitCount h := nomatch hphase.symm.trans h
  awaitBody h := nomatch hphase.symm.trans h
  configured h := absurd hphase h
  boundValid := hbound

/-- A cycle ends with a plain code (R233, R236, R240). -/
theorem Inv.endedIdle (h : Inv s) {f : Byte} {n : Len} (hc : PlainCode c := by decide) :
    Inv { s.endedIn c .idle with sfunc := f, need := n } :=
  h.of_cycle (cycleInv_of_idle rfl h.cycle.boundValid) (statusInv_of_plain rfl rfl hc)

/-- A cycle goes on to the count of a Write Multiple Registers request (R233). -/
theorem Inv.awaitingCount (h : Inv s) (hinit : s.status.init = true) : Inv s.awaitingCount :=
  h.of_cycle ⟨fun _ => ⟨rfl, rfl⟩, nofun, fun _ => hinit, h.cycle.boundValid⟩ (statusInv_of_plain rfl rfl plainCode_success)

/-- A cycle goes on to the body of a request, NEED being the length of the function's form (R233, R236). -/
theorem Inv.awaitingBody (h : Inv s) {f : Byte} {n : Len} (hinit : s.status.init = true)
    (hneed : ((f = 0x03#8 ∨ f = 0x06#8) ∧ n.toNat = 8) ∨ (f = 0x10#8 ∧ ∃ k, k ≤ 123 ∧ n.toNat = 9 + 2 * k)) :
    Inv (s.awaitingBody f n) :=
  h.of_cycle ⟨nofun, fun _ => hneed, fun _ => hinit, h.cycle.boundValid⟩ (statusInv_of_plain rfl rfl plainCode_success)

/-- S_INIT binds only a valid station (R231). -/
theorem execSInit_inv (h : Inv s) (he : execSInit s = .next t) : Inv t := by
  rcases execSInit_next he with ⟨-, rfl⟩ | ⟨hvalid, rfl⟩
  · exact h.ended
  · exact h.of_cycle (cycleInv_of_idle rfl fun _ => hvalid) (statusInv_of_plain rfl rfl plainCode_success)

/-- S_HDR ends the cycle, or goes on with the NEED of the function byte it latches (R233). -/
theorem execSHdr_inv (h : Inv s) (he : execSHdr s = .next t) : Inv t := by
  rcases execSHdr_next he with ⟨-, rfl⟩ | ⟨-, _, -, -, rfl⟩ | ⟨hinit, -, f, -, ⟨hf, rfl⟩ | ⟨rfl, rfl⟩ | ⟨-, rfl⟩⟩
  · exact h.ended
  · exact h.endedIdle (f := s.sfunc)
  · exact h.awaitingBody hinit (.inl ⟨hf, rfl⟩)
  · exact h.awaitingCount hinit
  · exact h.endedIdle

/-- S_CNT ends the cycle, or goes on with the NEED of an admitted count; SFUNC is then 0x10 by the invariant (R236). -/
theorem execSCnt_inv (h : Inv s) (he : execSCnt s = .next t) : Inv t := by
  rcases execSCnt_next he with ⟨-, rfl⟩ | ⟨-, rfl⟩ | ⟨hinit, hphase, n, -, ⟨-, rfl⟩ | ⟨h123, rfl⟩⟩
  · exact h.ended
  · exact h.ended
  · exact h.endedIdle (f := s.sfunc)
  · obtain ⟨hsfunc, -⟩ := h.cycle.awaitCount hphase
    exact h.awaitingBody (f := s.sfunc) hinit (.inr ⟨hsfunc, n.toNat, h123, Nat.mod_eq_of_lt (by omega)⟩)

/-- S_BODY ends the cycle; a register view of at most 128 values is inside DATA (R240; log 21). -/
theorem execSBody_inv (h : Inv s) (he : execSBody s = .next t) : Inv t := by
  have hidle (c : Status) (hc : PlainCode c) : Inv (s.endedIn c .idle) := h.endedIdle (f := s.sfunc) (n := s.need) hc
  have hdone : Inv (s.endedIn .success .idle) := hidle .success (by decide)
  rcases execSBody_next he with ⟨-, rfl⟩ | ⟨-, rfl⟩ |
    ⟨-, -, rfl | ⟨_, -, ⟨-, _, -, rfl⟩ | ⟨-, _, -, rfl⟩ | ⟨-, _, _, vs, -, hl, rfl⟩ | ⟨-, rfl⟩⟩⟩
  · exact h.ended
  · exact h.ended
  · exact hidle .crcError (by decide)
  · exact hdone.update (.refl _) h.memory h.rlenBound
  · exact hdone.update (.refl _) h.memory h.rlenBound
  · exact hdone.update (.refl _) (h.memory.writeAll (by decide) (by rw [length_viewRegs]; omega)) h.rlenBound
  · exact hdone.update (.refl _) h.memory h.rlenBound

/-! ## Every instruction -/

/-- Arriving bytes are placed inside the buffers (R110; log 16). -/
theorem Inv.fillFrame (h : Inv s) (bytes : List Byte) : Inv (fillFrame bytes s) :=
  h.update (.refl s) (h.memory.writeAll (by decide) (Nat.add_le_add_left (List.length_take_le _ bytes) 0x100)) h.rlenBound

/-- Every instruction keeps the invariant: its next states, case by case. -/
theorem exec_inv {i : Instr} (h : Inv s) (he : exec i s = .next t) : Inv t := by
  cases i
  case crc16 =>
    rcases execCrc16_next he with ⟨-, rfl⟩ | ⟨-, rfl⟩ | ⟨_, -, -, rfl⟩ <;> exact h.ended.update (.refl _) h.memory h.rlenBound
  case build =>
    rcases execBuild_next he with ⟨c, hc, rfl⟩ | ⟨p, -, hcap, hp, -, rfl⟩
    · exact h.ended (plainCode_of_mem hc)
    · exact h.built (hp ▸ hcap.trans (Nat.min_le_right _ _)) h.rlenBound
  case buildExc =>
    rcases execBuildExc_next he with rfl | ⟨-, rfl⟩
    · exact h.ended
    · exact h.built (by simp) h.rlenBound
  case reqRhr =>
    rcases execReqRhr_next he with ⟨c, hc, rfl⟩ | ⟨-, -, h125, rfl⟩
    · exact h.endedRequest (plainCode_of_mem hc)
    · exact h.built (by simp) (by rw [toNat_len (by omega)]; omega)
  case reqWsr =>
    rcases execReqWsr_next he with rfl | ⟨-, rfl⟩
    · exact h.endedRequest
    · exact h.built (by simp) (by decide)
  case reqWmr =>
    rcases execReqWmr_next he with ⟨c, hc, rfl⟩ | ⟨vs, -, -, h123, hl, -, rfl⟩
    · exact h.endedRequest (plainCode_of_mem hc)
    · exact h.built (by simp [writeMultiplePayload]; omega) (by decide)
  case parse =>
    rcases execParse_next he with hfail | ⟨p, -, hcap, rfl⟩
    · exact h.of_parseFails hfail
    · exact h.storedPayload (hcap.trans (Nat.min_le_right _ _))
  case rspRhr =>
    rcases execRspRhr_next he with hfail | ⟨_, vs, h125, hl, -, rfl⟩
    · exact h.of_parseFails hfail
    · exact h.storedPayload (by rw [length_viewRegs]; omega)
  case rspWsr =>
    rcases execRspWsr_next he with hfail | ⟨-, rfl⟩
    · exact h.of_parseFails hfail
    · exact h.endedParse
  case rspWmr =>
    rcases execRspWmr_next he with hfail | ⟨-, rfl⟩
    · exact h.of_parseFails hfail
    · exact h.endedParse
  case sInit => exact execSInit_inv h he
  case sHdr => exact execSHdr_inv h he
  case sCnt => exact execSCnt_inv h he
  case sBody => exact execSBody_inv h he
  all_goals
    rw [exec_of_frame rfl] at he
    cases he
    exact h.fillFrame _

/-! ## Every step -/

/-- The buffers are the offsets 0x100..0x2FF (R60). -/
theorem base_bounds (b : Buffer) : 0x100 ≤ b.base ∧ b.base + 256 ≤ 0x300 := by cases b <;> decide

theorem length_busBytes (n : Nat) (v : Word) : (busBytes n v).length = n := by simp [busBytes]

/-- A host write keeps the invariant: it runs a command, writes an operand, or stores inside a buffer (R61, R62). -/
theorem busWrite_inv {off : Nat} {n : Width} {v : Word} (h : Inv s) (hw : busWrite off n v s = .next t) : Inv t := by
  rcases busWrite_next hw with ⟨-, -, hw⟩ | ⟨r, hr, -, -, hw⟩ | ⟨b, i, hplace, halign, rfl⟩ | rfl
  · rcases runCommand_next hw with ⟨i, -, he⟩ | rfl
    · exact exec_inv h he
    · exact h.ended
  · obtain ⟨hstatus, -, -, hrlen, hlocal, hneed, hsfunc, -⟩ := writeReg_keepsResults hr hw
    obtain ⟨hmem, -⟩ := writeReg_keeps_memory_and_host hr hw
    exact h.update ⟨hstatus, hlocal, hneed, hsfunc⟩ (hmem ▸ h.memory) (hrlen ▸ h.rlenBound)
  · obtain ⟨rfl, hi⟩ := placeOf_eq_buffer hplace
    have hfits : i + n.bytes ≤ 256 := add_bytes_le_of_aligned hi (by rwa [add_mod_bytes (base_mod_four b)] at halign)
    refine h.update (.refl s) (h.memory.writeAll ?_ ?_) h.rlenBound
    · exact (base_bounds b).1.trans (Nat.le_add_right _ _)
    · have hbase := (base_bounds b).2
      rw [length_busBytes]
      omega
  · exact h

/-- A host action keeps the invariant. -/
theorem perform_inv {a : HostAction} (h : Inv s) (hp : perform a s = .next t) : Inv t := by
  cases a with
  | read addr n =>
    obtain ⟨vs, rfl⟩ := perform_read_next hp
    exact h.update (.refl s) h.memory h.rlenBound
  | write addr n v =>
    cases hoff : s.windowOffset addr with
    | none =>
      rw [perform_write_outside hoff] at hp
      cases hp
      exact h
    | some off =>
      rw [perform_write_inside hoff] at hp
      exact busWrite_inv h hp
  | frame d bytes =>
    simp only [perform, receiveFrame] at hp
    split at hp
    case h_1 => exact exec_inv h hp
    case h_2 => cases hp; exact h.fillFrame bytes
  | reset =>
    cases hp
    exact inv_reset.with_host s.baseSlot s.performed s.pending s.replies

/-- Settles O45: a step performs the oldest action, if there is one, on a state that differs in the host's side alone. -/
theorem everyStepKeepsInvariant : Obligations.EveryStepKeepsInvariant := by
  intro s t h hs
  cases hp : s.pending with
  | nil =>
    simp only [step, performNext, hp] at hs
    cases hs
    exact h
  | cons a rest =>
    rw [step_of_pending hp] at hs
    exact perform_inv (h.with_host s.baseSlot (s.performed + 1) rest s.replies) hs

end Sys2Proof.Machine
end

section
/-! PROOFS. The slave request deframer (44_slave.md): the answer of S_INIT, S_HDR, S_CNT and S_BODY in each case of their rules, and that
S_HDR depends on two bytes of memory. -/

namespace Sys2Proof.Machine

variable {s : State} {x y : Result State}

/-! ## The checks before a read -/

/-- A slave command goes on once a station is bound (R231). -/
theorem if_init (hinit : s.status.init = true) : (if s.status.init = false then x else y) = y :=
  if_neg (by simp [hinit])

/-- A slave command goes on in the phase it belongs to (R236, R240). -/
theorem if_phase {p : Phase} (hphase : s.status.sphase = p) : (if s.status.sphase ≠ p then x else y) = y :=
  if_neg (not_not.mpr hphase)

/-- A command is refused for an unwritten byte on its path (R123). -/
theorem exec_refused_of_unwritten {i : Instr} {b : Buffer} {k : Nat} (hk : k < 256) (hread : readsOnPath i s b k)
    (hun : s.byteAt b k = none) : exec i s = .refused .unwrittenByte :=
  (refusedExactlyForUnwrittenOnPath i s _).mpr ⟨rfl, b, k, hk, hread, hun⟩

/-! ## S_INIT -/

/-- Settles O38: the check of the station address, then its binding. -/
theorem sInitRule : Obligations.SInitRule := by
  intro dp src s
  exact ⟨commandWordIs_of_opCommand (op := 0x20) rfl, fun haddr => if_not_validAddr haddr _ _,
    fun haddr => if_validAddr haddr _ _⟩

/-! ## S_HDR -/

/-- What S_HDR answers to the function byte of the bound station's frame (R233). -/
def headerAnswer (f : Byte) (s : State) : Result State :=
  if f = 0x03#8 ∨ f = 0x06#8 then .next (s.awaitingBody f 8)
  else if f = 0x10#8 then .next { s.endedIn .success .awaitCount with sfunc := f, need := 6 }
  else .next { s.endedIn .invalidFunctionCode .idle with sfunc := f, need := 0 }

/-- S_HDR with a bound station reads the address byte, and the function byte of that station's frame (R233). -/
theorem execSHdr_of_init (hinit : s.status.init = true) :
    execSHdr s = andThen (readByte s .frame 0) fun f0 =>
      if f0 ≠ s.localAddr then .next { s.endedIn .invalidAddress .idle with need := 0 }
      else andThen (readByte s .frame 1) fun f => headerAnswer f s := by
  simp only [← readByte_congr (s := s) (t := { s.prologue.setPhase .idle with need := 0 }) rfl]
  exact if_init hinit

/-- S_HDR on another station's frame (R233). -/
theorem execSHdr_of_other (hinit : s.status.init = true) {f0 : Byte} (h0 : s.byteAt .frame 0 = some f0) (hother : f0 ≠ s.localAddr) :
    execSHdr s = .next { s.endedIn .invalidAddress .idle with need := 0 } := by
  rw [execSHdr_of_init hinit, readByte_of_byteAt h0, andThen_next, if_pos hother]

/-- S_HDR on the bound station's frame (R233). -/
theorem execSHdr_of_own (hinit : s.status.init = true) (h0 : s.byteAt .frame 0 = some s.localAddr) {f : Byte}
    (h1 : s.byteAt .frame 1 = some f) : execSHdr s = headerAnswer f s := by
  rw [execSHdr_of_init hinit, readByte_of_byteAt h0, andThen_next, if_neg (not_not.mpr rfl), readByte_of_byteAt h1, andThen_next]

/-- Settles O39: a bound station, the address byte, then the three kinds of function byte. -/
theorem sHdrRule : Obligations.SHdrRule := by
  intro dp src s
  refine ⟨commandWordIs_of_opCommand (op := 0x21) rfl, fun hinit => if_pos hinit, fun hinit => ⟨fun h0 => ?_, fun f0 h0 hother => ?_,
    fun h0 => ⟨fun h1 => ?_, fun f h1 => ⟨fun hf => ?_, fun hf => ?_, fun h3 h6 h10 => ?_⟩⟩⟩⟩
  · exact exec_refused_of_unwritten (by omega) ⟨rfl, hinit, .inl rfl⟩ h0
  · exact execSHdr_of_other hinit h0 hother
  · exact exec_refused_of_unwritten (by omega) ⟨rfl, hinit, .inr ⟨rfl, h0⟩⟩ h1
  · exact (execSHdr_of_own hinit h0 h1).trans (if_pos hf)
  · subst hf
    exact execSHdr_of_own hinit h0 h1
  · exact (execSHdr_of_own hinit h0 h1).trans ((if_neg (not_or.mpr ⟨h3, h6⟩)).trans (if_neg h10))

/-- Settles O40: by the rule of S_HDR, whose cases name F[0] and F[1] alone; its refusals name no other byte either. -/
theorem sHdrExaminesTwoBytes : Obligations.SHdrExaminesTwoBytes := by
  intro dp src s u hu h0 h1
  obtain ⟨m, rfl⟩ : ∃ m, u = { s with mem := m } := ⟨u.mem, hu⟩
  refine ⟨fun t h => ?_, fun q h => ?_⟩
  · obtain ⟨-, hunbound, hbound⟩ := sHdrRule dp src { s with mem := m }
    rcases execSHdr_next h with ⟨hinit, rfl⟩ | ⟨hinit, f0, hf0, hother, rfl⟩ | ⟨hinit, hown, f, hf, hcases⟩
    · exact ⟨rfl, hunbound hinit⟩
    · obtain ⟨-, hanother, -⟩ := hbound hinit
      exact ⟨rfl, hanother f0 (h0.trans hf0) hother⟩
    · obtain ⟨-, -, hfunction⟩ := hbound hinit
      obtain ⟨hfixed, hmultiple, hinvalid⟩ := (hfunction (h0.trans hown)).2 f (h1.trans hf)
      rcases hcases with ⟨hf, rfl⟩ | ⟨hf, rfl⟩ | ⟨hf, rfl⟩
      · exact ⟨rfl, hfixed hf⟩
      · exact ⟨rfl, hmultiple hf⟩
      · simp only [List.mem_cons, List.not_mem_nil, or_false, not_or] at hf
        obtain ⟨h3, h6, h10⟩ := hf
        exact ⟨rfl, hinvalid h3 h6 h10⟩
  · obtain ⟨rfl, b, k, hk, ⟨rfl, hinit, hpath⟩, hun⟩ := (refusedExactlyForUnwrittenOnPath _ s q).mp h
    rcases hpath with rfl | ⟨rfl, hown⟩
    · exact exec_refused_of_unwritten hk ⟨rfl, hinit, .inl rfl⟩ (h0.trans hun)
    · exact exec_refused_of_unwritten hk ⟨rfl, hinit, .inr ⟨rfl, h0.trans hown⟩⟩ (h1.trans hun)

/-! ## S_CNT -/

/-- S_CNT in its phase reads the count (R236). -/
theorem execSCnt_of_phase (hinit : s.status.init = true) (hphase : s.status.sphase = .awaitCount) :
    execSCnt s = andThen (readField 4 s) fun n =>
      if 123 < n.toNat then .next { s.endedIn .invalidParam .idle with need := 0 }
      else .next { s.endedIn .success .awaitBody with need := BitVec.ofNat 9 (9 + 2 * n.toNat) } := by
  rw [← readField_congr (s := s) (t := s.prologue) rfl]
  exact (if_init hinit).trans (if_phase hphase)

/-- Settles O41: a bound station, the phase, then the count read from F[4..6). -/
theorem sCntRule : Obligations.SCntRule := by
  intro dp src s
  refine ⟨commandWordIs_of_opCommand (op := 0x22) rfl, fun hinit => if_pos hinit,
    fun hinit hphase => (if_init hinit).trans (if_pos hphase), fun hinit hphase => ⟨?_, fun n hn => ⟨fun hlong => ?_, ?_⟩⟩⟩
  · rintro ⟨k, hk, hun⟩
    exact exec_refused_of_unwritten (by omega) ⟨rfl, hinit, hphase, by omega⟩ hun
  · have hread : readField 4 s = .next n := (readField_eq_next (by omega)).mpr hn
    exact (execSCnt_of_phase hinit hphase).trans ((andThen_of_eq_next hread _).trans (if_pos hlong))
  · exact execSCnt_of_holds hinit hphase hn

/-! ## S_BODY -/

/-- S_BODY on a frame whose CRC is right decodes it, in phase IDLE (R240). -/
theorem execSBody_of_rightCrc (hinit : s.status.init = true) (hphase : s.status.sphase = .awaitBody) {body : List Byte} {c : Half}
    (hl : body.length + 2 = s.need.toNat) (hh : s.Holds .frame 0 (body ++ leBytes c)) (hcrc : crc16 body = c) :
    execSBody s = decodeRequestBody (s.prologue.setPhase .idle) :=
  (execSBody_of_holds hinit hphase hl hh).trans (if_neg (not_not.mpr hcrc))

/-- Settles O42: a bound station, the phase, the CRC of `F[0..NEED)`, then the decoding by the latched function byte. -/
theorem sBodyRule : Obligations.SBodyRule := by
  intro dp src s
  refine ⟨commandWordIs_of_opCommand (op := 0x23) rfl, fun hinit => if_pos hinit,
    fun hinit hphase => (if_init hinit).trans (if_pos hphase), fun hinit hphase _ hmax =>
    ⟨?_, fun body c hl hh => ⟨fun hcrc => ?_, fun hcrc => ⟨fun a x hfields => ?_, fun hf a n bc vs hcount hfields hvalues => ?_⟩⟩⟩⟩
  · rintro ⟨k, hk, hun⟩
    rw [Nat.zero_add] at hun
    exact exec_refused_of_unwritten (by omega) ⟨hinit, hphase, rfl, .inl hk⟩ hun
  · exact (execSBody_of_holds hinit hphase hl hh).trans (if_pos hcrc)
  · have hbody := execSBody_of_rightCrc hinit hphase hl hh hcrc
    obtain ⟨hread, hwrite, hmultiple⟩ := decodeRequestBody_of_holds (s := s.prologue.setPhase .idle) hfields
    refine ⟨fun hf => hbody.trans (hread hf), fun hf => hbody.trans (hwrite hf), ?_⟩
    rintro hf ⟨k, hk, hun⟩
    exact hbody.trans ((hmultiple hf).1 (6 + k) (by omega) (by omega) (by omega) hun)
  · obtain ⟨hfields, hbc⟩ := holds_append.mp hfields
    obtain ⟨hbc, -⟩ := holds_cons.mp hbc
    obtain ⟨-, -, hmultiple⟩ := decodeRequestBody_of_holds (s := s.prologue.setPhase .idle) hfields
    exact ⟨_, (execSBody_of_rightCrc hinit hphase hl hh hcrc).trans ((hmultiple hf).2 bc vs hcount hbc hvalues),
      Memory.stored_writeAll _ _ _⟩

end Sys2Proof.Machine
end

section
/-! PROOFS. The exceptions of the block (60_exceptions.md): the statuses each command ends with (R270, R272), and what a step refuses
(R276): an access for its shape, and a host read or a command for an unwritten byte. -/

namespace Sys2Proof.Machine

variable {s t : State} {off : Nat} {n : Width} {v : Word} {q : Refusal}

/-! ## The statuses of the commands -/

/-- Every command's rule lists Success (R270). -/
theorem success_mem_statusesOf {i : Instr} (hi : i.isCommand = true) : Status.success ∈ statusesOf i := by
  cases i <;> simp [Instr.isCommand, statusesOf] at hi ⊢

/-- The ends of the PARSE family that use no payload are among its statuses, which its four commands share (R170, R205, R210, R215). -/
theorem code_mem_of_parseFails {i : Instr} (h : ParseFails s t)
    (hi : statusesOf i = statusesOf (.parse false false) := by rfl) : t.status.code ∈ statusesOf i := by
  rw [hi]
  rcases h with ⟨c, hc, rfl⟩ | ⟨ec, rfl⟩
  · have hsub : [Status.invalidParam, .invalidResponse, .crcError, .invalidFunctionCode] ⊆ statusesOf (.parse false false) := by
      simp [statusesOf]
    exact hsub hc
  · simp [statusesOf]

/-- Settles O51: the code of every next state of each command, case by case. -/
theorem statusesOfCommands : Obligations.StatusesOfCommands := by
  intro i s t hi h
  have hsuccess : Status.success ∈ statusesOf i := success_mem_statusesOf hi
  cases i
  case crc16 => rcases execCrc16_next h with ⟨-, rfl⟩ | ⟨-, rfl⟩ | ⟨_, -, -, rfl⟩ <;> simp [statusesOf]
  case build =>
    rcases execBuild_next h with ⟨c, hc, rfl⟩ | ⟨_, -, -, -, -, rfl⟩
    · exact List.mem_append_left [.success] hc
    · exact hsuccess
  case buildExc =>
    rcases execBuildExc_next h with rfl | ⟨-, rfl⟩
    · exact List.mem_cons_self
    · exact hsuccess
  case reqRhr =>
    rcases execReqRhr_next h with ⟨c, hc, rfl⟩ | ⟨-, -, -, rfl⟩
    · exact List.mem_append_left [.success] hc
    · exact hsuccess
  case reqWsr =>
    rcases execReqWsr_next h with rfl | ⟨-, rfl⟩
    · exact List.mem_cons_self
    · exact hsuccess
  case reqWmr =>
    rcases execReqWmr_next h with ⟨c, hc, rfl⟩ | ⟨_, -, -, -, -, -, rfl⟩
    · exact List.mem_append_left [.success] hc
    · exact hsuccess
  case parse =>
    rcases execParse_next h with hfail | ⟨_, -, -, rfl⟩
    · exact code_mem_of_parseFails hfail
    · exact hsuccess
  case rspRhr =>
    rcases execRspRhr_next h with hfail | ⟨_, _, -, -, -, rfl⟩
    · exact code_mem_of_parseFails hfail
    · exact hsuccess
  case rspWsr =>
    rcases execRspWsr_next h with hfail | ⟨-, rfl⟩
    · exact code_mem_of_parseFails hfail
    · exact hsuccess
  case rspWmr =>
    rcases execRspWmr_next h with hfail | ⟨-, rfl⟩
    · exact code_mem_of_parseFails hfail
    · exact hsuccess
  case sInit =>
    rcases execSInit_next h with ⟨-, rfl⟩ | ⟨-, rfl⟩
    · exact List.mem_cons_self
    · exact hsuccess
  case sHdr =>
    rcases execSHdr_next h with ⟨-, rfl⟩ | ⟨-, _, -, -, rfl⟩ | ⟨-, -, _, -, ⟨-, rfl⟩ | ⟨-, rfl⟩ | ⟨-, rfl⟩⟩ <;>
      simp [statusesOf]
  case sCnt =>
    rcases execSCnt_next h with ⟨-, rfl⟩ | ⟨-, rfl⟩ | ⟨-, -, _, -, ⟨-, rfl⟩ | ⟨-, rfl⟩⟩ <;> simp [statusesOf]
  case sBody =>
    rcases execSBody_next h with ⟨-, rfl⟩ | ⟨-, rfl⟩ |
      ⟨-, -, rfl | ⟨_, -, ⟨-, _, -, rfl⟩ | ⟨-, _, -, rfl⟩ | ⟨-, _, _, _, -, -, rfl⟩ | ⟨-, rfl⟩⟩⟩ <;> simp [statusesOf]
  all_goals cases hi

/-! ## The refusals of an access -/

theorem lt_of_placeOf_register (h : placeOf off = .register) : off < 0x100 := by
  unfold placeOf at h
  split at h
  case isTrue hoff => exact hoff
  split at h
  · cases h
  split at h <;> cases h

theorem le_of_placeOf_reserved (h : placeOf off = .reserved) : 0x300 ≤ off := by
  unfold placeOf at h
  split at h
  · cases h
  split at h
  · cases h
  split at h
  · cases h
  case isFalse hoff => exact Nat.not_lt.mp hoff

/-- An access is refused for its shape: a register access that is not an aligned 32-bit one (R61), or a misaligned access to a buffer
or the reserved window (R62). -/
def RefusedForShape (off : Nat) (n : Width) (q : Refusal) : Prop :=
  (q = .registerAccess ∧ off < 0x100 ∧ (n ≠ .word ∨ off % 4 ≠ 0)) ∨
    (q = .misalignedAccess ∧ 0x100 ≤ off ∧ off % n.bytes ≠ 0)

theorem refusedForShape_register (hplace : placeOf off = .register) (hshape : ¬ (n = .word ∧ off % 4 = 0)) :
    RefusedForShape off n .registerAccess :=
  .inl ⟨rfl, lt_of_placeOf_register hplace, not_and_or.mp hshape⟩

theorem refusedForShape_buffer {b : Buffer} {i : Nat} (hplace : placeOf off = .buffer b i) (halign : off % n.bytes ≠ 0) :
    RefusedForShape off n .misalignedAccess := by
  obtain ⟨hoff, -⟩ := placeOf_eq_buffer hplace
  obtain ⟨hbase, -⟩ := base_bounds b
  exact .inr ⟨rfl, by omega, halign⟩

theorem refusedForShape_reserved (hplace : placeOf off = .reserved) (halign : off % n.bytes ≠ 0) :
    RefusedForShape off n .misalignedAccess :=
  .inr ⟨rfl, Nat.le_trans (by decide) (le_of_placeOf_reserved hplace), halign⟩

/-- Every refusal of a host read: for its shape, or an aligned one that covers an unwritten byte (R61 to R63, R28). -/
theorem busRead_refused (h : busRead off n s = .refused q) :
    RefusedForShape off n q ∨
    q = .unwrittenByte ∧ off % n.bytes = 0 ∧
      ∃ b k, k < 256 ∧ s.byteAt b k = none ∧ off ≤ b.base + k ∧ b.base + k < off + n.bytes := by
  unfold busRead at h
  split at h
  case h_1 hplace =>
    split at h
    case isTrue => split at h <;> cases h
    case isFalse hshape => cases h; exact .inl (refusedForShape_register hplace hshape)
  case h_2 b i hplace =>
    split at h
    case isTrue halign =>
      rcases andThen_eq_refused h with hread | ⟨_, -, h⟩
      · obtain ⟨rfl, k, hk, hi, hun⟩ := readBytes_eq_refused.mp hread
        obtain ⟨rfl, -⟩ := placeOf_eq_buffer hplace
        exact .inr ⟨rfl, halign, b, i + k, hi, hun, by omega, by omega⟩
      · cases h
    case isFalse halign => cases h; exact .inl (refusedForShape_buffer hplace halign)
  case h_3 hplace =>
    split at h
    case isTrue => cases h
    case isFalse halign => cases h; exact .inl (refusedForShape_reserved hplace halign)

/-- Every refusal of a host write: for its shape, or the refusal of a CMD write (R61, R62). -/
theorem busWrite_refused (h : busWrite off n v s = .refused q) :
    RefusedForShape off n q ∨ off = 0 ∧ n = .word ∧ runCommand v s = .refused q := by
  unfold busWrite at h
  split at h
  case h_1 hplace =>
    split at h
    case isTrue hshape =>
      split at h
      case h_1 r hr =>
        by_cases hcmd : r = .cmd
        · subst hcmd
          exact .inr ⟨eq_offset_of_regAt hr, hshape.1, h⟩
        · obtain ⟨t, ht⟩ := writeReg_completes hcmd v s
          cases ht.symm.trans h
      case h_2 => cases h
    case isFalse hshape => cases h; exact .inl (refusedForShape_register hplace hshape)
  case h_2 b i hplace =>
    split at h
    case isTrue => cases h
    case isFalse halign => cases h; exact .inl (refusedForShape_buffer hplace halign)
  case h_3 hplace =>
    split at h
    case isTrue => cases h
    case isFalse halign => cases h; exact .inl (refusedForShape_reserved hplace halign)

/-! ## The refusals of a step -/

/-- Every refusal of a CMD write: the word is a command's, and a byte that the command reads on its path is unwritten (R123). -/
theorem runCommand_refused (h : runCommand v s = .refused q) :
    ∃ i, decode (.command v) = .ok i ∧
      q = .unwrittenByte ∧ ∃ b k, k < 256 ∧ readsOnPath i s b k ∧ s.byteAt b k = none := by
  unfold runCommand at h
  split at h
  case h_1 i hi => exact ⟨i, hi, (refusedExactlyForUnwrittenOnPath i s q).mp h⟩
  case h_2 => cases h

/-- The arrival of bytes is never refused (R110; log 4). -/
theorem receiveFrame_ne_refused (d : Direction) (bytes : List Byte) (s : State) : receiveFrame d bytes s ≠ .refused q := by
  unfold receiveFrame
  split
  case h_1 hi =>
    rw [exec_of_frame (isCommand_of_decode_frame hi)]
    nofun
  case h_2 => nofun

/-- Every refusal of a host action: an access for its shape, a read that covers an unwritten byte, or a CMD write of a command that
reads one on its path (R276). -/
theorem perform_refused {a : HostAction} (h : perform a s = .refused q) :
    (∃ addr off n, (a = .read addr n ∨ ∃ v, a = .write addr n v) ∧ addr = 0x400 * s.baseSlot + off ∧ off < 0x400 ∧
      RefusedForShape off n q) ∨
    (q = .unwrittenByte ∧ ∃ b k, k < 256 ∧ s.byteAt b k = none ∧
      ((∃ addr off n, a = .read addr n ∧ addr = 0x400 * s.baseSlot + off ∧ off % n.bytes = 0 ∧
          off ≤ b.base + k ∧ b.base + k < off + n.bytes) ∨
        ∃ w i, a = .write (0x400 * s.baseSlot) .word w ∧ decode (.command w) = .ok i ∧ readsOnPath i s b k)) := by
  cases a with
  | reset => cases h
  | frame d bytes => exact absurd h (receiveFrame_ne_refused d bytes s)
  | read addr n =>
    cases hin : s.windowOffset addr with
    | none => cases (perform_read_outside hin n).symm.trans h
    | some off =>
      obtain ⟨haddr, hoff⟩ := windowOffset_eq_some hin
      rw [perform_read_inside hin] at h
      rcases andThen_eq_refused h with hread | ⟨_, -, h⟩
      · rcases busRead_refused hread with hshape | ⟨hq, halign, b, k, hk, hun, hlo, hhi⟩
        · exact .inl ⟨addr, off, n, .inl rfl, haddr, hoff, hshape⟩
        · exact .inr ⟨hq, b, k, hk, hun, .inl ⟨addr, off, n, rfl, haddr, halign, hlo, hhi⟩⟩
      · cases h
  | write addr n v =>
    cases hin : s.windowOffset addr with
    | none => cases (perform_write_outside hin n v).symm.trans h
    | some off =>
      obtain ⟨haddr, hoff⟩ := windowOffset_eq_some hin
      rw [perform_write_inside hin] at h
      rcases busWrite_refused h with hshape | ⟨rfl, rfl, hrun⟩
      · exact .inl ⟨addr, off, n, .inr ⟨v, rfl⟩, haddr, hoff, hshape⟩
      · obtain ⟨i, hi, hq, b, k, hk, hreads, hun⟩ := runCommand_refused hrun
        exact .inr ⟨hq, b, k, hk, hun, .inr ⟨v, i, haddr ▸ rfl, hi, hreads⟩⟩

/-- Settles O52: the step performs the action on a state with the same BASE and memory. -/
theorem refusalsHaveTheirCauses : Obligations.RefusalsHaveTheirCauses := by
  intro s a rest q hp h
  rw [step_of_pending hp] at h
  rcases perform_refused h with ⟨addr, off, n, ha, haddr, hoff, ⟨hq, hlt, hshape⟩ | ⟨hq, hle, halign⟩⟩ | hunwritten
  · exact .inl ⟨hq, addr, off, n, ha, haddr, hlt, hshape⟩
  · exact .inr (.inl ⟨hq, addr, off, n, ha, haddr, hle, hoff, halign⟩)
  · exact .inr (.inr hunwritten)

end Sys2Proof.Machine
end

section
/-! PROOFS. Reset and the hazard of a rewritten request (70_reset_and_hazards.md R300, R311): a step on a platform reset and a step with
nothing to do, and S_BODY on a FRAME that is written whole. -/

namespace Sys2Proof.Machine

variable {s t : State}

/-! ## Platform reset and the idle block -/

/-- The block does nothing on its own (R8, R33). -/
theorem step_of_idle (h : s.pending = []) : step s = .next s := by
  simp only [step, performNext, h]

/-- Settles O8: a reset is the oldest action, or there is no action. -/
theorem platformResetAndIdle : Obligations.PlatformResetAndIdle :=
  ⟨fun _ _ hp => step_of_pending hp, fun _ => step_of_idle⟩

/-! ## Values from wire order to the register view -/

/-- The register view holds the bytes of each wire value in the other order (R27, R131). -/
theorem getElem?_viewRegs (vs : List Half) (i : Nat) :
    (viewRegs vs)[2 * i]? = (wireRegs vs)[2 * i + 1]? ∧ (viewRegs vs)[2 * i + 1]? = (wireRegs vs)[2 * i]? := by
  induction vs generalizing i with
  | nil => simp
  | cons v vs ih =>
    cases i with
    | zero => simp
    | succ i => simpa [Nat.mul_add] using ih i

/-- Registers stored in DATA have the bytes that were found for their values in FRAME (R131, R240). -/
theorem byteAt_data_of_finds {p i : Nat} {vs : List Half} (hfinds : s.Finds .frame p (wireRegs vs))
    (hdata : t.Holds .data 0 (viewRegs vs)) (hi : i < vs.length) :
    t.byteAt .data (2 * i + 1) = s.foundAt .frame (p + 2 * i) ∧ t.byteAt .data (2 * i) = s.foundAt .frame (p + (2 * i + 1)) := by
  obtain ⟨hlo, hhi⟩ := getElem?_viewRegs vs i
  have hview (k : Nat) (hk : k < 2 * vs.length) : t.byteAt .data k = (viewRegs vs)[k]? := by
    simpa using hdata k (by simpa using hk)
  have hwire (k : Nat) (hk : k < 2 * vs.length) : s.foundAt .frame (p + k) = (wireRegs vs)[k]? := hfinds k (by simpa using hk)
  constructor
  · rw [hview _ (by omega), hhi, hwire _ (by omega)]
  · rw [hview _ (by omega), hlo, hwire _ (by omega)]

/-! ## S_BODY on a written FRAME -/

/-- At every index of a buffer that is written whole, and past its end, a command finds a byte (log 7). -/
theorem foundAt_ne_none_of_written {b : Buffer} (hwritten : ∀ i, i < 256 → s.byteAt b i ≠ none) (i : Nat) : s.foundAt b i ≠ none :=
  fun hnone => by
    obtain ⟨hi, hun⟩ := foundAt_eq_none.mp hnone
    exact hwritten i hi hun

/-- The registers stored for values found from F[7] on: the bytes of FRAME wherever those exist, and every byte written (R240, R311;
log 7). -/
theorem registers_of_stored {i : Nat} {vs : List Half} (hwritten : ∀ i, i < 256 → s.byteAt .frame i ≠ none)
    (hfinds : s.Finds .frame 7 (wireRegs vs)) (hstored : Stored s.mem t.mem 0x200 (viewRegs vs)) (hfit : vs.length ≤ 128)
    (hi : i < vs.length) :
    (7 + 2 * i < 256 → t.byteAt .data (2 * i + 1) = s.byteAt .frame (7 + 2 * i)) ∧
      (8 + 2 * i < 256 → t.byteAt .data (2 * i) = s.byteAt .frame (8 + 2 * i)) ∧
      t.byteAt .data (2 * i) ≠ none ∧ t.byteAt .data (2 * i + 1) ≠ none := by
  have hdata : t.Holds .data 0 (viewRegs vs) := holds_of_stored (b := .data) (i := 0) hstored (by rw [length_viewRegs]; omega)
  obtain ⟨hhi, hlo⟩ := byteAt_data_of_finds hfinds hdata hi
  rw [show 7 + (2 * i + 1) = 8 + 2 * i by omega] at hlo
  rw [hhi, hlo]
  exact ⟨foundAt_of_lt, foundAt_of_lt, foundAt_ne_none_of_written hwritten _, foundAt_ne_none_of_written hwritten _⟩

/-- S_BODY reads FRAME alone, so that it is not refused where FRAME is written whole (R123, R311). -/
theorem exec_sBody_of_written (dp src : Bool) (hwritten : ∀ i, i < 256 → s.byteAt .frame i ≠ none) :
    ∃ t, exec (.sBody dp src) s = .next t := by
  cases he : exec (.sBody dp src) s with
  | next t => exact ⟨t, rfl⟩
  | fault f => cases f
  | refused q =>
    obtain ⟨-, b, k, hk, ⟨-, -, rfl, -⟩, hun⟩ := (refusedExactlyForUnwrittenOnPath _ s q).mp he
    exact absurd hun (hwritten k hk)

/-- Settles O43: values are found for every count, S_BODY's rule stores them, and the register view has their bytes. -/
theorem rewrittenCountStillDecodes : Obligations.RewrittenCountStillDecodes := by
  intro dp src s hwritten
  refine ⟨exec_sBody_of_written dp src hwritten, fun body c a n bc hinit hphase hf hl hh hcrc hfields => ?_⟩
  obtain ⟨vs, hcount, hvalues⟩ := exists_found_values (i := 7) (min n.toNat 128) fun k _ => foundAt_ne_none_of_written hwritten (7 + k)
  have hneed : s.need.toNat ≤ 256 := by
    have hbound := holds_bound hh (by simp [leBytes])
    simp only [List.length_append, length_leBytes] at hbound
    omega
  obtain ⟨-, -, -, hcycle⟩ := sBodyRule dp src s
  obtain ⟨-, hcheck⟩ := hcycle hinit hphase (by omega) hneed
  obtain ⟨-, hdecode⟩ := (hcheck body c hl hh).2 hcrc
  obtain ⟨m, hexec, hstored⟩ := hdecode hf a n bc vs hcount hfields hvalues
  refine ⟨_, hexec, rfl, fun i hin hi => ?_, fun x hx => hstored.2 x ?_⟩
  · exact registers_of_stored hwritten hvalues hstored (by omega) (by omega)
  · rw [length_viewRegs]
    omega

end Sys2Proof.Machine
end
